-- ==== Sys2Proof/Word.lean ====
section
/-! DEFINITION. The word types of the MMVA engine: bytes of `MEM`, 32-bit CSR words, the 31-bit generator state. -/

namespace Sys2Proof

/-- One byte of `MEM` (20_memory.md R60). -/
abbrev Byte := BitVec 8

/-- One CSR or one command word (10_state.md R24, 30_encoding.md R80). -/
abbrev Word := BitVec 32

/-- The state of the generator (10_state.md R22). -/
abbrev Seed := BitVec 31

end Sys2Proof
end

