-- ==== Sys2Proof/Syntax.lean ====
section
/-! DEFINITION. The 30 commands (30_encoding.md R84), one constructor per row of the opcode table, and their operands. -/

namespace Sys2Proof

/-- The eight big-integer registers (10_state.md R20). -/
inductive Reg where
  | b0 | b1 | b2 | b3 | b4 | b5 | b6 | b7
deriving DecidableEq, Repr

/-- The commands. Register operands stand in the order `rd, ra, rb, rm` restricted to the fields the
command uses, the immediate `imm20` last (30_encoding.md R84, R90). An immediate is the natural
number it stands for; that it has 20 bits is `WellFormed`. -/
inductive Instr where
  | nop
  | zeroize
  | ldi (rd : Reg) (imm20 : Nat)
  | mov (rd ra : Reg)
  | cmp (ra rb : Reg)
  | bitlen (ra : Reg)
  | add (rd ra rb : Reg)
  | sub (rd ra rb : Reg)
  | mova (rd : Reg)
  | mul (ra rb : Reg)
  | red (rd rm : Reg)
  | modmul (rd ra rb rm : Reg)
  | modexp (rd ra rb rm : Reg)
  | modinv (rd ra rm : Reg)
  | rngnext
  | mrwit (ra rm : Reg)
  | mrtest (rm : Reg)
  | primecand (rd : Reg) (imm20 : Nat)
  | primegen (rd : Reg) (imm20 : Nat)
  | keygen (imm20 : Nat)
  | rsaenc (rd rb rm : Reg)
  | rsadec (ra rb rm : Reg)
  | embed
  | extract
  | ldf (rd : Reg)
  | stf (ra : Reg)
  | pack (ra rb : Reg)
  | unpack (rd rb : Reg)
  | ldm (rd : Reg)
  | stm (ra : Reg)
deriving DecidableEq, Repr

end Sys2Proof
end

