-- ==== Sys2Proof/WellFormed.lean ====
section
/-! DEFINITION. Which terms of `Instr` a command word can spell: the immediate has 20 bits (30_encoding.md R83). -/

namespace Sys2Proof

/-- The immediate of format I is an unsigned 20-bit number (30_encoding.md R83). -/
abbrev Imm20 (v : Nat) : Prop := v < 1048576

/-- A command some word spells. Register fields are well formed by their type; UNPACK with equal
destinations is a command that decodes (46_key_serializer.md R214) and is not excluded here. -/
abbrev WellFormed (i : Instr) : Prop :=
  match i with
  | .ldi _ v => Imm20 v
  | .primecand _ v => Imm20 v
  | .primegen _ v => Imm20 v
  | .keygen v => Imm20 v
  | .nop => True
  | .zeroize => True
  | .mov _ _ => True
  | .cmp _ _ => True
  | .bitlen _ => True
  | .add _ _ _ => True
  | .sub _ _ _ => True
  | .mova _ => True
  | .mul _ _ => True
  | .red _ _ => True
  | .modmul _ _ _ _ => True
  | .modexp _ _ _ _ => True
  | .modinv _ _ _ => True
  | .rngnext => True
  | .mrwit _ _ => True
  | .mrtest _ => True
  | .rsaenc _ _ _ => True
  | .rsadec _ _ _ => True
  | .embed => True
  | .extract => True
  | .ldf _ => True
  | .stf _ => True
  | .pack _ _ => True
  | .unpack _ _ => True
  | .ldm _ => True
  | .stm _ => True

end Sys2Proof
end

