-- ==== Sys2Proof/Decode.lean ====
section
/-! DEFINITION. From a command word to a command (30_encoding.md R80 to R88) and back. -/

namespace Sys2Proof

/-- Why a word is no command (30_encoding.md R87, R88). -/
inductive DecodeError where
  | illegalOpcode
  | reservedField
deriving DecidableEq, Repr

/-- The register a 3-bit field names (30_encoding.md R82). -/
def Reg.ofBits (v : BitVec 3) : Reg :=
  match v.toNat with
  | 0 => .b0
  | 1 => .b1
  | 2 => .b2
  | 3 => .b3
  | 4 => .b4
  | 5 => .b5
  | 6 => .b6
  | _ => .b7

/-- The number of a register (30_encoding.md R82). -/
def Reg.bits (r : Reg) : BitVec 3 :=
  match r with
  | .b0 => 0#3
  | .b1 => 1#3
  | .b2 => 2#3
  | .b3 => 3#3
  | .b4 => 4#3
  | .b5 => 5#3
  | .b6 => 6#3
  | .b7 => 7#3

/-- Bits 7:0, the opcode (30_encoding.md R80). -/
def opcodeField (w : Word) : Byte := w.extractLsb' 0 8

/-- Bits 10:8 (30_encoding.md R82, R83). -/
def rdField (w : Word) : Reg := Reg.ofBits (w.extractLsb' 8 3)

/-- Bits 13:11 (30_encoding.md R82). -/
def raField (w : Word) : Reg := Reg.ofBits (w.extractLsb' 11 3)

/-- Bits 16:14 (30_encoding.md R82). -/
def rbField (w : Word) : Reg := Reg.ofBits (w.extractLsb' 14 3)

/-- Bits 19:17 (30_encoding.md R82). -/
def rmField (w : Word) : Reg := Reg.ofBits (w.extractLsb' 17 3)

/-- Bits 31:12, zero-extended (30_encoding.md R83). -/
def immField (w : Word) : Nat := (w.extractLsb' 12 20).toNat

/-- One row of the opcode map (30_encoding.md R84, R85). -/
structure OpRow where
  code : Byte
  mask : Word
  value : Word
  build : Word → Instr

/-- The opcode map (30_encoding.md R84), masks and matches as the table prints them. -/
def opTable : List OpRow :=
  [ ⟨0x00#8, 0xFFFFFFFF#32, 0x00000000#32, fun _ => .nop⟩,
    ⟨0x01#8, 0xFFFFFFFF#32, 0x00000001#32, fun _ => .zeroize⟩,
    ⟨0x02#8, 0x000008FF#32, 0x00000002#32, fun w => .ldi (rdField w) (immField w)⟩,
    ⟨0x03#8, 0xFFFFC0FF#32, 0x00000003#32, fun w => .mov (rdField w) (raField w)⟩,
    ⟨0x04#8, 0xFFFE07FF#32, 0x00000004#32, fun w => .cmp (raField w) (rbField w)⟩,
    ⟨0x05#8, 0xFFFFC7FF#32, 0x00000005#32, fun w => .bitlen (raField w)⟩,
    ⟨0x06#8, 0xFFFE00FF#32, 0x00000006#32, fun w => .add (rdField w) (raField w) (rbField w)⟩,
    ⟨0x07#8, 0xFFFE00FF#32, 0x00000007#32, fun w => .sub (rdField w) (raField w) (rbField w)⟩,
    ⟨0x08#8, 0xFFFFF8FF#32, 0x00000008#32, fun w => .mova (rdField w)⟩,
    ⟨0x10#8, 0xFFFE07FF#32, 0x00000010#32, fun w => .mul (raField w) (rbField w)⟩,
    ⟨0x11#8, 0xFFF1F8FF#32, 0x00000011#32, fun w => .red (rdField w) (rmField w)⟩,
    ⟨0x12#8, 0xFFF000FF#32, 0x00000012#32,
      fun w => .modmul (rdField w) (raField w) (rbField w) (rmField w)⟩,
    ⟨0x13#8, 0xFFF000FF#32, 0x00000013#32,
      fun w => .modexp (rdField w) (raField w) (rbField w) (rmField w)⟩,
    ⟨0x14#8, 0xFFF1C0FF#32, 0x00000014#32,
      fun w => .modinv (rdField w) (raField w) (rmField w)⟩,
    ⟨0x20#8, 0xFFFFFFFF#32, 0x00000020#32, fun _ => .rngnext⟩,
    ⟨0x21#8, 0xFFF1C7FF#32, 0x00000021#32, fun w => .mrwit (raField w) (rmField w)⟩,
    ⟨0x22#8, 0xFFF1FFFF#32, 0x00000022#32, fun w => .mrtest (rmField w)⟩,
    ⟨0x23#8, 0x000008FF#32, 0x00000023#32, fun w => .primecand (rdField w) (immField w)⟩,
    ⟨0x24#8, 0x000008FF#32, 0x00000024#32, fun w => .primegen (rdField w) (immField w)⟩,
    ⟨0x30#8, 0x00000FFF#32, 0x00000030#32, fun w => .keygen (immField w)⟩,
    ⟨0x31#8, 0xFFF038FF#32, 0x00000031#32,
      fun w => .rsaenc (rdField w) (rbField w) (rmField w)⟩,
    ⟨0x32#8, 0xFFF007FF#32, 0x00000032#32,
      fun w => .rsadec (raField w) (rbField w) (rmField w)⟩,
    ⟨0x40#8, 0xFFFFFFFF#32, 0x00000040#32, fun _ => .embed⟩,
    ⟨0x41#8, 0xFFFFFFFF#32, 0x00000041#32, fun _ => .extract⟩,
    ⟨0x50#8, 0xFFFFF8FF#32, 0x00000050#32, fun w => .ldf (rdField w)⟩,
    ⟨0x51#8, 0xFFFFC7FF#32, 0x00000051#32, fun w => .stf (raField w)⟩,
    ⟨0x52#8, 0xFFFE07FF#32, 0x00000052#32, fun w => .pack (raField w) (rbField w)⟩,
    ⟨0x53#8, 0xFFFE38FF#32, 0x00000053#32, fun w => .unpack (rdField w) (rbField w)⟩,
    ⟨0x54#8, 0xFFFFF8FF#32, 0x00000054#32, fun w => .ldm (rdField w)⟩,
    ⟨0x55#8, 0xFFFFC7FF#32, 0x00000055#32, fun w => .stm (raField w)⟩ ]

/-- The row whose opcode is bits 7:0 of the word, if there is one (30_encoding.md R85). -/
def opRow (w : Word) : Option OpRow := opTable.find? (fun r => r.code == opcodeField w)

/-- Decoding (30_encoding.md R85): the illegal-opcode test first, then the reserved fields (R87, R88). -/
def decode (w : Word) : Except DecodeError Instr :=
  match opRow w with
  | none => .error .illegalOpcode
  | some r => if w &&& r.mask = r.value then .ok (r.build w) else .error .reservedField

/-- A word of format R; a field the command does not use is `b0`, whose bits are 0 (30_encoding.md R82). -/
def wordR (op : Word) (rd ra rb rm : Reg) : Word :=
  op ||| (rd.bits.setWidth 32 <<< 8) ||| (ra.bits.setWidth 32 <<< 11) |||
    (rb.bits.setWidth 32 <<< 14) ||| (rm.bits.setWidth 32 <<< 17)

/-- A word of format I (30_encoding.md R83). -/
def wordI (op : Word) (rd : Reg) (imm20 : Nat) : Word :=
  op ||| (rd.bits.setWidth 32 <<< 8) ||| (BitVec.ofNat 32 imm20 <<< 12)

/-- The word of a well-formed command (30_encoding.md R81 to R84). -/
def encode (i : Instr) : Word :=
  match i with
  | .nop => 0x00#32
  | .zeroize => 0x01#32
  | .ldi rd v => wordI 0x02#32 rd v
  | .mov rd ra => wordR 0x03#32 rd ra .b0 .b0
  | .cmp ra rb => wordR 0x04#32 .b0 ra rb .b0
  | .bitlen ra => wordR 0x05#32 .b0 ra .b0 .b0
  | .add rd ra rb => wordR 0x06#32 rd ra rb .b0
  | .sub rd ra rb => wordR 0x07#32 rd ra rb .b0
  | .mova rd => wordR 0x08#32 rd .b0 .b0 .b0
  | .mul ra rb => wordR 0x10#32 .b0 ra rb .b0
  | .red rd rm => wordR 0x11#32 rd .b0 .b0 rm
  | .modmul rd ra rb rm => wordR 0x12#32 rd ra rb rm
  | .modexp rd ra rb rm => wordR 0x13#32 rd ra rb rm
  | .modinv rd ra rm => wordR 0x14#32 rd ra .b0 rm
  | .rngnext => 0x20#32
  | .mrwit ra rm => wordR 0x21#32 .b0 ra .b0 rm
  | .mrtest rm => wordR 0x22#32 .b0 .b0 .b0 rm
  | .primecand rd v => wordI 0x23#32 rd v
  | .primegen rd v => wordI 0x24#32 rd v
  | .keygen v => wordI 0x30#32 .b0 v
  | .rsaenc rd rb rm => wordR 0x31#32 rd .b0 rb rm
  | .rsadec ra rb rm => wordR 0x32#32 .b0 ra rb rm
  | .embed => 0x40#32
  | .extract => 0x41#32
  | .ldf rd => wordR 0x50#32 rd .b0 .b0 .b0
  | .stf ra => wordR 0x51#32 .b0 ra .b0 .b0
  | .pack ra rb => wordR 0x52#32 .b0 ra rb .b0
  | .unpack rd rb => wordR 0x53#32 rd .b0 rb .b0
  | .ldm rd => wordR 0x54#32 rd .b0 .b0 .b0
  | .stm ra => wordR 0x55#32 .b0 ra .b0 .b0

/-- The command the decoder reads from a word given as the opcode table numbers its bits: the low `nbits`
bits of `w`, every bit above them 0. `none` where the decoder refuses. A command word is written to `CMD`
whole, so no byte order enters (30_encoding.md R80). -/
def decodeTableWord (nbits w : Nat) : Option Instr :=
  match decode (BitVec.ofNat 32 (w % 2 ^ nbits)) with
  | .ok i => some i
  | .error _ => none

end Sys2Proof
end

