-- ==== Sys2Proof/Config.lean ====
section
/-! DEFINITION. What the hardware fixes (the constants of 00_scope.md R5) and the free values: constants without a body, of which nothing can be computed. -/

namespace Sys2Proof

/-- Multiplier of the generator (00_scope.md R5, `LCG_A`). -/
def Config.lcgA : Nat := 1103515245

/-- Increment of the generator (00_scope.md R5, `LCG_C`). -/
def Config.lcgC : Nat := 12345

/-- Modulus of the generator (00_scope.md R5, `LCG_M`). -/
def Config.lcgM : Nat := 2147483648

/-- The public exponent KEYGEN uses (00_scope.md R5, `E_FIXED`). -/
def Config.eFixed : Nat := 65537

/-- The identification word (10_state.md R25). -/
def Config.idValue : Word := 0x4D564107#32

/-- The constant part of `CFG`: `DOCVER` 7 and `NREG` 8 (10_state.md R26). -/
def Config.cfgBase : Word := 0x07080000#32

/-- The end-of-payload marker, first bit first: fifteen ones, then a zero (00_scope.md R5, R12). -/
def Config.terminator : List Bool :=
  [true, true, true, true, true, true, true, true, true, true, true, true, true, true, true, false]

/-- FREE VALUE. What the byte of `MEM` at an address reads as while nothing has written it since a
reset: any value, fixed until written (70_reset_and_hazards.md R262, log 3). The first argument
counts the resets taken, so that each reset leaves contents of its own. -/
opaque Config.memByte : Nat → Nat → Byte

/-- FREE VALUE. What a read of the MEM aperture returns while the engine is BUSY: any value
(20_memory.md R68, log 6). The argument counts the values drawn so far. -/
opaque Config.busyRead : Nat → Word

/-- OPEN PARAMETER. The predicates a `TEXT_VALID` may be (00_scope.md R5): any family of total
predicates on byte strings (log 2). -/
opaque Config.textPredicate : Nat → List Byte → Bool

end Sys2Proof
end

