-- ==== Sys2Proof/Machine/LsbStream.lean ====
section
/-! DEFINITION. The bit stream of a payload and its terminator (00_scope.md R12, 45_lsb_codec.md R193). -/

namespace Sys2Proof.Machine

/-- The 8 bits of a byte, bit 7 first (00_scope.md R12). -/
def bitsOfByte (x : Byte) : List Bool :=
  [x.getLsbD 7, x.getLsbD 6, x.getLsbD 5, x.getLsbD 4, x.getLsbD 3, x.getLsbD 2, x.getLsbD 1, x.getLsbD 0]

/-- The bits of a byte string in order. -/
def bitsOf (p : List Byte) : List Bool :=
  match p with
  | [] => []
  | x :: rest => bitsOfByte x ++ bitsOf rest

/-- `Bitstream(p)`: the payload's bits, then the terminator (00_scope.md R12). -/
def bitstream (p : List Byte) : List Bool := bitsOf p ++ Config.terminator

/-- The byte whose bits, bit 7 first, are the eight given (45_lsb_codec.md R193). -/
def byteOfBits (a b c d e f g h : Bool) : Byte :=
  BitVec.ofNat 8
    (128 * a.toNat + 64 * b.toNat + 32 * c.toNat + 16 * d.toNat + 8 * e.toNat + 4 * f.toNat + 2 * g.toNat +
      h.toNat)

/-- Groups bits into bytes; the last bits that fill no byte are dropped (45_lsb_codec.md R193). -/
def bytesOf (u : List Bool) : List Byte :=
  match u with
  | a :: b :: c :: d :: e :: f :: g :: h :: rest => byteOfBits a b c d e f g h :: bytesOf rest
  | _ => []

/-- The number of bits before the first place where the terminator stands, counting from `at_`
(45_lsb_codec.md R193: `nb = j - 15` for the least `j`). -/
def findTerminator (u : List Bool) (at_ : Nat) : Option Nat :=
  match u with
  | [] => none
  | x :: rest =>
    if Config.terminator.isPrefixOf (x :: rest) then some at_ else findTerminator rest (at_ + 1)

/-- A byte with its bit 0 replaced: `(channel & 0xFE) | bit` (45_lsb_codec.md R192). -/
def setLsb (x : Byte) (v : Bool) : Byte := (x &&& 0xFE#8) ||| (if v then 1#8 else 0#8)

end Sys2Proof.Machine
end

