-- ==== Sys2Proof/Machine/Arith.lean ====
section
/-! DEFINITION. The functions on natural numbers and byte strings that the rules name: bit length, big-endian strings, modular power and inverse (00_scope.md R9 to R11, 41_multiplier_reducer.md R123 to R126). -/

namespace Sys2Proof.Machine

/-- The bit length of a natural number (00_scope.md R9). -/
def bitlen (v : Nat) : Nat := if v = 0 then 0 else Nat.log2 v + 1

/-- `be(s)`: the number a byte string encodes, big-endian (00_scope.md R10). -/
def be (s : List Byte) : Nat := s.foldl (fun v x => v * 256 + x.toNat) 0

/-- `be_n(v)`: the `n`-byte big-endian string of `v`, zero-padded (00_scope.md R10). -/
def beBytes (n v : Nat) : List Byte :=
  match n with
  | 0 => []
  | k + 1 => BitVec.ofNat 8 (v / 256 ^ k) :: beBytes k v

/-- The length of `minbytes(v)` (00_scope.md R11). -/
def minLen (v : Nat) : Nat := (bitlen v + 7) / 8

/-- `minbytes(v)`: the minimal big-endian string of `v`; of 0 the empty string (00_scope.md R11). -/
def minbytes (v : Nat) : List Byte := beBytes (minLen v) v

/-- The loop of 41_multiplier_reducer.md R124 over the low `i` bits of the exponent `e`, from the top one
down; `r` is the residue so far. -/
def powLoop (a e m : Nat) (i r : Nat) : Nat :=
  match i with
  | 0 => r
  | k + 1 => powLoop a e m k (if e.testBit k then r * r % m * (a % m) % m else r * r % m)

/-- `a^e mod m` (41_multiplier_reducer.md R123), computed as R124 says (log 11). -/
def powMod (a e m : Nat) : Nat := powLoop a e m (bitlen e) (1 % m)

/-- Extended Euclid (41_multiplier_reducer.md R126): the last `r0` and `t0`. The first argument bounds the
number of turns; the remainder `r1` falls at each, so `r1` itself is bound enough. -/
def euclid (turns r0 r1 : Nat) (t0 t1 : Int) : Nat × Int :=
  match turns with
  | 0 => (r0, t0)
  | k + 1 =>
    if r1 = 0 then (r0, t0) else euclid k r1 (r0 % r1) t1 (t0 - ((r0 / r1 : Nat) : Int) * t1)

/-- The inverse of `a` modulo `m` in `[0, m)`, if `gcd(a mod m, m) = 1` (41_multiplier_reducer.md R125,
computed as R126 says; log 11). For a modulus `m` that is not 0. -/
def invMod (a m : Nat) : Option Nat :=
  let g := euclid (a % m) m (a % m) 0 1
  if g.1 = 1 then some (g.2 % (m : Int)).toNat else none

end Sys2Proof.Machine
end

