-- ==== Sys2Proof/Machine/State.lean ====
section
/-! DEFINITION. The state of the engine as plain data (10_state.md), its value after reset, and the reasons a step can stop. -/

namespace Sys2Proof.Machine

/-- `TEXT_VALID` as data (00_scope.md R5, log 2). `other n` is any total predicate at all. -/
inductive TextPolicy where
  | acceptAll          -- every byte string is text (93_implementation_defined.md U8)
  | ascii              -- every byte is below 0x80 (95_test_vectors.md V47j)
  | other (n : Nat)    -- the predicate `Config.textPredicate n`, of which nothing is known
deriving DecidableEq, Repr

/-- The OPEN parameters of the instance (00_scope.md R5): `W`, `MEMSIZE` and `TEXT_VALID`. The host reads
the first two in `CFG` and `MEMSIZE` (10_state.md R26, R27). No step changes them (log 1). -/
structure Instance where
  w : Nat
  memSize : Nat
  text : TextPolicy
deriving DecidableEq, Repr

/-- The big-integer registers `B0` to `B7` (10_state.md R20). Each holds a natural number; that it is
below `2^K` is an invariant every step keeps (40_control_alu.md R109, log 10). -/
structure RegFile where
  b0 : Nat
  b1 : Nat
  b2 : Nat
  b3 : Nat
  b4 : Nat
  b5 : Nat
  b6 : Nat
  b7 : Nat
deriving DecidableEq, Repr

/-- The fields of `STATUS` (10_state.md R29). -/
structure Status where
  busy : Bool
  done : Bool
  err : Bool
  errOvf : Bool
  haz : Bool
  t : Bool
deriving DecidableEq, Repr

/-- The fields of `IE` (10_state.md R30). -/
structure IntEnable where
  done : Bool
  err : Bool
deriving DecidableEq, Repr

/-- `MEM` (20_memory.md R60): the bytes written since the last reset, by strictly rising address. A byte
not listed reads as a free value (70_reset_and_hazards.md R262, log 3). -/
abbrev Memory := List Host.Cell

/-- The width of a host access (20_memory.md R66). -/
inductive Size where
  | one | two | four
deriving DecidableEq, Repr

/-- One step of one agent (20_memory.md R66, R72): the engine's, a host access, or the reset input. -/
inductive Action where
  | engine
  | read (offset : Word) (size : Size)
  | write (offset : Word) (size : Size) (value : Word)
  | reset
deriving DecidableEq, Repr

/-- The faults a command can record: the 16 pairs of class and sub-cause (60_exceptions.md R232). -/
inductive Cause where
  | illegalOpcode | reservedField | param | addr | overlap | modulusZero | overflow | underflow
  | cipherRange | outBuf | msgTooLong | frameTooSmall | noInverse | keyBufLen | text | primeSearch
deriving DecidableEq, Repr

/-- Why the machine would stop with no next state: never. The spec treats no behaviour of this hardware
as stuck (93_implementation_defined.md part 1), and what it calls a fault is a completed command with
a record (60_exceptions.md R233), which is a next state. So this type has no constructor (log 16). -/
inductive Fault
deriving DecidableEq, Repr

/-- Why a step would have no meaning. -/
inductive Refusal where
  /-- Raised by `exec` alone, for an instruction without a meaning yet; safe (the model stops). No arm of
  `exec` raises it: every command has its meaning. -/
  | notModelled (mnemonic : String)
deriving DecidableEq, Repr

/-- The engine. Fields up to `mem` are the spec's (10_state.md); the last four are the model's own. -/
structure State where
  /-- `W`, `MEMSIZE`, `TEXT_VALID` (R26, R27; 00_scope.md R5). -/
  inst : Instance
  /-- `B0` to `B7` (R20). -/
  b : RegFile
  /-- `ACC` (R21). -/
  acc : Nat
  /-- `SEED` (R22, R36). -/
  seed : Seed
  /-- `CMD` (R28). -/
  cmd : Word
  /-- `STATUS` (R29). -/
  status : Status
  /-- `IE` (R30). -/
  ie : IntEnable
  /-- `RESULT` (R31). -/
  result : Word
  /-- `AUX` (R32). -/
  aux : Word
  /-- `ERRINFO` (R33). -/
  errInfo : Word
  /-- `ERRCMD` (R34). -/
  errCmd : Word
  /-- `CMDSEQ` (R35). -/
  cmdSeq : Word
  /-- `ROUNDS` (R37). -/
  rounds : Word
  /-- `MAXTRY` (R38). -/
  maxTry : Word
  /-- `ADDR0` (R39). -/
  addr0 : Word
  /-- `LEN0` (R39). -/
  len0 : Word
  /-- `ADDR1` (R40). -/
  addr1 : Word
  /-- `LEN1` (R40). -/
  len1 : Word
  /-- `FBASE` (R41). -/
  fbase : Word
  /-- `FWIDTH` (R41). -/
  fwidth : Word
  /-- `FHEIGHT` (R41). -/
  fheight : Word
  /-- `FCHAN` (R42). -/
  fchan : Byte
  /-- `MEM` (R47). -/
  mem : Memory
  /-- The model's: how many resets were taken; selects the contents of unwritten bytes (log 3). -/
  memEpoch : Nat
  /-- The model's: how many unspecified read values were drawn (log 6). -/
  freeReads : Nat
  /-- The model's: what the last `HostRead` returned (log 5). -/
  portData : Word
  /-- The model's: the agents' pending steps, in order (log 4). -/
  schedule : List Action
deriving DecidableEq, Repr

/-- The reference instance: `W = 256` (00_scope.md R5); `MEMSIZE` and `TEXT_VALID` are the test
vectors' (95_test_vectors.md, Conventions; log 1, log 2). -/
def Instance.reference : Instance := { w := 256, memSize := 65536, text := .acceptAll }

/-- `STATUS` after reset (10_state.md R49). -/
def Status.clear : Status :=
  { busy := false, done := false, err := false, errOvf := false, haz := false, t := false }

/-- The eight registers at 0 (10_state.md R49). -/
def RegFile.zero : RegFile := ⟨0, 0, 0, 0, 0, 0, 0, 0⟩

/-- The engine right after reset (10_state.md R49, 70_reset_and_hazards.md R260): the reference instance,
nothing listed in `MEM`, nothing scheduled. -/
def State.reset : State where
  inst := Instance.reference
  b := RegFile.zero
  acc := 0
  seed := 42
  cmd := 0
  status := Status.clear
  ie := { done := false, err := false }
  result := 0
  aux := 0
  errInfo := 0
  errCmd := 0
  cmdSeq := 0
  rounds := 40
  maxTry := 65536
  addr0 := 0
  len0 := 0
  addr1 := 0
  len1 := 0
  fbase := 0
  fwidth := 0
  fheight := 0
  fchan := 3
  mem := []
  memEpoch := 0
  freeReads := 0
  portData := 0
  schedule := []

end Sys2Proof.Machine
end

