-- ==== Sys2Proof/Machine/Mem.lean ====
section
/-! DEFINITION. `MEM` byte by byte (20_memory.md R60, R61): the canonical list, reading and writing. -/

namespace Sys2Proof.Machine

/-- The byte listed at an address, if one is. -/
def Memory.lookup (m : Memory) (a : Nat) : Option Byte :=
  match m with
  | [] => none
  | c :: rest => if c.1 = a then some c.2 else Memory.lookup rest a

/-- Lists byte `v` at address `a`, keeping the addresses strictly rising. -/
def Memory.put (m : Memory) (a : Nat) (v : Byte) : Memory :=
  match m with
  | [] => [(a, v)]
  | c :: rest =>
    if a < c.1 then (a, v) :: c :: rest
    else if a = c.1 then (a, v) :: rest
    else c :: Memory.put rest a v

/-- Every listed address is at least `lo` and the addresses rise strictly. -/
def Memory.risesFrom (lo : Nat) (m : Memory) : Bool :=
  match m with
  | [] => true
  | c :: rest => decide (lo ≤ c.1) && Memory.risesFrom (c.1 + 1) rest

/-- The canonical form: strictly rising addresses. An address that is not listed has NO recorded byte, so
no entry repeats what an unlisted address holds (log 3). -/
def Memory.wf (m : Memory) : Bool := Memory.risesFrom 0 m

/-- `MEM[a]` (20_memory.md R60). A byte that nothing has written since the last reset reads as the free value
of that reset and address (70_reset_and_hazards.md R262, log 3). -/
def State.readByte (s : State) (a : Nat) : Byte :=
  (Memory.lookup s.mem a).getD (Config.memByte s.memEpoch a)

/-- `MemRead(addr, n)` (20_memory.md R61): the bytes from the lowest address up. -/
def State.readBytes (s : State) (a n : Nat) : List Byte :=
  match n with
  | 0 => []
  | k + 1 => s.readByte a :: s.readBytes (a + 1) k

/-- Lists the bytes of a string from address `a` up. -/
def Memory.putBytes (m : Memory) (a : Nat) (bytes : List Byte) : Memory :=
  match bytes with
  | [] => m
  | x :: rest => Memory.putBytes (Memory.put m a x) (a + 1) rest

/-- `MemWrite(addr, n, s)` for the string's own length `n` (20_memory.md R61). -/
def State.writeBytes (s : State) (a : Nat) (bytes : List Byte) : State :=
  { s with mem := Memory.putBytes s.mem a bytes }

end Sys2Proof.Machine
end

