-- ==== Sys2Proof/Machine/Ops.lean ====
section
/-! DEFINITION. The operations every command shares: registers, scalars, completion, recording a fault and clearing the record, issue, reset. -/

namespace Sys2Proof.Machine

/-- What a meaning answers. -/
abbrev Result := Host.Outcome State Fault Refusal

/-- The number register `r` holds. -/
def RegFile.get (f : RegFile) (r : Reg) : Nat :=
  match r with
  | .b0 => f.b0
  | .b1 => f.b1
  | .b2 => f.b2
  | .b3 => f.b3
  | .b4 => f.b4
  | .b5 => f.b5
  | .b6 => f.b6
  | .b7 => f.b7

/-- The register file with register `r` holding `v`. -/
def RegFile.set (f : RegFile) (r : Reg) (v : Nat) : RegFile :=
  match r with
  | .b0 => { f with b0 := v }
  | .b1 => { f with b1 := v }
  | .b2 => { f with b2 := v }
  | .b3 => { f with b3 := v }
  | .b4 => { f with b4 := v }
  | .b5 => { f with b5 := v }
  | .b6 => { f with b6 := v }
  | .b7 => { f with b7 := v }

/-- `K = 8*W`, the width of a register in bits (00_scope.md R5). -/
def State.k (s : State) : Nat := 8 * s.inst.w

/-- `B[r]` (00_scope.md R7). -/
def State.reg (s : State) (r : Reg) : Nat := s.b.get r

/-- `B[r] <- v` (00_scope.md R7). -/
def State.setReg (s : State) (r : Reg) (v : Nat) : State := { s with b := s.b.set r v }

/-- `ACC <- v`. -/
def State.setAcc (s : State) (v : Nat) : State := { s with acc := v }

/-- `SEED <- v`. -/
def State.setSeed (s : State) (v : Seed) : State := { s with seed := v }

/-- `RESULT <- v mod 2^32` (40_control_alu.md R109: the one reduction of a count). -/
def State.setResult (s : State) (v : Nat) : State := { s with result := BitVec.ofNat 32 v }

/-- `AUX <- v mod 2^32` (40_control_alu.md R109). -/
def State.setAux (s : State) (v : Nat) : State := { s with aux := BitVec.ofNat 32 v }

/-- `T <- v` (10_state.md R23). -/
def State.setT (s : State) (v : Bool) : State := { s with status := { s.status with t := v } }

/-- `ERRINFO.CLASS` of a fault (60_exceptions.md R231, R232). -/
def Cause.cls (c : Cause) : Nat :=
  match c with
  | .illegalOpcode => 1
  | .reservedField => 1
  | .param => 1
  | .addr => 1
  | .overlap => 1
  | .modulusZero => 1
  | .overflow => 1
  | .underflow => 1
  | .cipherRange => 1
  | .outBuf => 1
  | .msgTooLong => 2
  | .frameTooSmall => 2
  | .noInverse => 3
  | .keyBufLen => 4
  | .text => 4
  | .primeSearch => 5

/-- `ERRINFO.SUB` of a fault (60_exceptions.md R232). -/
def Cause.sub (c : Cause) : Nat :=
  match c with
  | .illegalOpcode => 1
  | .reservedField => 2
  | .param => 3
  | .addr => 4
  | .overlap => 5
  | .modulusZero => 6
  | .overflow => 7
  | .underflow => 8
  | .cipherRange => 9
  | .outBuf => 10
  | .msgTooLong => 1
  | .frameTooSmall => 2
  | .noInverse => 1
  | .keyBufLen => 1
  | .text => 2
  | .primeSearch => 1

/-- `CLASS | SUB << 8` (60_exceptions.md R232). -/
def Cause.info (c : Cause) : Word := BitVec.ofNat 32 c.cls ||| (BitVec.ofNat 32 c.sub <<< 8)

/-- The error record of a fault (60_exceptions.md R233): the first fault is kept, a later one sets `ERROVF`.
The word recorded is the command in flight, which stands in `CMD` (10_state.md R48, log 12). -/
def State.record (s : State) (c : Cause) : State :=
  if s.status.err then { s with status := { s.status with errOvf := true } }
  else { s with errInfo := c.info, errCmd := s.cmd, status := { s.status with err := true } }

/-- The end of every completion (30_encoding.md R86): `BUSY <- 0; DONE <- 1; CMDSEQ <- CMDSEQ + 1 mod 2^32`. -/
def State.retire (s : State) : State :=
  { s with status := { s.status with busy := false, done := true }, cmdSeq := s.cmdSeq + 1 }

/-- A command that succeeds, its writes already in `s` (30_encoding.md R86). -/
def complete (s : State) : Result := .next s.retire

/-- Taking a fault (60_exceptions.md R233): the record in place of the command's writes. `s` is the state at the
command's issue, but that `SEED` keeps the draws made (R235, 42_rng.md R143). -/
def raise (c : Cause) (s : State) : Result := .next (s.record c).retire

/-- The host's way back from a fault (60_exceptions.md R242): a write to `STATUS` clears each of `DONE`, `ERR`,
`ERROVF`, `HAZ` whose written bit is 1 (10_state.md R29). -/
def State.clearStatus (s : State) (v : Word) : State :=
  { s with status :=
      { s.status with
        done := s.status.done && !v.getLsbD 1
        err := s.status.err && !v.getLsbD 2
        errOvf := s.status.errOvf && !v.getLsbD 3
        haz := s.status.haz && !v.getLsbD 4 } }

/-- `STATUS.HAZ <- 1` (20_memory.md R68). -/
def State.setHaz (s : State) : State := { s with status := { s.status with haz := true } }

/-- Issue of the word `v` (10_state.md R44). -/
def State.issue (s : State) (v : Word) : State :=
  { s with cmd := v, status := { s.status with busy := true, done := false } }

/-- The reset step (70_reset_and_hazards.md R260): the values of 10_state.md R49, with new unspecified contents of
`MEM` (R262). The instance's parameters and the host's side of the port are not the engine's to reset (log 14). -/
def State.hardReset (s : State) : State :=
  { State.reset with
    inst := s.inst
    memEpoch := s.memEpoch + 1
    freeReads := s.freeReads
    portData := s.portData
    schedule := s.schedule }

end Sys2Proof.Machine
end

