-- ==== Sys2Proof/Machine/Operands.lean ====
section
/-! DEFINITION. The operands a command takes outside its word: windows (00_scope.md R13, 20_memory.md R63, R64), the frame and its slots (45_lsb_codec.md R190, R191), the round count, the attempt ceiling and the text predicate. -/

namespace Sys2Proof.Machine

/-- A window is inside `MEM`, the sum taken over the naturals (20_memory.md R63). -/
abbrev State.InsideMem (s : State) (a n : Nat) : Prop := a + n ≤ s.inst.memSize

/-- Two windows overlap (20_memory.md R64). -/
abbrev Overlap (a n b m : Nat) : Prop := 0 < n ∧ 0 < m ∧ a < b + m ∧ b < a + n

/-- Address of the input window (00_scope.md R13). -/
def State.inAddr (s : State) : Nat := s.addr0.toNat

/-- Length of the input window (00_scope.md R13). -/
def State.inLen (s : State) : Nat := s.len0.toNat

/-- Address of the output window (00_scope.md R13). -/
def State.outAddr (s : State) : Nat := s.addr1.toNat

/-- Capacity of the output window (00_scope.md R13). -/
def State.outLen (s : State) : Nat := s.len1.toNat

/-- Channels per pixel (10_state.md R42). -/
def State.chan (s : State) : Nat := s.fchan.toNat

/-- Pixels of the frame (45_lsb_codec.md R190). -/
def State.pixels (s : State) : Nat := s.fwidth.toNat * s.fheight.toNat

/-- Address of the frame window (45_lsb_codec.md R190). -/
def State.frameAddr (s : State) : Nat := s.fbase.toNat

/-- Length of the frame window, over the naturals (20_memory.md R63). -/
def State.frameLen (s : State) : Nat := s.pixels * s.chan

/-- `cap`: three stream bits a pixel (45_lsb_codec.md R190). -/
def State.cap (s : State) : Nat := s.pixels * 3

/-- `slot(i)`: the address whose bit 0 is stream bit `i` (45_lsb_codec.md R191). -/
def State.slot (s : State) (i : Nat) : Nat := s.frameAddr + i / 3 * s.chan + i % 3

/-- The bytes of the input window. -/
def State.inBytes (s : State) : List Byte := s.readBytes s.inAddr s.inLen

/-- The round count `k` (10_state.md R37). -/
def State.roundCount (s : State) : Nat := s.rounds.toNat

/-- The ceiling of one prime search: `MAXTRY`, or 2^32 when it is 0 (43_primality.md R160). -/
def State.tryLimit (s : State) : Nat := if s.maxTry.toNat = 0 then 2 ^ 32 else s.maxTry.toNat

/-- `TEXT_VALID(s)` of the instance (00_scope.md R5, log 2). -/
def TextPolicy.accepts (p : TextPolicy) (bytes : List Byte) : Bool :=
  match p with
  | .acceptAll => true
  | .ascii => bytes.all (fun x => decide (x.toNat < 128))
  | .other n => Config.textPredicate n bytes

end Sys2Proof.Machine
end

