-- ==== Sys2Proof/Machine/Codec.lean ====
section
/-! DEFINITION. The LSB image codec (45_lsb_codec.md): EMBED, EXTRACT. -/

namespace Sys2Proof.Machine

/-- Memory `m` with stream bits `i`, `i+1`, … written into bit 0 of their slots; the other bits of each slot are those
of `MEM` at completion, read before anything is written (45_lsb_codec.md R192, 30_encoding.md R86). -/
def State.embedMem (s : State) (m : Memory) (i : Nat) (bits : List Bool) : Memory :=
  match bits with
  | [] => m
  | v :: rest => s.embedMem (Memory.put m (s.slot i) (setLsb (s.readByte (s.slot i)) v)) (i + 1) rest

/-- The stream written into the frame from slot 0 on (45_lsb_codec.md R192). -/
def State.embedStream (s : State) (bits : List Bool) : State := { s with mem := s.embedMem s.mem 0 bits }

/-- The LSB sequence `u[i], …` of `n` slots of the frame (45_lsb_codec.md R193). -/
def State.lsbFrom (s : State) (i n : Nat) : List Bool :=
  match n with
  | 0 => []
  | k + 1 => (s.readByte (s.slot i)).getLsbD 0 :: s.lsbFrom (i + 1) k

/-- EMBED (45_lsb_codec.md R192). -/
def execEmbed (s : State) : Result :=
  if s.chan < 3 then raise .param s
  else if ¬ s.InsideMem s.frameAddr s.frameLen then raise .addr s
  else if ¬ s.InsideMem s.inAddr s.inLen then raise .addr s
  else if Overlap s.inAddr s.inLen s.frameAddr s.frameLen then raise .overlap s
  else if s.cap < 8 * s.inLen + 16 then raise .frameTooSmall s
  else complete ((s.embedStream (bitstream s.inBytes)).setResult (8 * s.inLen + 16))

/-- EXTRACT (45_lsb_codec.md R193). -/
def execExtract (s : State) : Result :=
  if s.chan < 3 then raise .param s
  else if ¬ s.InsideMem s.frameAddr s.frameLen then raise .addr s
  else if ¬ s.InsideMem s.outAddr s.outLen then raise .addr s
  else if Overlap s.outAddr s.outLen s.frameAddr s.frameLen then raise .overlap s
  else
    let u := s.lsbFrom 0 s.cap
    match findTerminator u 0 with
    | none => complete (((s.setT false).setResult 0).setAux 0)
    | some nb =>
      if s.outLen < nb / 8 then raise .outBuf s
      else
        complete ((((s.writeBytes s.outAddr (bytesOf (u.take nb))).setT true).setResult (nb / 8)).setAux (nb % 8))

end Sys2Proof.Machine
end

