-- ==== Sys2Proof/Machine/Flags.lean ====
section
/-! DEFINITION. The flag `T` and the scalars that go with it, the words `STATUS`, `IE` and `CFG` read as, and the interrupt output. -/

namespace Sys2Proof.Machine

/-- A truth value as the number 1 or 0. -/
def bit (v : Bool) : Nat := if v then 1 else 0

/-- `T` and `RESULT` of a predicate: 1 and 1 when it holds, 0 and 0 when not (43_primality.md R156, R157). -/
def State.setVerdict (s : State) (v : Bool) : State := (s.setT v).setResult (bit v)

/-- `RESULT` of CMP: 0 equal, 1 below, 2 above (40_control_alu.md R104). -/
def cmpCode (x y : Nat) : Nat := if x = y then 0 else if x < y then 1 else 2

/-- `T` of CMP: 1 when the operands are equal (40_control_alu.md R104). -/
def cmpFlag (x y : Nat) : Bool := decide (x = y)

/-- What `STATUS` reads as (10_state.md R29). -/
def Status.word (f : Status) : Word :=
  BitVec.ofNat 32
    (bit f.busy + 2 * bit f.done + 4 * bit f.err + 8 * bit f.errOvf + 16 * bit f.haz + 32 * bit f.t)

/-- What `IE` reads as (10_state.md R30). -/
def IntEnable.word (f : IntEnable) : Word := BitVec.ofNat 32 (bit f.done + 2 * bit f.err)

/-- What `CFG` reads as (10_state.md R26). -/
def Instance.cfgWord (f : Instance) : Word := Config.cfgBase + BitVec.ofNat 32 f.w

/-- The interrupt output, a level (60_exceptions.md R239). -/
def State.irq (s : State) : Bool := (s.ie.done && s.status.done) || (s.ie.err && s.status.err)

end Sys2Proof.Machine
end

