-- ==== Sys2Proof/Machine/Lcg.lean ====
section
/-! DEFINITION. One draw of the generator (42_rng.md R140). -/

namespace Sys2Proof.Machine

/-- The state after a draw, which is also the draw's value; product and sum over the naturals (42_rng.md R140).
The constants stand first in the sum and in the product: Lean's kernel adds and multiplies by recursion on the second
operand and must not count a constant down. -/
def lcgNext (s : Seed) : Seed :=
  BitVec.ofNat 31 ((Config.lcgC + Config.lcgA * s.toNat) % Config.lcgM)

end Sys2Proof.Machine
end

