-- ==== Sys2Proof/Machine/MillerRabin.lean ====
section
/-! DEFINITION. The Miller-Rabin test, the candidate and the prime search as functions of the generator's state (43_primality.md R150 to R155, R158, R160). -/

namespace Sys2Proof.Machine

/-- Takes factors of two out of `m`, at most `turns` of them: `(r, s)` with `m = 2^r * s`
(43_primality.md R152). -/
def splitTwos (turns m : Nat) : Nat × Nat :=
  match turns with
  | 0 => (0, m)
  | k + 1 =>
    if m % 2 = 0 then
      let rs := splitTwos k (m / 2)
      (rs.1 + 1, rs.2)
    else (0, m)

/-- `r` and `s` of an odd `n > 3`: `n - 1 = 2^r * s`, `s` odd (43_primality.md R152). -/
def decompose (n : Nat) : Nat × Nat := splitTwos (bitlen (n - 1)) (n - 1)

/-- Squares `x` up to `turns` times, looking for `n - 1` (43_primality.md R154). -/
def seekMinusOne (turns x n : Nat) : Bool :=
  match turns with
  | 0 => false
  | k + 1 => if x * x % n = n - 1 then true else seekMinusOne k (x * x % n) n

/-- `Round(n, a)` passes (43_primality.md R154). -/
def roundPasses (n a : Nat) : Bool :=
  let rs := decompose n
  let x := powMod a rs.2 n
  if x = 1 ∨ x = n - 1 then true else seekMinusOne (rs.1 - 1) x n

/-- What a test yields: the verdict, the draws made, the generator's state after them. -/
structure Verdict where
  prime : Bool
  draws : Nat
  seed : Seed
deriving DecidableEq, Repr

/-- The base a draw gives (43_primality.md R153). -/
def witnessOf (n : Nat) (x : Seed) : Nat := x.toNat % (n - 2) + 2

/-- The rounds that are left, for an odd `n > 3`; `draws` were made before (43_primality.md R155). -/
def runRounds (rounds n draws : Nat) (seed : Seed) : Verdict :=
  match rounds with
  | 0 => { prime := true, draws := draws, seed := seed }
  | k + 1 =>
    if roundPasses n (witnessOf n (lcgNext seed)) then runRounds k n (draws + 1) (lcgNext seed)
    else { prime := false, draws := draws + 1, seed := lcgNext seed }

/-- `MR(n)` with `k` rounds: small and even cases first, without a draw (43_primality.md R150, R151, R155). -/
def millerRabin (k n : Nat) (seed : Seed) : Verdict :=
  if n ≤ 1 then { prime := false, draws := 0, seed := seed }
  else if n = 2 ∨ n = 3 then { prime := true, draws := 0, seed := seed }
  else if n % 2 = 0 then { prime := false, draws := 0, seed := seed }
  else runRounds k n 0 seed

/-- The candidate of bit length `b` that the draw `x` gives (43_primality.md R158). -/
def candidateOf (b : Nat) (x : Seed) : Nat := (x.toNat % 2 ^ b) ||| 2 ^ (b - 1) ||| 1

/-- What a prime search yields: a candidate the test passed with the number of attempts, or nothing within the
ceiling; and the generator's state after the last draw. -/
inductive SearchResult where
  | found (prime attempts : Nat) (seed : Seed)
  | exhausted (seed : Seed)
deriving DecidableEq, Repr

/-- The attempts that are left of `Search(b)` with `k` rounds a test; `tried` were made before
(43_primality.md R160). -/
def search (attempts b k tried : Nat) (seed : Seed) : SearchResult :=
  match attempts with
  | 0 => .exhausted seed
  | n + 1 =>
    let c := candidateOf b (lcgNext seed)
    let v := millerRabin k c (lcgNext seed)
    if v.prime then .found c (tried + 1) v.seed else search n b k (tried + 1) v.seed

end Sys2Proof.Machine
end

