-- ==== Sys2Proof/Machine/Generator.lean ====
section
/-! DEFINITION. The generator and primality commands (42_rng.md, 43_primality.md): RNGNEXT, MRWIT, MRTEST, PRIMECAND, PRIMEGEN. -/

namespace Sys2Proof.Machine

/-- RNGNEXT (42_rng.md R141). -/
def execRngnext (s : State) : Result :=
  complete ((s.setSeed (lcgNext s.seed)).setResult (lcgNext s.seed).toNat)

/-- MRWIT (43_primality.md R156): the number under test, then the base, are checked. -/
def execMrwit (ra rm : Reg) (s : State) : Result :=
  if s.reg rm ≤ 3 ∨ s.reg rm % 2 = 0 then raise .param s
  else if s.reg ra < 2 ∨ s.reg rm - 1 < s.reg ra then raise .param s
  else complete (s.setVerdict (roundPasses (s.reg rm) (s.reg ra)))

/-- MRTEST (43_primality.md R157). -/
def execMrtest (rm : Reg) (s : State) : Result :=
  if s.roundCount = 0 then raise .param s
  else
    let v := millerRabin s.roundCount (s.reg rm) s.seed
    complete (((s.setSeed v.seed).setVerdict v.prime).setAux v.draws)

/-- PRIMECAND (43_primality.md R159). -/
def execPrimecand (rd : Reg) (imm20 : Nat) (s : State) : Result :=
  if imm20 < 2 ∨ s.k < imm20 then raise .param s
  else
    complete (((s.setSeed (lcgNext s.seed)).setReg rd (candidateOf imm20 (lcgNext s.seed))).setResult
      (lcgNext s.seed).toNat)

/-- PRIMEGEN (43_primality.md R161); a failed search keeps its draws (42_rng.md R143). -/
def execPrimegen (rd : Reg) (imm20 : Nat) (s : State) : Result :=
  if imm20 < 2 ∨ s.k < imm20 then raise .param s
  else if s.roundCount = 0 then raise .param s
  else
    match search s.tryLimit imm20 s.roundCount 0 s.seed with
    | .exhausted sd => raise .primeSearch (s.setSeed sd)
    | .found c t sd => complete (((s.setSeed sd).setReg rd c).setResult t)

end Sys2Proof.Machine
end

