-- ==== Sys2Proof/Machine/Housekeeping.lean ====
section
/-! DEFINITION. The housekeeping and plain big-integer commands (40_control_alu.md): NOP, ZEROIZE, LDI, MOV, CMP, BITLEN, ADD, SUB, MOVA. -/

namespace Sys2Proof.Machine

/-- NOP (40_control_alu.md R100). -/
def execNop (s : State) : Result := complete s

/-- ZEROIZE (40_control_alu.md R101). -/
def execZeroize (s : State) : Result :=
  complete (((({ s with b := RegFile.zero }).setAcc 0).setResult 0).setAux 0 |>.setT false)

/-- LDI (40_control_alu.md R102). -/
def execLdi (rd : Reg) (imm20 : Nat) (s : State) : Result := complete (s.setReg rd imm20)

/-- MOV (40_control_alu.md R103). -/
def execMov (rd ra : Reg) (s : State) : Result := complete (s.setReg rd (s.reg ra))

/-- CMP (40_control_alu.md R104). -/
def execCmp (ra rb : Reg) (s : State) : Result :=
  complete ((s.setT (cmpFlag (s.reg ra) (s.reg rb))).setResult (cmpCode (s.reg ra) (s.reg rb)))

/-- BITLEN (40_control_alu.md R105). -/
def execBitlen (ra : Reg) (s : State) : Result := complete (s.setResult (bitlen (s.reg ra)))

/-- ADD (40_control_alu.md R106). -/
def execAdd (rd ra rb : Reg) (s : State) : Result :=
  if 2 ^ s.k ≤ s.reg ra + s.reg rb then raise .overflow s
  else complete (s.setReg rd (s.reg ra + s.reg rb))

/-- SUB (40_control_alu.md R107). -/
def execSub (rd ra rb : Reg) (s : State) : Result :=
  if s.reg ra < s.reg rb then raise .underflow s
  else complete (s.setReg rd (s.reg ra - s.reg rb))

/-- MOVA (40_control_alu.md R108). -/
def execMova (rd : Reg) (s : State) : Result :=
  if 2 ^ s.k ≤ s.acc then raise .overflow s else complete (s.setReg rd s.acc)

end Sys2Proof.Machine
end

