-- ==== Sys2Proof/Machine/Modular.lean ====
section
/-! DEFINITION. The multiplier, the reducer, modular multiplication, exponentiation and inversion (41_multiplier_reducer.md): MUL, RED, MODMUL, MODEXP, MODINV. -/

namespace Sys2Proof.Machine

/-- MUL (41_multiplier_reducer.md R120). -/
def execMul (ra rb : Reg) (s : State) : Result := complete (s.setAcc (s.reg ra * s.reg rb))

/-- RED (41_multiplier_reducer.md R121). -/
def execRed (rd rm : Reg) (s : State) : Result :=
  if s.reg rm = 0 then raise .modulusZero s else complete (s.setReg rd (s.acc % s.reg rm))

/-- MODMUL (41_multiplier_reducer.md R122). -/
def execModmul (rd ra rb rm : Reg) (s : State) : Result :=
  if s.reg rm = 0 then raise .modulusZero s
  else complete ((s.setAcc (s.reg ra * s.reg rb)).setReg rd (s.reg ra * s.reg rb % s.reg rm))

/-- MODEXP (41_multiplier_reducer.md R123, R124). -/
def execModexp (rd ra rb rm : Reg) (s : State) : Result :=
  if s.reg rm = 0 then raise .modulusZero s
  else complete (s.setReg rd (powMod (s.reg ra) (s.reg rb) (s.reg rm)))

/-- MODINV (41_multiplier_reducer.md R125, R126). -/
def execModinv (rd ra rm : Reg) (s : State) : Result :=
  if s.reg rm = 0 then raise .modulusZero s
  else
    match invMod (s.reg ra) (s.reg rm) with
    | none => raise .noInverse s
    | some d => complete (s.setReg rd d)

end Sys2Proof.Machine
end

