-- ==== Sys2Proof/Machine/Rsa.lean ====
section
/-! DEFINITION. RSA key generation, encryption and decryption (44_rsa.md): KEYGEN, RSAENC, RSADEC. -/

namespace Sys2Proof.Machine

/-- The six writes and two counts of KEYGEN (44_rsa.md R171). -/
def State.writeKey (s : State) (d p tp q tq : Nat) : State :=
  ((((((((s.setReg .b0 Config.eFixed).setReg .b1 d).setReg .b2 (p * q)).setReg .b3 p).setReg .b4 q).setReg .b5
    ((p - 1) * (q - 1))).setResult tp).setAux tq)

/-- KEYGEN (44_rsa.md R171): the second search goes on from the generator's state the first one left
(42_rng.md R144); a fault after a draw keeps the draws (R143). -/
def execKeygen (imm20 : Nat) (s : State) : Result :=
  if imm20 / 2 < 2 ∨ s.k / 2 < imm20 / 2 then raise .param s
  else if s.roundCount = 0 then raise .param s
  else
    match search s.tryLimit (imm20 / 2) s.roundCount 0 s.seed with
    | .exhausted sd => raise .primeSearch (s.setSeed sd)
    | .found p tp sdp =>
      match search s.tryLimit (imm20 / 2) s.roundCount 0 sdp with
      | .exhausted sd => raise .primeSearch (s.setSeed sd)
      | .found q tq sdq =>
        match invMod Config.eFixed ((p - 1) * (q - 1)) with
        | none => raise .noInverse (s.setSeed sdq)
        | some d => complete ((s.setSeed sdq).writeKey d p tp q tq)

/-- RSAENC (44_rsa.md R172): the bit-length check is the one check on the message (90_conflicts.md C1). -/
def execRsaenc (rd rb rm : Reg) (s : State) : Result :=
  if ¬ s.InsideMem s.inAddr s.inLen then raise .addr s
  else if ¬ bitlen (be s.inBytes) < bitlen (s.reg rm) then raise .msgTooLong s
  else complete (s.setReg rd (powMod (be s.inBytes) (s.reg rb) (s.reg rm)))

/-- RSADEC (44_rsa.md R173). -/
def execRsadec (ra rb rm : Reg) (s : State) : Result :=
  if ¬ s.InsideMem s.outAddr s.outLen then raise .addr s
  else if ¬ s.reg ra < s.reg rm then raise .cipherRange s
  else
    let bytes := minbytes (powMod (s.reg ra) (s.reg rb) (s.reg rm))
    if s.outLen < bytes.length then raise .outBuf s
    else if ¬ s.inst.text.accepts bytes then raise .text s
    else complete ((s.writeBytes s.outAddr bytes).setResult bytes.length)

end Sys2Proof.Machine
end

