-- ==== Sys2Proof/Machine/Serializer.lean ====
section
/-! DEFINITION. The key serializer and the big-integer loads and stores (46_key_serializer.md): LDF, STF, PACK, UNPACK, LDM, STM. -/

namespace Sys2Proof.Machine

/-- LDF (46_key_serializer.md R211). -/
def execLdf (rd : Reg) (s : State) : Result :=
  if ¬ s.InsideMem s.inAddr s.inLen then raise .addr s
  else if s.inLen ≠ s.inst.w then raise .keyBufLen s
  else complete (s.setReg rd (be (s.readBytes s.inAddr s.inst.w)))

/-- STF (46_key_serializer.md R212). -/
def execStf (ra : Reg) (s : State) : Result :=
  if ¬ s.InsideMem s.outAddr s.outLen then raise .addr s
  else if s.outLen < s.inst.w then raise .outBuf s
  else complete ((s.writeBytes s.outAddr (beBytes s.inst.w (s.reg ra))).setResult s.inst.w)

/-- PACK (46_key_serializer.md R213). -/
def execPack (ra rb : Reg) (s : State) : Result :=
  if ¬ s.InsideMem s.outAddr s.outLen then raise .addr s
  else if s.outLen < 2 * s.inst.w then raise .outBuf s
  else
    complete ((s.writeBytes s.outAddr (beBytes s.inst.w (s.reg ra) ++ beBytes s.inst.w (s.reg rb))).setResult
      (2 * s.inst.w))

/-- UNPACK (46_key_serializer.md R214). -/
def execUnpack (rd rb : Reg) (s : State) : Result :=
  if rd = rb then raise .param s
  else if ¬ s.InsideMem s.inAddr s.inLen then raise .addr s
  else if s.inLen ≠ 2 * s.inst.w then raise .keyBufLen s
  else
    complete ((s.setReg rd (be (s.readBytes s.inAddr s.inst.w))).setReg rb
      (be (s.readBytes (s.inAddr + s.inst.w) s.inst.w)))

/-- LDM (46_key_serializer.md R215). -/
def execLdm (rd : Reg) (s : State) : Result :=
  if ¬ s.InsideMem s.inAddr s.inLen then raise .addr s
  else if 2 ^ s.k ≤ be s.inBytes then raise .overflow s
  else complete (s.setReg rd (be s.inBytes))

/-- STM (46_key_serializer.md R216). -/
def execStm (ra : Reg) (s : State) : Result :=
  if ¬ s.InsideMem s.outAddr s.outLen then raise .addr s
  else if s.outLen < (minbytes (s.reg ra)).length then raise .outBuf s
  else complete ((s.writeBytes s.outAddr (minbytes (s.reg ra))).setResult (minbytes (s.reg ra)).length)

end Sys2Proof.Machine
end

