-- ==== Sys2Proof/Machine/Dispatch.lean ====
section
/-! DEFINITION. One arm per command: the completion step of a decoded command (30_encoding.md R86). -/

namespace Sys2Proof.Machine

def exec (i : Instr) (s : State) : Host.Outcome State Fault Refusal :=
  match i with
  | .nop => Sys2Proof.Machine.execNop s
  | .zeroize => Sys2Proof.Machine.execZeroize s
  | .ldi rd imm20 => Sys2Proof.Machine.execLdi rd imm20 s
  | .mov rd ra => Sys2Proof.Machine.execMov rd ra s
  | .cmp ra rb => Sys2Proof.Machine.execCmp ra rb s
  | .bitlen ra => Sys2Proof.Machine.execBitlen ra s
  | .add rd ra rb => Sys2Proof.Machine.execAdd rd ra rb s
  | .sub rd ra rb => Sys2Proof.Machine.execSub rd ra rb s
  | .mova rd => Sys2Proof.Machine.execMova rd s
  | .mul ra rb => Sys2Proof.Machine.execMul ra rb s
  | .red rd rm => Sys2Proof.Machine.execRed rd rm s
  | .modmul rd ra rb rm => Sys2Proof.Machine.execModmul rd ra rb rm s
  | .modexp rd ra rb rm => Sys2Proof.Machine.execModexp rd ra rb rm s
  | .modinv rd ra rm => Sys2Proof.Machine.execModinv rd ra rm s
  | .rngnext => Sys2Proof.Machine.execRngnext s
  | .mrwit ra rm => Sys2Proof.Machine.execMrwit ra rm s
  | .mrtest rm => Sys2Proof.Machine.execMrtest rm s
  | .primecand rd imm20 => Sys2Proof.Machine.execPrimecand rd imm20 s
  | .primegen rd imm20 => Sys2Proof.Machine.execPrimegen rd imm20 s
  | .keygen imm20 => Sys2Proof.Machine.execKeygen imm20 s
  | .rsaenc rd rb rm => Sys2Proof.Machine.execRsaenc rd rb rm s
  | .rsadec ra rb rm => Sys2Proof.Machine.execRsadec ra rb rm s
  | .embed => Sys2Proof.Machine.execEmbed s
  | .extract => Sys2Proof.Machine.execExtract s
  | .ldf rd => Sys2Proof.Machine.execLdf rd s
  | .stf ra => Sys2Proof.Machine.execStf ra s
  | .pack ra rb => Sys2Proof.Machine.execPack ra rb s
  | .unpack rd rb => Sys2Proof.Machine.execUnpack rd rb s
  | .ldm rd => Sys2Proof.Machine.execLdm rd s
  | .stm ra => Sys2Proof.Machine.execStm ra s

end Sys2Proof.Machine
end

