-- ==== Sys2Proof/Machine/Port.lean ====
section
/-! DEFINITION. The slave port: the CSR region and the MEM aperture (10_state.md R24 to R44, 20_memory.md R66 to R68). -/

namespace Sys2Proof.Machine

/-- The control and status registers (10_state.md R24). -/
inductive Csr where
  | id | cfg | memSize | cmd | status | ie | result | aux | errInfo | errCmd | cmdSeq
  | seed | rounds | maxTry | addr0 | len0 | addr1 | len1 | fbase | fwidth | fheight | fchan
deriving DecidableEq, Repr

/-- The register at an offset of the port (10_state.md R24; 20_memory.md R66: bits 30:12 must be 0). An offset that
is no multiple of 4 is no offset of the table. -/
def csrAt (offset : Word) : Option Csr :=
  match offset.toNat with
  | 0x000 => some .id
  | 0x004 => some .cfg
  | 0x008 => some .memSize
  | 0x00C => some .cmd
  | 0x010 => some .status
  | 0x014 => some .ie
  | 0x018 => some .result
  | 0x01C => some .aux
  | 0x020 => some .errInfo
  | 0x024 => some .errCmd
  | 0x028 => some .cmdSeq
  | 0x030 => some .seed
  | 0x034 => some .rounds
  | 0x038 => some .maxTry
  | 0x040 => some .addr0
  | 0x044 => some .len0
  | 0x048 => some .addr1
  | 0x04C => some .len1
  | 0x050 => some .fbase
  | 0x054 => some .fwidth
  | 0x058 => some .fheight
  | 0x05C => some .fchan
  | _ => none

/-- What a register reads as (10_state.md R25 to R42). No read has a side effect (R43). -/
def State.csrValue (s : State) (c : Csr) : Word :=
  match c with
  | .id => Config.idValue
  | .cfg => s.inst.cfgWord
  | .memSize => BitVec.ofNat 32 s.inst.memSize
  | .cmd => s.cmd
  | .status => s.status.word
  | .ie => s.ie.word
  | .result => s.result
  | .aux => s.aux
  | .errInfo => s.errInfo
  | .errCmd => s.errCmd
  | .cmdSeq => s.cmdSeq
  | .seed => s.seed.setWidth 32
  | .rounds => s.rounds
  | .maxTry => s.maxTry
  | .addr0 => s.addr0
  | .len0 => s.len0
  | .addr1 => s.addr1
  | .len1 => s.len1
  | .fbase => s.fbase
  | .fwidth => s.fwidth
  | .fheight => s.fheight
  | .fchan => s.fchan.setWidth 32

/-- A host write to a register while the engine is idle (10_state.md R25 to R44): a read-only register ignores it, a
write to `CMD` issues. `STATUS` and `IE` are written whether or not the engine is BUSY. -/
def State.csrStore (s : State) (c : Csr) (v : Word) : State :=
  match c with
  | .id => s
  | .cfg => s
  | .memSize => s
  | .cmd => s.issue v
  | .status => s.clearStatus v
  | .ie => { s with ie := { done := v.getLsbD 0, err := v.getLsbD 1 } }
  | .result => s
  | .aux => s
  | .errInfo => s
  | .errCmd => s
  | .cmdSeq => s
  | .seed => { s with seed := v.setWidth 31 }
  | .rounds => { s with rounds := v }
  | .maxTry => { s with maxTry := v }
  | .addr0 => { s with addr0 := v }
  | .len0 => { s with len0 := v }
  | .addr1 => { s with addr1 := v }
  | .len1 => { s with len1 := v }
  | .fbase => { s with fbase := v }
  | .fwidth => { s with fwidth := v }
  | .fheight => { s with fheight := v }
  | .fchan => { s with fchan := v.setWidth 8 }

/-- A host write to a register: while BUSY one to any register but `STATUS` and `IE` is refused and sets `HAZ`
(10_state.md R43, 20_memory.md R68; log 8 for read-only registers). -/
def State.csrWrite (s : State) (c : Csr) (v : Word) : State :=
  if s.status.busy ∧ c ≠ .status ∧ c ≠ .ie then s.setHaz else s.csrStore c v

/-- The bytes of an access (20_memory.md R66). -/
def Size.bytes (z : Size) : Nat :=
  match z with
  | .one => 1
  | .two => 2
  | .four => 4

/-- The offset lies in the MEM aperture (20_memory.md R66). -/
def inAperture (offset : Word) : Bool := offset.getLsbD 31

/-- The byte address of an aperture offset, bits 30:0 (20_memory.md R66). -/
def apertureAddr (offset : Word) : Nat := offset.toNat % 2147483648

/-- An aperture access is legal: naturally aligned and inside `MEM` (20_memory.md R67). -/
abbrev State.LegalAccess (s : State) (a : Nat) (z : Size) : Prop :=
  a % z.bytes = 0 ∧ a + z.bytes ≤ s.inst.memSize

/-- The value of a byte string in little-endian lanes (20_memory.md R67). -/
def lanesValue (bytes : List Byte) : Nat :=
  match bytes with
  | [] => 0
  | x :: rest => x.toNat + 256 * lanesValue rest

/-- The bytes of the low `n` lanes of a value, lowest lane first (20_memory.md R67). -/
def lanesOf (n v : Nat) : List Byte :=
  match n with
  | 0 => []
  | k + 1 => BitVec.ofNat 8 v :: lanesOf k (v / 256)

/-- A read of the MEM aperture (20_memory.md R67, R68). While BUSY it is refused: any value of the access size, and
`HAZ` (log 6, log 7). -/
def State.apertureRead (s : State) (a : Nat) (z : Size) : State :=
  if s.status.busy then
    { s.setHaz with
      portData := BitVec.ofNat 32 ((Config.busyRead s.freeReads).toNat % 256 ^ z.bytes)
      freeReads := s.freeReads + 1 }
  else if s.LegalAccess a z then { s with portData := BitVec.ofNat 32 (lanesValue (s.readBytes a z.bytes)) }
  else { s with portData := 0 }

/-- A write to the MEM aperture (20_memory.md R67, R68). -/
def State.apertureWrite (s : State) (a : Nat) (z : Size) (v : Word) : State :=
  if s.status.busy then s.setHaz
  else if s.LegalAccess a z then s.writeBytes a (lanesOf z.bytes v.toNat)
  else s

/-- A read in the CSR region: 32 bits wide at a register's offset, else 0 (10_state.md R43). -/
def State.csrAccessValue (s : State) (offset : Word) (z : Size) : Word :=
  match csrAt offset, z with
  | some c, .four => s.csrValue c
  | some _, .one => 0
  | some _, .two => 0
  | none, _ => 0

/-- `HostRead(offset, size)` (20_memory.md R66); the value returned stands in `portData` (log 5). -/
def State.hostRead (s : State) (offset : Word) (z : Size) : State :=
  if inAperture offset then s.apertureRead (apertureAddr offset) z
  else { s with portData := s.csrAccessValue offset z }

/-- `HostWrite(offset, size, value)` (20_memory.md R66). A write in the CSR region of another width than 32 bits or at an
offset that holds no register is ignored (10_state.md R43). -/
def State.hostWrite (s : State) (offset : Word) (z : Size) (v : Word) : State :=
  if inAperture offset then s.apertureWrite (apertureAddr offset) z v
  else
    match csrAt offset, z with
    | some c, .four => s.csrWrite c v
    | some _, .one => s
    | some _, .two => s
    | none, _ => s

end Sys2Proof.Machine
end

