-- ==== Sys2Proof/Machine/Engine.lean ====
section
/-! DEFINITION. The steps of the agents: the engine's completion (30_encoding.md R86 to R88), the host's accesses, reset. -/

namespace Sys2Proof.Machine

/-- The completion step of the command in flight (30_encoding.md R86): the word is in `CMD` (10_state.md R48). -/
def completion (s : State) : Result :=
  match decode s.cmd with
  | .ok i => exec i s
  | .error .illegalOpcode => raise .illegalOpcode s
  | .error .reservedField => raise .reservedField s

/-- The engine's turn: it owes a completion while BUSY (10_state.md R44) and has no other step
(00_scope.md R4); idle, nothing changes. -/
def engineTurn (s : State) : Result := if s.status.busy then completion s else .next s

/-- One step of one agent (20_memory.md R72). -/
def act (a : Action) (s : State) : Result :=
  match a with
  | .engine => engineTurn s
  | .read offset z => .next (s.hostRead offset z)
  | .write offset z v => .next (s.hostWrite offset z v)
  | .reset => .next s.hardReset

/-- The next scheduled step; with nothing scheduled the engine has its turn, so that every issued command
completes (70_reset_and_hazards.md R276, log 4). -/
def nextAct (s : State) : Result :=
  match s.schedule with
  | [] => engineTurn s
  | a :: rest => act a { s with schedule := rest }

/-- The word `v` issued (10_state.md R44), with the engine's turn next. -/
def State.issueNow (s : State) (v : Word) : State :=
  { s.issue v with schedule := .engine :: s.schedule }

end Sys2Proof.Machine
end

