-- ==== Sys2Proof/Machine/Step.lean ====
section
/-! DEFINITION. One step of the machine, and how the host places a command for the next step. -/

namespace Sys2Proof.Machine

/-- One step: the next of the agents' steps (20_memory.md R72). -/
def step (s : State) : Host.Outcome State Fault Refusal := nextAct s

/-- The state in which the command of the given bits is in flight and the engine moves next. The engine does not
fetch: a command word is what the host writes to `CMD` (10_state.md R44, R46), so this is that write (log 9). -/
def State.withFetchWord (s : State) (nbits w : Nat) : State :=
  s.issueNow (BitVec.ofNat 32 (w % 2 ^ nbits))

end Sys2Proof.Machine
end

