-- ==== Sys2Proof/Safety.lean ====
section
/-! DEFINITION. The terms statements use: the invariant of the engine, what of a state a command may change, how a command ends, and the number-theoretic facts the rules name. -/

namespace Sys2Proof.Machine

/-- What every reachable state satisfies: the parameters are in their ranges (00_scope.md R5), every register fits its width
(10_state.md R20, R21), `MEM` is in canonical form and inside its size (20_memory.md R60, R61), `ERRINFO` holds 0 or a code
of the table and a code whenever `ERR` is set (60_exceptions.md R231 to R233), and `DONE` is 0 while BUSY (10_state.md R29, R44). -/
structure State.Inv (s : State) : Prop where
  w_low : 4 ≤ s.inst.w
  w_high : s.inst.w ≤ 65535
  mem_low : 1 ≤ s.inst.memSize
  mem_high : s.inst.memSize ≤ 2 ^ 31
  regs_fit : ∀ r, s.reg r < 2 ^ (8 * s.inst.w)
  acc_fits : s.acc < 2 ^ (2 * (8 * s.inst.w))
  mem_wf : Memory.wf s.mem = true
  mem_inside : ∀ c ∈ s.mem, c.1 < s.inst.memSize
  info_known : s.errInfo = 0 ∨ ∃ c : Cause, s.errInfo = c.info
  err_known : s.status.err = true → ∃ c : Cause, s.errInfo = c.info
  busy_not_done : s.status.busy = true → s.status.done = false

/-- The part of the state a command's own writes may reach (10_state.md R20 to R23, R31, R32, R47): two states with the same
view agree on every register, on `ACC`, `SEED`, `T`, `RESULT`, `AUX` and on every byte of `MEM`. -/
structure View where
  regs : Reg → Nat
  acc : Nat
  seed : Seed
  t : Bool
  result : Word
  aux : Word
  mem : Nat → Byte

/-- The view of a state. -/
def State.view (s : State) : View :=
  { regs := s.reg, acc := s.acc, seed := s.seed, t := s.status.t, result := s.result, aux := s.aux, mem := s.readByte }

/-- The view with register `r` holding `x`, every other register as before. -/
def View.put (v : View) (r : Reg) (x : Nat) : View := { v with regs := fun q => if q = r then x else v.regs q }

/-- The view with the bytes stored from address `a` up, every other byte of `MEM` as before. -/
def View.store (v : View) (a : Nat) (bytes : List Byte) : View :=
  { v with mem := fun x => if a ≤ x ∧ x < a + bytes.length then bytes.getD (x - a) 0 else v.mem x }

/-- What no command writes: the parameters, `CMD`, `IE`, the registers the host sets, and the model's own fields. -/
def State.HostSideKept (s t : State) : Prop :=
  t.inst = s.inst ∧ t.cmd = s.cmd ∧ t.ie = s.ie ∧ t.rounds = s.rounds ∧ t.maxTry = s.maxTry ∧
  t.addr0 = s.addr0 ∧ t.len0 = s.len0 ∧ t.addr1 = s.addr1 ∧ t.len1 = s.len1 ∧
  t.fbase = s.fbase ∧ t.fwidth = s.fwidth ∧ t.fheight = s.fheight ∧ t.fchan = s.fchan ∧
  t.memEpoch = s.memEpoch ∧ t.freeReads = s.freeReads ∧ t.portData = s.portData ∧ t.schedule = s.schedule

/-- The end of every completion (30_encoding.md R86): `BUSY` 0, `DONE` 1, `CMDSEQ` one higher modulo 2^32; `HAZ` is kept. -/
def State.Retired (s t : State) : Prop :=
  t.status.busy = false ∧ t.status.done = true ∧ t.cmdSeq = s.cmdSeq + 1 ∧ t.status.haz = s.status.haz

/-- `t` is `s` after a command that succeeded, as far as the view does not say: retired, the host's side and the error
record kept. -/
def State.Completed (s t : State) : Prop :=
  s.Retired t ∧ s.HostSideKept t ∧
  t.status.err = s.status.err ∧ t.status.errOvf = s.status.errOvf ∧ t.errInfo = s.errInfo ∧ t.errCmd = s.errCmd

/-- `t` is `s` after a command that ended in the fault of code `CLASS | SUB << 8`, as far as the view does not say
(60_exceptions.md R233): retired, the host's side kept, the first fault kept. -/
def State.Faulted (s : State) (code : Word) (t : State) : Prop :=
  s.Retired t ∧ s.HostSideKept t ∧ t.status.err = true ∧
  (s.status.err = false → t.errInfo = code ∧ t.errCmd = s.cmd ∧ t.status.errOvf = s.status.errOvf) ∧
  (s.status.err = true → t.errInfo = s.errInfo ∧ t.errCmd = s.errCmd ∧ t.status.errOvf = true)

/-- A base for which an odd number passes one round, in numbers (43_primality.md R152, R154): with `n - 1 = 2^r * s`, `s` odd,
either `a^s` is 1 modulo `n` or one of `a^s, a^(2s), …, a^(2^(r-1) s)` is `n - 1`. -/
def StrongProbablePrime (n a : Nat) : Prop :=
  ∃ r s, n - 1 = 2 ^ r * s ∧ s % 2 = 1 ∧ (a ^ s % n = 1 ∨ ∃ j, j < r ∧ a ^ (2 ^ j * s) % n = n - 1)

/-- The generator's state after `j` draws (42_rng.md R140). -/
def drawAfter (seed : Seed) (j : Nat) : Seed :=
  match j with
  | 0 => seed
  | k + 1 => lcgNext (drawAfter seed k)

/-- The generator's state after one attempt of a search (43_primality.md R160): a candidate is drawn and tested. -/
def seedAfterAttempt (b k : Nat) (seed : Seed) : Seed :=
  (millerRabin k (candidateOf b (lcgNext seed)) (lcgNext seed)).seed

/-- The generator's state after `j` attempts of a search (43_primality.md R160). -/
def seedAfterAttempts (b k : Nat) (seed : Seed) (j : Nat) : Seed :=
  match j with
  | 0 => seed
  | i + 1 => seedAfterAttempt b k (seedAfterAttempts b k seed i)

/-- The candidate of attempt `j + 1` (43_primality.md R158, R160). -/
def attemptCandidate (b k : Nat) (seed : Seed) (j : Nat) : Nat :=
  candidateOf b (lcgNext (seedAfterAttempts b k seed j))

/-- Attempt `j + 1` passes the test (43_primality.md R160). -/
def AttemptPasses (b k : Nat) (seed : Seed) (j : Nat) : Prop :=
  (millerRabin k (attemptCandidate b k seed j) (lcgNext (seedAfterAttempts b k seed j))).prime = true

/-- A search of at most `limit` attempts ends with attempt `t`, its candidate `c`, and leaves the generator at `sd`
(43_primality.md R160): the first `t - 1` candidates fail and the `t`-th passes. -/
def SearchFinds (limit b k : Nat) (seed : Seed) (c t : Nat) (sd : Seed) : Prop :=
  1 ≤ t ∧ t ≤ limit ∧ (∀ j, j < t - 1 → ¬ AttemptPasses b k seed j) ∧ AttemptPasses b k seed (t - 1) ∧
  c = attemptCandidate b k seed (t - 1) ∧ sd = seedAfterAttempts b k seed t

/-- A search of at most `limit` attempts finds nothing and leaves the generator at `sd` (43_primality.md R160). -/
def SearchFails (limit b k : Nat) (seed : Seed) (sd : Seed) : Prop :=
  (∀ j, j < limit → ¬ AttemptPasses b k seed j) ∧ sd = seedAfterAttempts b k seed limit

/-- Bit `i` of the stream of a payload of `n` bytes at `a` (00_scope.md R12): the payload's bits, bit 7 of a byte first, then
fifteen ones and a zero. -/
def streamBit (mem : Nat → Byte) (a n i : Nat) : Bool :=
  if i < 8 * n then (mem (a + i / 8)).getLsbD (7 - i % 8) else decide (i < 8 * n + 15)

/-- The terminator stands at bits `i` to `i + 15` of a bit sequence (00_scope.md R12). -/
def TerminatorAt (u : Nat → Bool) (i : Nat) : Prop := (∀ j, j < 15 → u (i + j) = true) ∧ u (i + 15) = false

/-- Bit `i` of the LSB sequence of the frame (45_lsb_codec.md R191, R193). -/
def State.frameBit (s : State) (i : Nat) : Bool := (s.readByte (s.slot i)).getLsbD 0

/-- The frame registers and windows let EMBED or EXTRACT work on the data window `(a, n)` (45_lsb_codec.md R192, R193). -/
def State.FrameReady (s : State) (a n : Nat) : Prop :=
  3 ≤ s.chan ∧ s.InsideMem s.frameAddr s.frameLen ∧ s.InsideMem a n ∧ ¬ Overlap a n s.frameAddr s.frameLen

/-- The word of a command meets the mask and the match of its row (30_encoding.md R84, R85) and decodes to it. -/
def Spells (i : Instr) (mask value : Word) : Prop := encode i &&& mask = value ∧ decode (encode i) = .ok i

/-- An opcode that 30_encoding.md R87 lists as not assigned. -/
def Unassigned (op : Nat) : Prop :=
  (0x09 ≤ op ∧ op ≤ 0x0F) ∨ (0x15 ≤ op ∧ op ≤ 0x1F) ∨ (0x25 ≤ op ∧ op ≤ 0x2F) ∨ (0x33 ≤ op ∧ op ≤ 0x3F) ∨
  (0x42 ≤ op ∧ op ≤ 0x4F) ∨ (0x56 ≤ op ∧ op ≤ 0xFF)

/-- Every row of the table of 10_state.md R49 but that of `MEM`, whose contents the rule leaves unspecified. -/
structure State.AtReset (t : State) : Prop where
  regs : ∀ r, t.reg r = 0
  acc : t.acc = 0
  seed : t.seed = 42#31
  rounds : t.rounds = 40#32
  maxTry : t.maxTry = 65536#32
  windows : t.addr0 = 0#32 ∧ t.len0 = 0#32 ∧ t.addr1 = 0#32 ∧ t.len1 = 0#32
  frame : t.fbase = 0#32 ∧ t.fwidth = 0#32 ∧ t.fheight = 0#32
  fchan : t.fchan = 3#8
  cmd : t.cmd = 0#32
  status : t.status.busy = false ∧ t.status.done = false ∧ t.status.err = false ∧ t.status.errOvf = false ∧
    t.status.haz = false ∧ t.status.t = false
  ie : t.ie.done = false ∧ t.ie.err = false
  results : t.result = 0#32 ∧ t.aux = 0#32 ∧ t.errInfo = 0#32 ∧ t.errCmd = 0#32 ∧ t.cmdSeq = 0#32
  id : t.csrValue .id = 0x4D564107#32
  cfg : t.csrValue .cfg = 0x07080000#32 + BitVec.ofNat 32 t.inst.w
  memSize : t.csrValue .memSize = BitVec.ofNat 32 t.inst.memSize
  irq : t.irq = false

/-- What of the view a command may write when it succeeds. -/
structure Writes where
  regs : List Reg
  acc : Bool
  seed : Bool
  t : Bool
  result : Bool
  aux : Bool

/-- A command that writes nothing but, maybe, `MEM`. -/
def Writes.none : Writes := { regs := [], acc := false, seed := false, t := false, result := false, aux := false }

/-- A command that writes these registers and no scalar. -/
def Writes.only (regs : List Reg) : Writes := { Writes.none with regs := regs }

/-- The writers of each register and scalar: 10_state.md R20 to R23, R31, R32, 70_reset_and_hazards.md R271. -/
def writesOf (i : Instr) : Writes :=
  match i with
  | .nop => .none
  | .zeroize =>
    { regs := [.b0, .b1, .b2, .b3, .b4, .b5, .b6, .b7], acc := true, seed := false, t := true, result := true, aux := true }
  | .ldi rd _ => .only [rd]
  | .mov rd _ => .only [rd]
  | .cmp _ _ => { Writes.none with t := true, result := true }
  | .bitlen _ => { Writes.none with result := true }
  | .add rd _ _ => .only [rd]
  | .sub rd _ _ => .only [rd]
  | .mova rd => .only [rd]
  | .mul _ _ => { Writes.none with acc := true }
  | .red rd _ => .only [rd]
  | .modmul rd _ _ _ => { Writes.only [rd] with acc := true }
  | .modexp rd _ _ _ => .only [rd]
  | .modinv rd _ _ => .only [rd]
  | .rngnext => { Writes.none with seed := true, result := true }
  | .mrwit _ _ => { Writes.none with t := true, result := true }
  | .mrtest _ => { Writes.none with seed := true, t := true, result := true, aux := true }
  | .primecand rd _ => { Writes.only [rd] with seed := true, result := true }
  | .primegen rd _ => { Writes.only [rd] with seed := true, result := true }
  | .keygen _ => { Writes.only [.b0, .b1, .b2, .b3, .b4, .b5] with seed := true, result := true, aux := true }
  | .rsaenc rd _ _ => .only [rd]
  | .rsadec _ _ _ => { Writes.none with result := true }
  | .embed => { Writes.none with result := true }
  | .extract => { Writes.none with t := true, result := true, aux := true }
  | .ldf rd => .only [rd]
  | .stf _ => { Writes.none with result := true }
  | .pack _ _ => { Writes.none with result := true }
  | .unpack rd rb => .only [rd, rb]
  | .ldm rd => .only [rd]
  | .stm _ => { Writes.none with result := true }

/-- The addresses a command may write (10_state.md R40, 20_memory.md R75): those of the output window for its five writers,
those of the frame window for EMBED, none for the others. -/
def State.MayStore (s : State) (i : Instr) (a : Nat) : Prop :=
  match i with
  | .rsadec _ _ _ => s.outAddr ≤ a ∧ a < s.outAddr + s.outLen
  | .extract => s.outAddr ≤ a ∧ a < s.outAddr + s.outLen
  | .stf _ => s.outAddr ≤ a ∧ a < s.outAddr + s.outLen
  | .pack _ _ => s.outAddr ≤ a ∧ a < s.outAddr + s.outLen
  | .stm _ => s.outAddr ≤ a ∧ a < s.outAddr + s.outLen
  | .embed => s.frameAddr ≤ a ∧ a < s.frameAddr + s.frameLen
  | _ => False

end Sys2Proof.Machine
end

