-- ==== Sys2Proof/Certificates/Slice0/Obligations.lean ====
section
/-! DEFINITION. The statements for the provers. Each docstring names the rules of spec/ it formalises. -/

section

open Sys2Proof Sys2Proof.Machine

/-! Encoding and the step. -/

/-- Decoding undoes encoding, for every command and every operand value the encoding admits
(30_encoding.md R82, R83, R85). -/
def Obligations.EncodeThenDecode : Prop :=
  ∀ i : Instr, WellFormed i → decode (encode i) = .ok i

/-- 30_encoding.md R85, R87 to R89: a word with an unassigned opcode is illegal; a word that decodes to a command is that
command's own encoding, no bit of it dropped; every other word has a reserved field set. -/
def Obligations.EveryWordIsACommandOrAFault : Prop :=
  ∀ w : Word,
    (Unassigned (w.toNat % 256) ↔ decode w = .error .illegalOpcode) ∧
    (∀ i, decode w = .ok i → WellFormed i ∧ encode i = w) ∧
    (decode w = .error .reservedField ↔
      ¬ Unassigned (w.toNat % 256) ∧ ∀ i, WellFormed i → encode i ≠ w)

/-- Words the rules print beside their syntax (30_encoding.md R90; 40_control_alu.md R102, R103, R107;
41_multiplier_reducer.md R125; 46_key_serializer.md R214) and two that are refused (95_test_vectors.md V2, V5). -/
def Obligations.PrintedWordsDecode : Prop :=
  decode 0x00008B13#32 = .ok (.modexp .b3 .b1 .b2 .b0) ∧ decode 0x00400030#32 = .ok (.keygen 1024) ∧
  decode 0x10001202#32 = .ok (.ldi .b2 65537) ∧ decode 0x00000C03#32 = .ok (.mov .b4 .b1) ∧
  decode 0x0001DD07#32 = .ok (.sub .b5 .b3 .b7) ∧ decode 0x000A0A14#32 = .ok (.modinv .b2 .b1 .b5) ∧
  decode 0x00008153#32 = .ok (.unpack .b1 .b2) ∧ decode 0xFFFFFFFF#32 = .error .illegalOpcode ∧
  decode 0x00004003#32 = .error .reservedField

/-- A step is the first scheduled turn, or the engine's when nothing is scheduled: the model's own form of the interleavings
of 20_memory.md R72 and of the fairness of 70_reset_and_hazards.md R276 (log 4). The engine owes nothing while idle
(00_scope.md R4, 10_state.md R44). -/
def Obligations.StepTakesTheScheduledTurn : Prop :=
  ∀ s : State,
    (s.schedule = [] → step s = engineTurn s) ∧
    (∀ rest, s.schedule = .engine :: rest → step s = engineTurn { s with schedule := rest }) ∧
    (∀ o z rest, s.schedule = .read o z :: rest → step s = .next (({ s with schedule := rest } : State).hostRead o z)) ∧
    (∀ o z v rest, s.schedule = .write o z v :: rest →
      step s = .next (({ s with schedule := rest } : State).hostWrite o z v)) ∧
    (∀ rest, s.schedule = .reset :: rest → step s = .next ({ s with schedule := rest } : State).hardReset) ∧
    (s.status.busy = false → engineTurn s = .next s)

/-- The completion step of the command in flight is its meaning (30_encoding.md R86). The command in flight is the word in `CMD`
while BUSY (10_state.md R48). That the engine moves when its turn stands first in `schedule`, or when nothing is scheduled,
is the model's own form of 20_memory.md R72 (log 4). -/
def Obligations.StepRunsTheDecodedCommand : Prop :=
  ∀ (s : State) (i : Instr), s.status.busy = true → decode s.cmd = .ok i →
    (s.schedule = [] → step s = exec i s) ∧
    (∀ rest, s.schedule = .engine :: rest → step s = exec i { s with schedule := rest })

/-- 30_encoding.md R87: the word is accepted at issue and completes with `Validation(ILLEGAL_OPCODE)`; nothing else changes. -/
def Obligations.IllegalOpcodeIsARecordedFault : Prop :=
  ∀ (s : State) (w : Word), s.status.busy = false → Unassigned (w.toNat % 256) →
    ∃ u t, s.hostWrite 0x00C#32 .four w = u ∧
      u = { s with cmd := w, status := { s.status with busy := true, done := false } } ∧
      engineTurn u = .next t ∧ u.Faulted 0x00000101#32 t ∧ t.view = s.view

/-- 30_encoding.md R88: a word with an assigned opcode that no command spells completes with `Validation(RESERVED_FIELD)`;
nothing else changes. -/
def Obligations.ReservedFieldIsARecordedFault : Prop :=
  ∀ (s : State) (w : Word), s.status.busy = true → s.cmd = w →
    ¬ Unassigned (w.toNat % 256) → (∀ i, WellFormed i → encode i ≠ w) →
    ∃ t, engineTurn s = .next t ∧ s.Faulted 0x00000201#32 t ∧ t.view = s.view

/-- 10_state.md R44 with 30_encoding.md R86: a write to `CMD` while idle sets `CMD`, `BUSY` and `DONE` and nothing else; the engine
then owes one completion, which sets `BUSY` 0, `DONE` 1 and counts, whatever the word. -/
def Obligations.IssueThenOneCompletion : Prop :=
  ∀ (s : State) (w : Word), s.status.busy = false →
    ∃ u t, s.hostWrite 0x00C#32 .four w = u ∧
      u = { s with cmd := w, status := { s.status with busy := true, done := false } } ∧
      engineTurn u = .next t ∧ u.Retired t ∧ u.HostSideKept t

/-! Reset and the invariant. -/

/-- 10_state.md R49: the state after reset, row by row. `W` in `CFG` and `MEMSIZE` are the instance's. -/
def Obligations.ResetStateHasTheValuesOfTheTable : Prop := State.reset.AtReset

/-- 70_reset_and_hazards.md R260: a reset is one step from any state, BUSY or idle, and leaves the values of the table; a command
in flight is aborted (`BUSY`, `DONE` and `CMDSEQ` 0). The parameters are the same instance's. -/
def Obligations.ResetIsOneStepFromAnyState : Prop :=
  ∀ s : State, ∃ t, act .reset s = .next t ∧ t.AtReset ∧ t.inst = s.inst

/-- The invariant of the engine holds after reset. Its range clauses are those of 00_scope.md R5 and 10_state.md R20, R21; that
the reset instance lies in them rests on log 1. -/
def Obligations.InvariantHoldsAfterReset : Prop := State.reset.Inv

/-- Every step keeps the invariant: registers fit (10_state.md R20, R21; 40_control_alu.md R109), `MEM` stays canonical and
inside its size (20_memory.md R61, R67), `ERRINFO` stays a code of 60_exceptions.md R232, `DONE` stays 0 while BUSY. -/
def Obligations.EveryStepKeepsTheInvariant : Prop :=
  ∀ s t : State, s.Inv → step s = .next t → t.Inv

/-! Byte strings. -/

/-- 00_scope.md R9, R10, R11: bit length, big-endian strings, minimal strings. -/
def Obligations.ByteStringsAreBigEndian : Prop :=
  (∀ l : List Byte, be l = ∑ k ∈ Finset.range l.length, (l.getD k 0).toNat * 256 ^ (l.length - 1 - k)) ∧
  (∀ l, be (0 :: l) = be l) ∧
  (∀ n v, v < 256 ^ n → (beBytes n v).length = n ∧ be (beBytes n v) = v) ∧
  bitlen 0 = 0 ∧ (∀ v, 0 < v → 2 ^ (bitlen v - 1) ≤ v ∧ v < 2 ^ bitlen v) ∧
  minbytes 0 = [] ∧
  (∀ v, (minbytes v).length = (bitlen v + 7) / 8 ∧ be (minbytes v) = v ∧ (0 < v → (minbytes v).getD 0 0 ≠ 0))

/-! Housekeeping and plain arithmetic (40_control_alu.md). -/

/-- 40_control_alu.md R100, R101. -/
def Obligations.NopAndZeroizeComplete : Prop :=
  Spells .nop 0xFFFFFFFF#32 0x00000000#32 ∧ Spells .zeroize 0xFFFFFFFF#32 0x00000001#32 ∧
  ∀ s : State,
    (∃ t, exec .nop s = .next t ∧ s.Completed t ∧ t.view = s.view) ∧
    (∃ t, exec .zeroize s = .next t ∧ s.Completed t ∧
      t.view = { s.view with regs := fun _ => 0, acc := 0, t := false, result := 0#32, aux := 0#32 })

/-- 40_control_alu.md R102, R103. -/
def Obligations.LdiAndMovComplete : Prop :=
  ∀ (rd ra : Reg) (imm20 : Nat) (s : State),
    (Imm20 imm20 → Spells (.ldi rd imm20) 0x000008FF#32 0x00000002#32 ∧
      ∃ t, exec (.ldi rd imm20) s = .next t ∧ s.Completed t ∧ t.view = s.view.put rd imm20) ∧
    Spells (.mov rd ra) 0xFFFFC0FF#32 0x00000003#32 ∧
    (∃ t, exec (.mov rd ra) s = .next t ∧ s.Completed t ∧ t.view = s.view.put rd (s.reg ra))

/-- 40_control_alu.md R104, R105, with the bit length of 00_scope.md R9 spelt out. -/
def Obligations.CmpAndBitlenComplete : Prop :=
  ∀ (ra rb : Reg) (s : State),
    Spells (.cmp ra rb) 0xFFFE07FF#32 0x00000004#32 ∧ Spells (.bitlen ra) 0xFFFFC7FF#32 0x00000005#32 ∧
    (∃ t, exec (.cmp ra rb) s = .next t ∧ s.Completed t ∧
      t.view = { s.view with
        t := decide (s.reg ra = s.reg rb)
        result := if s.reg ra = s.reg rb then 0#32 else if s.reg ra < s.reg rb then 1#32 else 2#32 }) ∧
    (∃ t len, exec (.bitlen ra) s = .next t ∧ s.Completed t ∧
      t.view = { s.view with result := BitVec.ofNat 32 len } ∧
      (s.reg ra = 0 → len = 0) ∧ (0 < s.reg ra → 2 ^ (len - 1) ≤ s.reg ra ∧ s.reg ra < 2 ^ len))

/-- 40_control_alu.md R106, R107, R108: the exact result when it fits, else the fault and nothing written. -/
def Obligations.AddSubMovaAreExactOrFault : Prop :=
  ∀ (rd ra rb : Reg) (s : State),
    Spells (.add rd ra rb) 0xFFFE00FF#32 0x00000006#32 ∧ Spells (.sub rd ra rb) 0xFFFE00FF#32 0x00000007#32 ∧
    Spells (.mova rd) 0xFFFFF8FF#32 0x00000008#32 ∧
    (s.reg ra + s.reg rb < 2 ^ s.k →
      ∃ t, exec (.add rd ra rb) s = .next t ∧ s.Completed t ∧ t.view = s.view.put rd (s.reg ra + s.reg rb)) ∧
    (2 ^ s.k ≤ s.reg ra + s.reg rb →
      ∃ t, exec (.add rd ra rb) s = .next t ∧ s.Faulted 0x00000701#32 t ∧ t.view = s.view) ∧
    (s.reg rb ≤ s.reg ra →
      ∃ t, exec (.sub rd ra rb) s = .next t ∧ s.Completed t ∧ t.view = s.view.put rd (s.reg ra - s.reg rb)) ∧
    (s.reg ra < s.reg rb →
      ∃ t, exec (.sub rd ra rb) s = .next t ∧ s.Faulted 0x00000801#32 t ∧ t.view = s.view) ∧
    (s.acc < 2 ^ s.k →
      ∃ t, exec (.mova rd) s = .next t ∧ s.Completed t ∧ t.view = s.view.put rd s.acc) ∧
    (2 ^ s.k ≤ s.acc →
      ∃ t, exec (.mova rd) s = .next t ∧ s.Faulted 0x00000701#32 t ∧ t.view = s.view)

/-! Multiplier and reducer (41_multiplier_reducer.md). -/

/-- 41_multiplier_reducer.md R120, R121, R122. -/
def Obligations.MulRedModmulCompleteOrFault : Prop :=
  ∀ (rd ra rb rm : Reg) (s : State),
    Spells (.mul ra rb) 0xFFFE07FF#32 0x00000010#32 ∧ Spells (.red rd rm) 0xFFF1F8FF#32 0x00000011#32 ∧
    Spells (.modmul rd ra rb rm) 0xFFF000FF#32 0x00000012#32 ∧
    (∃ t, exec (.mul ra rb) s = .next t ∧ s.Completed t ∧ t.view = { s.view with acc := s.reg ra * s.reg rb }) ∧
    (0 < s.reg rm →
      (∃ t, exec (.red rd rm) s = .next t ∧ s.Completed t ∧ t.view = s.view.put rd (s.acc % s.reg rm)) ∧
      (∃ t, exec (.modmul rd ra rb rm) s = .next t ∧ s.Completed t ∧
        t.view = { s.view.put rd (s.reg ra * s.reg rb % s.reg rm) with acc := s.reg ra * s.reg rb })) ∧
    (s.reg rm = 0 →
      (∃ t, exec (.red rd rm) s = .next t ∧ s.Faulted 0x00000601#32 t ∧ t.view = s.view) ∧
      (∃ t, exec (.modmul rd ra rb rm) s = .next t ∧ s.Faulted 0x00000601#32 t ∧ t.view = s.view))

/-- 41_multiplier_reducer.md R123: the exact residue of the exact power, for any modulus but 0. -/
def Obligations.ModexpIsTheResidueOfThePower : Prop :=
  ∀ (rd ra rb rm : Reg) (s : State),
    Spells (.modexp rd ra rb rm) 0xFFF000FF#32 0x00000013#32 ∧
    (0 < s.reg rm →
      ∃ t, exec (.modexp rd ra rb rm) s = .next t ∧ s.Completed t ∧
        t.view = s.view.put rd (s.reg ra ^ s.reg rb % s.reg rm)) ∧
    (s.reg rm = 0 →
      ∃ t, exec (.modexp rd ra rb rm) s = .next t ∧ s.Faulted 0x00000601#32 t ∧ t.view = s.view)

/-- 41_multiplier_reducer.md R125: the one inverse in range when the gcd is 1, else the faults in their order. -/
def Obligations.ModinvIsTheInverseOrFaults : Prop :=
  ∀ (rd ra rm : Reg) (s : State),
    Spells (.modinv rd ra rm) 0xFFF1C0FF#32 0x00000014#32 ∧
    (0 < s.reg rm → Nat.gcd (s.reg ra % s.reg rm) (s.reg rm) = 1 →
      ∃ t d, exec (.modinv rd ra rm) s = .next t ∧ s.Completed t ∧ t.view = s.view.put rd d ∧
        d < s.reg rm ∧ s.reg ra % s.reg rm * d % s.reg rm = 1 % s.reg rm ∧
        ∀ x, x < s.reg rm → s.reg ra % s.reg rm * x % s.reg rm = 1 % s.reg rm → x = d) ∧
    (0 < s.reg rm → Nat.gcd (s.reg ra % s.reg rm) (s.reg rm) ≠ 1 →
      ∃ t, exec (.modinv rd ra rm) s = .next t ∧ s.Faulted 0x00000103#32 t ∧ t.view = s.view) ∧
    (s.reg rm = 0 →
      ∃ t, exec (.modinv rd ra rm) s = .next t ∧ s.Faulted 0x00000601#32 t ∧ t.view = s.view)

/-- 41_multiplier_reducer.md R127 (a), (b): MODMUL is MUL then RED; MODEXP with exponent 2 gives the register MODMUL of the base
with itself gives. -/
def Obligations.ModmulIsMulThenRed : Prop :=
  ∀ (rd ra rb rm : Reg) (s : State), 0 < s.reg rm →
    (∃ t u v, exec (.modmul rd ra rb rm) s = .next t ∧ exec (.mul ra rb) s = .next u ∧
      exec (.red rd rm) u = .next v ∧ t.view = v.view) ∧
    (s.reg rb = 2 → ∃ t u, exec (.modexp rd ra rb rm) s = .next t ∧ exec (.modmul rd ra ra rm) s = .next u ∧
      t.view.regs = u.view.regs)

/-! The generator (42_rng.md). -/

/-- 42_rng.md R140, R141. -/
def Obligations.RngnextDrawsOnce : Prop :=
  Spells .rngnext 0xFFFFFFFF#32 0x00000020#32 ∧
  ∀ s : State, ∃ t x, x = (s.seed.toNat * 1103515245 + 12345) % 2 ^ 31 ∧
    exec .rngnext s = .next t ∧ s.Completed t ∧
    t.view = { s.view with seed := BitVec.ofNat 31 x, result := BitVec.ofNat 32 x }

/-- 42_rng.md R145 (b), which the spec marks as general knowledge and not from its source: from every seed the draws come back to it
after `2^31` of them and after no fewer. -/
def Obligations.DrawsRunThroughOneFullCycle : Prop :=
  ∀ (x : Seed) (j : Nat), drawAfter x j = x ↔ 2 ^ 31 ∣ j

/-! Primality (43_primality.md). -/

/-- 43_primality.md R154, R156. -/
def Obligations.MrwitGivesTheRoundOrFaults : Prop :=
  ∀ (ra rm : Reg) (s : State),
    Spells (.mrwit ra rm) 0xFFF1C7FF#32 0x00000021#32 ∧
    (3 < s.reg rm → s.reg rm % 2 = 1 → 2 ≤ s.reg ra → s.reg ra ≤ s.reg rm - 1 →
      (StrongProbablePrime (s.reg rm) (s.reg ra) →
        ∃ t, exec (.mrwit ra rm) s = .next t ∧ s.Completed t ∧ t.view = { s.view with t := true, result := 1#32 }) ∧
      (¬ StrongProbablePrime (s.reg rm) (s.reg ra) →
        ∃ t, exec (.mrwit ra rm) s = .next t ∧ s.Completed t ∧ t.view = { s.view with t := false, result := 0#32 })) ∧
    (s.reg rm ≤ 3 ∨ s.reg rm % 2 = 0 ∨ s.reg ra < 2 ∨ s.reg rm - 1 < s.reg ra →
      ∃ t, exec (.mrwit ra rm) s = .next t ∧ s.Faulted 0x00000301#32 t ∧ t.view = s.view)

/-- 43_primality.md R151, R153, R155, R157: no draw in the small and even cases; else the rounds, stopping at the first that
fails, which is number `j + 1`. -/
def Obligations.MrtestRunsTheRounds : Prop :=
  ∀ (rm : Reg) (s : State),
    Spells (.mrtest rm) 0xFFF1FFFF#32 0x00000022#32 ∧
    (s.rounds = 0#32 → ∃ t, exec (.mrtest rm) s = .next t ∧ s.Faulted 0x00000301#32 t ∧ t.view = s.view) ∧
    (s.rounds ≠ 0#32 →
      (s.reg rm ≤ 1 ∨ s.reg rm % 2 = 0 ∧ s.reg rm ≠ 2 →
        ∃ t, exec (.mrtest rm) s = .next t ∧ s.Completed t ∧
          t.view = { s.view with t := false, result := 0#32, aux := 0#32 }) ∧
      (s.reg rm = 2 ∨ s.reg rm = 3 →
        ∃ t, exec (.mrtest rm) s = .next t ∧ s.Completed t ∧
          t.view = { s.view with t := true, result := 1#32, aux := 0#32 }) ∧
      (3 < s.reg rm → s.reg rm % 2 = 1 →
        ((∀ j, j < s.rounds.toNat →
            StrongProbablePrime (s.reg rm) ((drawAfter s.seed (j + 1)).toNat % (s.reg rm - 2) + 2)) →
          ∃ t, exec (.mrtest rm) s = .next t ∧ s.Completed t ∧
            t.view = { s.view with
              seed := drawAfter s.seed s.rounds.toNat, t := true, result := 1#32, aux := s.rounds }) ∧
        (∀ j, j < s.rounds.toNat →
          (∀ i, i < j → StrongProbablePrime (s.reg rm) ((drawAfter s.seed (i + 1)).toNat % (s.reg rm - 2) + 2)) →
          ¬ StrongProbablePrime (s.reg rm) ((drawAfter s.seed (j + 1)).toNat % (s.reg rm - 2) + 2) →
          ∃ t, exec (.mrtest rm) s = .next t ∧ s.Completed t ∧
            t.view = { s.view with
              seed := drawAfter s.seed (j + 1), t := false, result := 0#32, aux := BitVec.ofNat 32 (j + 1) })))

/-- 43_primality.md R150, R162 (c), which R162 marks as general knowledge: a prime is always called prime, whatever the seed and
the round count. -/
def Obligations.MrtestNeverRejectsAPrime : Prop :=
  ∀ (rm : Reg) (s : State), Nat.Prime (s.reg rm) → s.rounds ≠ 0#32 →
    ∃ t, exec (.mrtest rm) s = .next t ∧ s.Completed t ∧ t.status.t = true ∧ t.result = 1#32

/-- 43_primality.md R158, R159: the candidate, its bit length and parity, its shape above 31 bits, and the fault. -/
def Obligations.PrimecandDrawsOneCandidate : Prop :=
  ∀ (rd : Reg) (b : Nat) (s : State),
    (Imm20 b → Spells (.primecand rd b) 0x000008FF#32 0x00000023#32) ∧
    (2 ≤ b → b ≤ s.k →
      ∃ t x c, x = (lcgNext s.seed).toNat ∧ c = (x % 2 ^ b) ||| 2 ^ (b - 1) ||| 1 ∧
        exec (.primecand rd b) s = .next t ∧ s.Completed t ∧
        t.view = { s.view.put rd c with seed := lcgNext s.seed, result := BitVec.ofNat 32 x } ∧
        2 ^ (b - 1) ≤ c ∧ c < 2 ^ b ∧ c % 2 = 1 ∧ (31 < b → c = 2 ^ (b - 1) + (x ||| 1)) ∧ (b = 2 → c = 3)) ∧
    (b < 2 ∨ s.k < b →
      ∃ t, exec (.primecand rd b) s = .next t ∧ s.Faulted 0x00000301#32 t ∧ t.view = s.view)

/-- 43_primality.md R160, R161: the first candidate that passes and the attempts it took, or `Exhausted(PRIME_SEARCH)` with
the draws kept (42_rng.md R143), or `Validation(PARAM)` without a draw. -/
def Obligations.PrimegenFindsOrReportsExhaustion : Prop :=
  ∀ (rd : Reg) (b : Nat) (s : State),
    (Imm20 b → Spells (.primegen rd b) 0x000008FF#32 0x00000024#32) ∧
    (2 ≤ b → b ≤ s.k → s.rounds ≠ 0#32 →
      (∀ c n sd, SearchFinds s.tryLimit b s.rounds.toNat s.seed c n sd →
        2 ^ (b - 1) ≤ c ∧ c < 2 ^ b ∧ c % 2 = 1 ∧
        ∃ t, exec (.primegen rd b) s = .next t ∧ s.Completed t ∧
          t.view = { s.view.put rd c with seed := sd, result := BitVec.ofNat 32 n }) ∧
      (∀ sd, SearchFails s.tryLimit b s.rounds.toNat s.seed sd →
        ∃ t, exec (.primegen rd b) s = .next t ∧ s.Faulted 0x00000105#32 t ∧ t.view = { s.view with seed := sd })) ∧
    (b < 2 ∨ s.k < b ∨ s.rounds = 0#32 →
      ∃ t, exec (.primegen rd b) s = .next t ∧ s.Faulted 0x00000301#32 t ∧ t.view = s.view)

/-- The corner cases of 43_primality.md R161: two bits give 3 with no round (R151), three bits give 5 or 7 at the first attempt. -/
def Obligations.PrimegenOfTwoOrThreeBits : Prop :=
  ∀ (rd : Reg) (s : State), 3 ≤ s.k → s.rounds ≠ 0#32 →
    (∃ t, exec (.primegen rd 2) s = .next t ∧ s.Completed t ∧
      t.view = { s.view.put rd 3 with seed := lcgNext s.seed, result := 1#32 }) ∧
    (∃ t c, exec (.primegen rd 3) s = .next t ∧ s.Completed t ∧ (c = 5 ∨ c = 7) ∧
      t.view = { s.view.put rd c with seed := drawAfter s.seed (s.rounds.toNat + 1), result := 1#32 })

/-! RSA (44_rsa.md). -/

/-- 44_rsa.md R171: the key from two searches in turn, and every fault in its order; the inverse is missing exactly when 65537
divides `p - 1` or `q - 1`; the bit length of the modulus. -/
def Obligations.KeygenDerivesTheKeyOrFaults : Prop :=
  ∀ (bits : Nat) (s : State),
    (Imm20 bits → Spells (.keygen bits) 0x00000FFF#32 0x00000030#32) ∧
    (2 ≤ bits / 2 → bits / 2 ≤ s.k / 2 → s.rounds ≠ 0#32 →
      (∀ sd, SearchFails s.tryLimit (bits / 2) s.rounds.toNat s.seed sd →
        ∃ t, exec (.keygen bits) s = .next t ∧ s.Faulted 0x00000105#32 t ∧ t.view = { s.view with seed := sd }) ∧
      (∀ p tp sp, SearchFinds s.tryLimit (bits / 2) s.rounds.toNat s.seed p tp sp →
        (∀ sd, SearchFails s.tryLimit (bits / 2) s.rounds.toNat sp sd →
          ∃ t, exec (.keygen bits) s = .next t ∧ s.Faulted 0x00000105#32 t ∧ t.view = { s.view with seed := sd }) ∧
        (∀ q tq sq, SearchFinds s.tryLimit (bits / 2) s.rounds.toNat sp q tq sq →
          (65537 ∣ p - 1 ∨ 65537 ∣ q - 1 →
            ∃ t, exec (.keygen bits) s = .next t ∧ s.Faulted 0x00000103#32 t ∧ t.view = { s.view with seed := sq }) ∧
          (¬ 65537 ∣ p - 1 → ¬ 65537 ∣ q - 1 →
            ∃ t d, exec (.keygen bits) s = .next t ∧ s.Completed t ∧
              d < (p - 1) * (q - 1) ∧ 65537 * d % ((p - 1) * (q - 1)) = 1 % ((p - 1) * (q - 1)) ∧
              t.view =
                { (((((s.view.put .b0 65537).put .b1 d).put .b2 (p * q)).put .b3 p).put .b4 q).put .b5
                    ((p - 1) * (q - 1)) with
                  seed := sq, result := BitVec.ofNat 32 tp, aux := BitVec.ofNat 32 tq } ∧
              p * q < 2 ^ s.k ∧ (bitlen (p * q) = 2 * (bits / 2) - 1 ∨ bitlen (p * q) = 2 * (bits / 2)) ∧
              (34 ≤ bits / 2 → bitlen (p * q) = 2 * (bits / 2) - 1))))) ∧
    (bits / 2 < 2 ∨ s.k / 2 < bits / 2 ∨ s.rounds = 0#32 →
      ∃ t, exec (.keygen bits) s = .next t ∧ s.Faulted 0x00000301#32 t ∧ t.view = s.view)

/-- 44_rsa.md R175: on engines of one width, KEYGEN's outcome depends on `SEED`, `ROUNDS` and `MAXTRY` alone. -/
def Obligations.KeygenIsDeterminedByTheSeed : Prop :=
  ∀ (bits : Nat) (s u : State), s.inst.w = u.inst.w → s.seed = u.seed → s.rounds = u.rounds → s.maxTry = u.maxTry →
    ∃ t v, exec (.keygen bits) s = .next t ∧ exec (.keygen bits) u = .next v ∧ t.seed = v.seed ∧
      ((∃ code, s.Faulted code t ∧ u.Faulted code v ∧
          t.view = { s.view with seed := t.seed } ∧ v.view = { u.view with seed := t.seed }) ∨
        (s.Completed t ∧ u.Completed v ∧ t.result = v.result ∧ t.aux = v.aux ∧
          ∀ r, r ≠ .b6 → r ≠ .b7 → t.reg r = v.reg r))

/-- 44_rsa.md R172. -/
def Obligations.RsaencEncryptsOrFaults : Prop :=
  ∀ (rd rb rm : Reg) (s : State),
    Spells (.rsaenc rd rb rm) 0xFFF038FF#32 0x00000031#32 ∧
    (s.inst.memSize < s.inAddr + s.inLen →
      ∃ t, exec (.rsaenc rd rb rm) s = .next t ∧ s.Faulted 0x00000401#32 t ∧ t.view = s.view) ∧
    (s.inAddr + s.inLen ≤ s.inst.memSize → bitlen (s.reg rm) ≤ bitlen (be s.inBytes) →
      ∃ t, exec (.rsaenc rd rb rm) s = .next t ∧ s.Faulted 0x00000102#32 t ∧ t.view = s.view) ∧
    (s.inAddr + s.inLen ≤ s.inst.memSize → bitlen (be s.inBytes) < bitlen (s.reg rm) →
      ∃ t, exec (.rsaenc rd rb rm) s = .next t ∧ s.Completed t ∧
        t.view = s.view.put rd (be s.inBytes ^ s.reg rb % s.reg rm))

/-- 44_rsa.md R173. `TEXT_VALID` is the instance's predicate (00_scope.md R5), whichever it is. -/
def Obligations.RsadecDecryptsOrFaults : Prop :=
  ∀ (ra rb rm : Reg) (s : State) (plain : List Byte), plain = minbytes (s.reg ra ^ s.reg rb % s.reg rm) →
    Spells (.rsadec ra rb rm) 0xFFF007FF#32 0x00000032#32 ∧
    (s.inst.memSize < s.outAddr + s.outLen →
      ∃ t, exec (.rsadec ra rb rm) s = .next t ∧ s.Faulted 0x00000401#32 t ∧ t.view = s.view) ∧
    (s.outAddr + s.outLen ≤ s.inst.memSize →
      (s.reg rm ≤ s.reg ra →
        ∃ t, exec (.rsadec ra rb rm) s = .next t ∧ s.Faulted 0x00000901#32 t ∧ t.view = s.view) ∧
      (s.reg ra < s.reg rm → s.outLen < plain.length →
        ∃ t, exec (.rsadec ra rb rm) s = .next t ∧ s.Faulted 0x00000A01#32 t ∧ t.view = s.view) ∧
      (s.reg ra < s.reg rm → plain.length ≤ s.outLen → s.inst.text.accepts plain = false →
        ∃ t, exec (.rsadec ra rb rm) s = .next t ∧ s.Faulted 0x00000204#32 t ∧ t.view = s.view) ∧
      (s.reg ra < s.reg rm → plain.length ≤ s.outLen → s.inst.text.accepts plain = true →
        ∃ t, exec (.rsadec ra rb rm) s = .next t ∧ s.Completed t ∧
          t.view = { s.view.store s.outAddr plain with result := BitVec.ofNat 32 plain.length } ∧
          (s.reg rm < 2 ^ s.k → plain.length ≤ s.inst.w)))

/-- 44_rsa.md R174: under a key for which `M^(e*d) mod n = M`, decrypting what was encrypted writes the message without its
leading zero bytes, and so the message itself exactly when it is empty or begins with another byte. The cipher goes to a register
that holds neither `d` nor `n`: over one of these it would replace the key, and the premise would no longer speak of the key used. -/
def Obligations.DecryptAfterEncryptGivesTheMessage : Prop :=
  ∀ (rd re rx rm : Reg) (s : State), rd ≠ rx → rd ≠ rm →
    (∀ x, x < s.reg rm → x ^ (s.reg re * s.reg rx) % s.reg rm = x) →
    s.inAddr + s.inLen ≤ s.inst.memSize → bitlen (be s.inBytes) < bitlen (s.reg rm) →
    s.outAddr + s.outLen ≤ s.inst.memSize → (minbytes (be s.inBytes)).length ≤ s.outLen →
    s.inst.text.accepts (minbytes (be s.inBytes)) = true →
    ∃ t u, exec (.rsaenc rd re rm) s = .next t ∧ exec (.rsadec rd rx rm) t = .next u ∧ t.Completed u ∧
      u.result = BitVec.ofNat 32 (minbytes (be s.inBytes)).length ∧
      u.readBytes s.outAddr (minbytes (be s.inBytes)).length = minbytes (be s.inBytes) ∧
      (s.inBytes = [] ∨ s.inBytes.getD 0 0 ≠ 0 ↔ minbytes (be s.inBytes) = s.inBytes)

/-! The LSB codec (45_lsb_codec.md). -/

/-- 45_lsb_codec.md R192: the faults in their order, all before any byte is written; else bit `i` of the stream in bit 0 of
slot `i`, the other bits of the slot and every other byte as before. -/
def Obligations.EmbedWritesTheStreamOrFaults : Prop :=
  Spells .embed 0xFFFFFFFF#32 0x00000040#32 ∧
  ∀ s : State,
    (s.chan < 3 → ∃ t, exec .embed s = .next t ∧ s.Faulted 0x00000301#32 t ∧ t.view = s.view) ∧
    (3 ≤ s.chan →
      (s.inst.memSize < s.frameAddr + s.frameLen ∨ s.inst.memSize < s.inAddr + s.inLen →
        ∃ t, exec .embed s = .next t ∧ s.Faulted 0x00000401#32 t ∧ t.view = s.view) ∧
      (s.frameAddr + s.frameLen ≤ s.inst.memSize → s.inAddr + s.inLen ≤ s.inst.memSize →
        Overlap s.inAddr s.inLen s.frameAddr s.frameLen →
        ∃ t, exec .embed s = .next t ∧ s.Faulted 0x00000501#32 t ∧ t.view = s.view)) ∧
    (s.FrameReady s.inAddr s.inLen →
      (s.cap < 8 * s.inLen + 16 →
        ∃ t, exec .embed s = .next t ∧ s.Faulted 0x00000202#32 t ∧ t.view = s.view) ∧
      (8 * s.inLen + 16 ≤ s.cap →
        ∃ t, exec .embed s = .next t ∧ s.Completed t ∧
          t.view = { s.view with result := BitVec.ofNat 32 (8 * s.inLen + 16), mem := t.readByte } ∧
          (∀ i, i < 8 * s.inLen + 16 →
            (t.readByte (s.slot i)).getLsbD 0 = streamBit s.readByte s.inAddr s.inLen i ∧
            t.readByte (s.slot i) &&& 0xFE#8 = s.readByte (s.slot i) &&& 0xFE#8) ∧
          (∀ a, (∀ i, i < 8 * s.inLen + 16 → s.slot i ≠ a) → t.readByte a = s.readByte a)))

/-- 45_lsb_codec.md R193: the faults in their order; else the bits before the first terminator, grouped into bytes, or
NotFound. The terminator stands at bits `i` to `i + 15`, so `i` data bits precede it. -/
def Obligations.ExtractReadsUpToTheTerminator : Prop :=
  Spells .extract 0xFFFFFFFF#32 0x00000041#32 ∧
  ∀ s : State,
    (s.chan < 3 → ∃ t, exec .extract s = .next t ∧ s.Faulted 0x00000301#32 t ∧ t.view = s.view) ∧
    (3 ≤ s.chan →
      (s.inst.memSize < s.frameAddr + s.frameLen ∨ s.inst.memSize < s.outAddr + s.outLen →
        ∃ t, exec .extract s = .next t ∧ s.Faulted 0x00000401#32 t ∧ t.view = s.view) ∧
      (s.frameAddr + s.frameLen ≤ s.inst.memSize → s.outAddr + s.outLen ≤ s.inst.memSize →
        Overlap s.outAddr s.outLen s.frameAddr s.frameLen →
        ∃ t, exec .extract s = .next t ∧ s.Faulted 0x00000501#32 t ∧ t.view = s.view)) ∧
    (s.FrameReady s.outAddr s.outLen →
      ((∀ i, i + 16 ≤ s.cap → ¬ TerminatorAt s.frameBit i) →
        ∃ t, exec .extract s = .next t ∧ s.Completed t ∧
          t.view = { s.view with t := false, result := 0#32, aux := 0#32 }) ∧
      (∀ i, i + 16 ≤ s.cap → TerminatorAt s.frameBit i → (∀ j, j < i → ¬ TerminatorAt s.frameBit j) →
        (s.outLen < i / 8 →
          ∃ t, exec .extract s = .next t ∧ s.Faulted 0x00000A01#32 t ∧ t.view = s.view) ∧
        (i / 8 ≤ s.outLen →
          ∃ t bytes, exec .extract s = .next t ∧ s.Completed t ∧ bytes.length = i / 8 ∧
            (∀ j, j < 8 * (i / 8) → (bytes.getD (j / 8) 0).getLsbD (7 - j % 8) = s.frameBit j) ∧
            t.view = { s.view.store s.outAddr bytes with
              t := true, result := BitVec.ofNat 32 (i / 8), aux := BitVec.ofNat 32 (i % 8) })))

/-- 45_lsb_codec.md R194: after EMBED, EXTRACT from the same frame returns the whole bytes before the first place `i` of the
stream where the terminator stands. The appended one stands at `8*LEN0`; an earlier one lies wholly in the payload. -/
def Obligations.ExtractAfterEmbedReturnsThePayload : Prop :=
  ∀ (s : State) (i : Nat), s.FrameReady s.inAddr s.inLen → 8 * s.inLen + 16 ≤ s.cap →
    s.FrameReady s.outAddr s.outLen → s.inLen ≤ s.outLen →
    TerminatorAt (streamBit s.readByte s.inAddr s.inLen) (8 * s.inLen) ∧
    (TerminatorAt (streamBit s.readByte s.inAddr s.inLen) i →
      (∀ j, j < i → ¬ TerminatorAt (streamBit s.readByte s.inAddr s.inLen) j) →
      (i = 8 * s.inLen ∨ i + 16 ≤ 8 * s.inLen) ∧
      ∃ t u, exec .embed s = .next t ∧ exec .extract t = .next u ∧ t.Completed u ∧
        u.status.t = true ∧ u.result = BitVec.ofNat 32 (i / 8) ∧ u.aux = BitVec.ofNat 32 (i % 8) ∧
        u.readBytes s.outAddr (i / 8) = s.inBytes.take (i / 8))

/-! Loads and stores (46_key_serializer.md). -/

/-- 46_key_serializer.md R211, R215. -/
def Obligations.LdfAndLdmLoadOrFault : Prop :=
  ∀ (rd : Reg) (s : State),
    Spells (.ldf rd) 0xFFFFF8FF#32 0x00000050#32 ∧ Spells (.ldm rd) 0xFFFFF8FF#32 0x00000054#32 ∧
    (s.inst.memSize < s.inAddr + s.inLen →
      (∃ t, exec (.ldf rd) s = .next t ∧ s.Faulted 0x00000401#32 t ∧ t.view = s.view) ∧
      (∃ t, exec (.ldm rd) s = .next t ∧ s.Faulted 0x00000401#32 t ∧ t.view = s.view)) ∧
    (s.inAddr + s.inLen ≤ s.inst.memSize →
      (s.inLen ≠ s.inst.w → ∃ t, exec (.ldf rd) s = .next t ∧ s.Faulted 0x00000104#32 t ∧ t.view = s.view) ∧
      (s.inLen = s.inst.w →
        ∃ t, exec (.ldf rd) s = .next t ∧ s.Completed t ∧
          t.view = s.view.put rd (be (s.readBytes s.inAddr s.inst.w))) ∧
      (2 ^ s.k ≤ be (s.readBytes s.inAddr s.inLen) →
        ∃ t, exec (.ldm rd) s = .next t ∧ s.Faulted 0x00000701#32 t ∧ t.view = s.view) ∧
      (be (s.readBytes s.inAddr s.inLen) < 2 ^ s.k →
        ∃ t, exec (.ldm rd) s = .next t ∧ s.Completed t ∧
          t.view = s.view.put rd (be (s.readBytes s.inAddr s.inLen))))

/-- 46_key_serializer.md R212, R213, R216: exactly the bytes of the value are written, from the start of the output window. -/
def Obligations.StfPackStmStoreOrFault : Prop :=
  ∀ (ra rb : Reg) (s : State),
    Spells (.stf ra) 0xFFFFC7FF#32 0x00000051#32 ∧ Spells (.pack ra rb) 0xFFFE07FF#32 0x00000052#32 ∧
    Spells (.stm ra) 0xFFFFC7FF#32 0x00000055#32 ∧
    (s.inst.memSize < s.outAddr + s.outLen →
      (∃ t, exec (.stf ra) s = .next t ∧ s.Faulted 0x00000401#32 t ∧ t.view = s.view) ∧
      (∃ t, exec (.pack ra rb) s = .next t ∧ s.Faulted 0x00000401#32 t ∧ t.view = s.view) ∧
      (∃ t, exec (.stm ra) s = .next t ∧ s.Faulted 0x00000401#32 t ∧ t.view = s.view)) ∧
    (s.outAddr + s.outLen ≤ s.inst.memSize →
      (s.outLen < s.inst.w → ∃ t, exec (.stf ra) s = .next t ∧ s.Faulted 0x00000A01#32 t ∧ t.view = s.view) ∧
      (s.inst.w ≤ s.outLen →
        ∃ t, exec (.stf ra) s = .next t ∧ s.Completed t ∧
          t.view = { s.view.store s.outAddr (beBytes s.inst.w (s.reg ra)) with
            result := BitVec.ofNat 32 s.inst.w }) ∧
      (s.outLen < 2 * s.inst.w →
        ∃ t, exec (.pack ra rb) s = .next t ∧ s.Faulted 0x00000A01#32 t ∧ t.view = s.view) ∧
      (2 * s.inst.w ≤ s.outLen →
        ∃ t, exec (.pack ra rb) s = .next t ∧ s.Completed t ∧
          t.view = { s.view.store s.outAddr (beBytes s.inst.w (s.reg ra) ++ beBytes s.inst.w (s.reg rb)) with
            result := BitVec.ofNat 32 (2 * s.inst.w) }) ∧
      (s.outLen < (minbytes (s.reg ra)).length →
        ∃ t, exec (.stm ra) s = .next t ∧ s.Faulted 0x00000A01#32 t ∧ t.view = s.view) ∧
      ((minbytes (s.reg ra)).length ≤ s.outLen →
        ∃ t, exec (.stm ra) s = .next t ∧ s.Completed t ∧
          t.view = { s.view.store s.outAddr (minbytes (s.reg ra)) with
            result := BitVec.ofNat 32 (minbytes (s.reg ra)).length } ∧
          (s.reg ra < 2 ^ s.k → (minbytes (s.reg ra)).length ≤ s.inst.w)))

/-- 46_key_serializer.md R214. -/
def Obligations.UnpackLoadsTwoFieldsOrFaults : Prop :=
  ∀ (rd rb : Reg) (s : State),
    Spells (.unpack rd rb) 0xFFFE38FF#32 0x00000053#32 ∧
    (rd = rb → ∃ t, exec (.unpack rd rb) s = .next t ∧ s.Faulted 0x00000301#32 t ∧ t.view = s.view) ∧
    (rd ≠ rb → s.inst.memSize < s.inAddr + s.inLen →
      ∃ t, exec (.unpack rd rb) s = .next t ∧ s.Faulted 0x00000401#32 t ∧ t.view = s.view) ∧
    (rd ≠ rb → s.inAddr + s.inLen ≤ s.inst.memSize →
      (s.inLen ≠ 2 * s.inst.w →
        ∃ t, exec (.unpack rd rb) s = .next t ∧ s.Faulted 0x00000104#32 t ∧ t.view = s.view) ∧
      (s.inLen = 2 * s.inst.w →
        ∃ t, exec (.unpack rd rb) s = .next t ∧ s.Completed t ∧
          t.view = (s.view.put rd (be (s.readBytes s.inAddr s.inst.w))).put rb
            (be (s.readBytes (s.inAddr + s.inst.w) s.inst.w))))

/-- 46_key_serializer.md R214: UNPACK after PACK on the same window with `LEN0 = 2*W` restores both integers. -/
def Obligations.UnpackAfterPackRestoresBoth : Prop :=
  ∀ (ra rb rd rx : Reg) (s : State), s.Inv → rd ≠ rx →
    s.outAddr + s.outLen ≤ s.inst.memSize → 2 * s.inst.w ≤ s.outLen →
    ∃ t u, exec (.pack ra rb) s = .next t ∧
      exec (.unpack rd rx) { t with addr0 := s.addr1, len0 := BitVec.ofNat 32 (2 * s.inst.w) } = .next u ∧
      u.reg rd = s.reg ra ∧ u.reg rx = s.reg rb

/-- 46_key_serializer.md R216: LDM after STM with `LEN0 = RESULT` restores the value. -/
def Obligations.LdmAfterStmRestoresTheValue : Prop :=
  ∀ (ra rd : Reg) (s : State), s.Inv →
    s.outAddr + s.outLen ≤ s.inst.memSize → (minbytes (s.reg ra)).length ≤ s.outLen →
    ∃ t u, exec (.stm ra) s = .next t ∧
      exec (.ldm rd) { t with addr0 := s.addr1, len0 := t.result } = .next u ∧
      u.reg rd = s.reg ra

/-! Rules over all commands. -/

/-- 60_exceptions.md R232, R233: what raising each of the sixteen faults does, with the code the table gives it. -/
def Obligations.AFaultRecordsItsCodeAndRetires : Prop :=
  ∀ (c : Cause) (code : Word) (s : State),
    (c, code) ∈ [(.illegalOpcode, 0x00000101#32), (.reservedField, 0x00000201#32), (.param, 0x00000301#32),
      (.addr, 0x00000401#32), (.overlap, 0x00000501#32), (.modulusZero, 0x00000601#32),
      (.overflow, 0x00000701#32), (.underflow, 0x00000801#32), (.cipherRange, 0x00000901#32),
      (.outBuf, 0x00000A01#32), (.msgTooLong, 0x00000102#32), (.frameTooSmall, 0x00000202#32),
      (.noInverse, 0x00000103#32), (.keyBufLen, 0x00000104#32), (.text, 0x00000204#32),
      (.primeSearch, 0x00000105#32)] →
    ∃ t, raise c s = .next t ∧ t.view = s.view ∧
      (s.status.err = false →
        t = { s with errInfo := code, errCmd := s.cmd, cmdSeq := s.cmdSeq + 1#32,
                     status := { s.status with err := true, busy := false, done := true } }) ∧
      (s.status.err = true →
        t = { s with cmdSeq := s.cmdSeq + 1#32,
                     status := { s.status with errOvf := true, busy := false, done := true } })

/-- 60_exceptions.md R235, R237: every command completes, with its effect or with a fault; a fault leaves every register, `ACC`, `T`,
`RESULT`, `AUX` and every byte of `MEM`, and, but for the two faults of PRIMEGEN and KEYGEN after their draws, `SEED`. -/
def Obligations.FaultsArePrecise : Prop :=
  ∀ (i : Instr) (s : State), ∃ t, exec i s = .next t ∧
    (s.Completed t ∨
      ∃ c : Cause, s.Faulted c.info t ∧ t.view = { s.view with seed := t.seed } ∧
        (t.seed = s.seed ∨
          c = .primeSearch ∧ ((∃ rd b, i = .primegen rd b) ∨ ∃ bits, i = .keygen bits) ∨
          c = .noInverse ∧ ∃ bits, i = .keygen bits))

/-- 10_state.md R20 to R23, R31, R32 and 70_reset_and_hazards.md R271: what a command does not write it leaves alone, whether
it succeeds or faults. -/
def Obligations.OnlyTheListedCommandsWriteEachRegister : Prop :=
  ∀ (i : Instr) (s t : State), exec i s = .next t →
    (∀ r, r ∉ (writesOf i).regs → t.reg r = s.reg r) ∧
    ((writesOf i).acc = false → t.acc = s.acc) ∧ ((writesOf i).seed = false → t.seed = s.seed) ∧
    ((writesOf i).t = false → t.status.t = s.status.t) ∧ ((writesOf i).result = false → t.result = s.result) ∧
    ((writesOf i).aux = false → t.aux = s.aux)

/-- 10_state.md R40, 20_memory.md R75: a byte of `MEM` that a command changes lies in its output window, or, for EMBED, in the
frame window; the other commands change none. -/
def Obligations.CommandsStoreOnlyInTheirWindows : Prop :=
  ∀ (i : Instr) (s t : State) (a : Nat), exec i s = .next t → t.readByte a ≠ s.readByte a → s.MayStore i a

/-! The port (10_state.md, 20_memory.md). -/

/-- 10_state.md R24 to R43: what each register reads as, BUSY or not, and that a read changes nothing but the value the
port returned (`portData`, log 5). -/
def Obligations.CsrReadsGiveTheRegisters : Prop :=
  ∀ s : State,
    (∀ o z, o.getLsbD 31 = false → s.hostRead o z = { s with portData := (s.hostRead o z).portData }) ∧
    (s.hostRead 0x000#32 .four).portData = 0x4D564107#32 ∧
    (s.hostRead 0x004#32 .four).portData = 0x07080000#32 + BitVec.ofNat 32 s.inst.w ∧
    (s.hostRead 0x008#32 .four).portData = BitVec.ofNat 32 s.inst.memSize ∧
    (s.hostRead 0x00C#32 .four).portData = s.cmd ∧
    ((s.hostRead 0x010#32 .four).portData.getLsbD 0 = s.status.busy ∧
      (s.hostRead 0x010#32 .four).portData.getLsbD 1 = s.status.done ∧
      (s.hostRead 0x010#32 .four).portData.getLsbD 2 = s.status.err ∧
      (s.hostRead 0x010#32 .four).portData.getLsbD 3 = s.status.errOvf ∧
      (s.hostRead 0x010#32 .four).portData.getLsbD 4 = s.status.haz ∧
      (s.hostRead 0x010#32 .four).portData.getLsbD 5 = s.status.t ∧
      ∀ k, 6 ≤ k → (s.hostRead 0x010#32 .four).portData.getLsbD k = false) ∧
    ((s.hostRead 0x014#32 .four).portData.getLsbD 0 = s.ie.done ∧
      (s.hostRead 0x014#32 .four).portData.getLsbD 1 = s.ie.err ∧
      ∀ k, 2 ≤ k → (s.hostRead 0x014#32 .four).portData.getLsbD k = false) ∧
    (s.hostRead 0x018#32 .four).portData = s.result ∧ (s.hostRead 0x01C#32 .four).portData = s.aux ∧
    (s.hostRead 0x020#32 .four).portData = s.errInfo ∧ (s.hostRead 0x024#32 .four).portData = s.errCmd ∧
    (s.hostRead 0x028#32 .four).portData = s.cmdSeq ∧
    (s.hostRead 0x030#32 .four).portData.toNat = s.seed.toNat ∧
    (s.hostRead 0x034#32 .four).portData = s.rounds ∧ (s.hostRead 0x038#32 .four).portData = s.maxTry ∧
    (s.hostRead 0x040#32 .four).portData = s.addr0 ∧ (s.hostRead 0x044#32 .four).portData = s.len0 ∧
    (s.hostRead 0x048#32 .four).portData = s.addr1 ∧ (s.hostRead 0x04C#32 .four).portData = s.len1 ∧
    (s.hostRead 0x050#32 .four).portData = s.fbase ∧ (s.hostRead 0x054#32 .four).portData = s.fwidth ∧
    (s.hostRead 0x058#32 .four).portData = s.fheight ∧
    (s.hostRead 0x05C#32 .four).portData.toNat = s.fchan.toNat

/-- 10_state.md R43, 20_memory.md R66: in the CSR region an access of another width, or at an offset that holds no register
(misaligned ones and those with a bit among 30:12 included), reads 0 and writes nothing, BUSY or not. That such a write leaves `HAZ`
alone while BUSY is the model's reading of R43 with R68 (log 8). -/
def Obligations.NoRegisterReadsZeroAndIgnoresWrites : Prop :=
  ∀ (s : State) (o v : Word) (z : Size), o.getLsbD 31 = false →
    (z ≠ .four ∨ o.toNat % 4 ≠ 0 ∨ 0x05C < o.toNat ∨ o.toNat = 0x02C ∨ o.toNat = 0x03C) →
    s.hostRead o z = { s with portData := 0#32 } ∧ s.hostWrite o z v = s

/-- 10_state.md R25 to R42: what a write to each register does while the engine is idle; read-only registers ignore it (R43),
`SEED` drops bit 31 (R36), `FCHAN` bits 31:8 (R42), `STATUS` clears bits 1 to 4 where a 1 is written (R29). -/
def Obligations.IdleWritesReachTheWritableBits : Prop :=
  ∀ (s : State) (v : Word), s.status.busy = false →
    (∀ o, o ∈ [0x000#32, 0x004#32, 0x008#32, 0x018#32, 0x01C#32, 0x020#32, 0x024#32, 0x028#32] →
      s.hostWrite o .four v = s) ∧
    s.hostWrite 0x010#32 .four v =
      { s with status := { s.status with
          done := s.status.done && !v.getLsbD 1, err := s.status.err && !v.getLsbD 2,
          errOvf := s.status.errOvf && !v.getLsbD 3, haz := s.status.haz && !v.getLsbD 4 } } ∧
    s.hostWrite 0x014#32 .four v = { s with ie := { done := v.getLsbD 0, err := v.getLsbD 1 } } ∧
    (∃ x : Seed, x.toNat = v.toNat % 2 ^ 31 ∧ s.hostWrite 0x030#32 .four v = { s with seed := x }) ∧
    s.hostWrite 0x034#32 .four v = { s with rounds := v } ∧ s.hostWrite 0x038#32 .four v = { s with maxTry := v } ∧
    s.hostWrite 0x040#32 .four v = { s with addr0 := v } ∧ s.hostWrite 0x044#32 .four v = { s with len0 := v } ∧
    s.hostWrite 0x048#32 .four v = { s with addr1 := v } ∧ s.hostWrite 0x04C#32 .four v = { s with len1 := v } ∧
    s.hostWrite 0x050#32 .four v = { s with fbase := v } ∧ s.hostWrite 0x054#32 .four v = { s with fwidth := v } ∧
    s.hostWrite 0x058#32 .four v = { s with fheight := v } ∧
    (∃ x : Byte, x.toNat = v.toNat % 256 ∧ s.hostWrite 0x05C#32 .four v = { s with fchan := x })

/-- 20_memory.md R68 with 10_state.md R28, R29, R30, R43: while BUSY a 32-bit write to any register but `STATUS` and `IE`, and every access to
the MEM aperture, is refused and sets `HAZ`; `STATUS` and `IE` are written as ever. That read-only registers count among them is log 8,
that accesses outside `MEM` count is log 7; the value an aperture read returns is any of its size (log 6). Writes of another width or
where no register is are not among them (`NoRegisterReadsZeroAndIgnoresWrites`, log 8). -/
def Obligations.BusyAccessesAreRefused : Prop :=
  ∀ (s : State) (v : Word) (z : Size), s.status.busy = true →
    (∀ o, o ∈ [0x000#32, 0x004#32, 0x008#32, 0x00C#32, 0x018#32, 0x01C#32, 0x020#32, 0x024#32, 0x028#32, 0x030#32,
        0x034#32, 0x038#32, 0x040#32, 0x044#32, 0x048#32, 0x04C#32, 0x050#32, 0x054#32, 0x058#32, 0x05C#32] →
      s.hostWrite o .four v = { s with status := { s.status with haz := true } }) ∧
    (∀ o : Word, o.getLsbD 31 = true →
      s.hostWrite o z v = { s with status := { s.status with haz := true } } ∧
      ∃ x : Word, x.toNat < 256 ^ z.bytes ∧
        s.hostRead o z =
          { s with status := { s.status with haz := true }, portData := x, freeReads := s.freeReads + 1 }) ∧
    s.hostWrite 0x010#32 .four v =
      { s with status := { s.status with
          done := s.status.done && !v.getLsbD 1, err := s.status.err && !v.getLsbD 2,
          errOvf := s.status.errOvf && !v.getLsbD 3, haz := s.status.haz && !v.getLsbD 4 } } ∧
    s.hostWrite 0x014#32 .four v = { s with ie := { done := v.getLsbD 0, err := v.getLsbD 1 } }

/-- 20_memory.md R67: a legal aperture access moves the bytes in little-endian lanes; one that is not legal reads 0 and writes nothing.
That a read of one or two bytes returns zeros above its lanes, and a write of them stores the low lanes, is the model's reading (log 13). -/
def Obligations.IdleApertureMovesLittleEndianLanes : Prop :=
  ∀ (s : State) (a : Nat) (v : Word) (z : Size), s.status.busy = false → a < 2 ^ 31 →
    (a % z.bytes = 0 → a + z.bytes ≤ s.inst.memSize →
      (∃ x : Word, s.hostRead (BitVec.ofNat 32 (2 ^ 31 + a)) z = { s with portData := x } ∧ x.toNat < 256 ^ z.bytes ∧
        ∀ k, k < z.bytes → x.toNat / 256 ^ k % 256 = (s.readByte (a + k)).toNat) ∧
      (∃ m : Memory, s.hostWrite (BitVec.ofNat 32 (2 ^ 31 + a)) z v = { s with mem := m } ∧
        (∀ k, k < z.bytes →
          (s.hostWrite (BitVec.ofNat 32 (2 ^ 31 + a)) z v).readByte (a + k) = BitVec.ofNat 8 (v.toNat / 256 ^ k)) ∧
        ∀ x, (x < a ∨ a + z.bytes ≤ x) →
          (s.hostWrite (BitVec.ofNat 32 (2 ^ 31 + a)) z v).readByte x = s.readByte x)) ∧
    (¬ (a % z.bytes = 0 ∧ a + z.bytes ≤ s.inst.memSize) →
      s.hostRead (BitVec.ofNat 32 (2 ^ 31 + a)) z = { s with portData := 0#32 } ∧
      s.hostWrite (BitVec.ofNat 32 (2 ^ 31 + a)) z v = s)

/-- 60_exceptions.md R239: the interrupt output from the bits `IE` and `STATUS` read as. -/
def Obligations.IrqFollowsStatusAndEnables : Prop :=
  ∀ s : State, s.irq =
    (((s.csrValue .ie).getLsbD 0 && (s.csrValue .status).getLsbD 1) ||
      ((s.csrValue .ie).getLsbD 1 && (s.csrValue .status).getLsbD 2))

/-- 20_memory.md R68, R72: nothing the host does between an issue and its completion changes what the command does to the
registers, `ACC`, `SEED`, `T`, `RESULT`, `AUX` and `MEM`. -/
def Obligations.HostAccessesDoNotDisturbTheCommandInFlight : Prop :=
  ∀ (s : State) (o v : Word) (z : Size), s.status.busy = true →
    ∃ t u w, engineTurn s = .next t ∧ engineTurn (s.hostWrite o z v) = .next u ∧ engineTurn (s.hostRead o z) = .next w ∧
      u.view = t.view ∧ w.view = t.view ∧ u.cmdSeq = t.cmdSeq ∧ w.cmdSeq = t.cmdSeq

end
end

