-- ==== Sys2Proof/Laws/Arith.lean ====
section
/-! SUPPORT. What the functions on numbers and byte strings compute, each said once. -/

namespace Sys2Proof.Machine

/-- `bitlen v` is at most `n` exactly when `v` is below `2^n` (00_scope.md R9). -/
theorem bitlen_le_iff (v n : Nat) : bitlen v ≤ n ↔ v < 2 ^ n := by
  unfold bitlen
  split
  · next h => subst h; simp
  · next h => rw [Nat.add_one_le_iff]; exact Nat.log2_lt h

/-- `bitlen v` is above `n` exactly when `v` is at least `2^n`. -/
theorem lt_bitlen_iff (v n : Nat) : n < bitlen v ↔ 2 ^ n ≤ v := by
  have := bitlen_le_iff v n; omega

theorem lt_two_pow_bitlen (v : Nat) : v < 2 ^ bitlen v := (bitlen_le_iff v _).1 (Nat.le_refl _)

/-- A number of smaller bit length is smaller. -/
theorem lt_of_bitlen_lt (a b : Nat) (h : bitlen a < bitlen b) : a < b :=
  lt_of_lt_of_le (lt_two_pow_bitlen a) ((lt_bitlen_iff b _).1 h)

/-- Reading a longer string: the value so far is shifted by the bytes that follow. -/
theorem be_foldl (s : List Byte) (v : Nat) :
    s.foldl (fun v x => v * 256 + x.toNat) v = v * 256 ^ s.length + be s := by
  induction s generalizing v with
  | nil => simp [be]
  | cons x rest ih =>
    have e : be (x :: rest) = rest.foldl (fun v x => v * 256 + x.toNat) (0 * 256 + x.toNat) := rfl
    rw [e, List.foldl_cons, ih, ih, List.length_cons, pow_succ]; ring

@[simp] theorem be_nil : be [] = 0 := rfl

/-- The first byte is the most significant (00_scope.md R10). -/
theorem be_cons (x : Byte) (s : List Byte) : be (x :: s) = x.toNat * 256 ^ s.length + be s := by
  have := be_foldl s (x.toNat)
  simpa [be] using this

/-- The value of a concatenation (00_scope.md R10). -/
theorem be_append (s t : List Byte) : be (s ++ t) = be s * 256 ^ t.length + be t := by
  rw [be, List.foldl_append]; exact be_foldl t _

/-- A string of `n` bytes has a value below `256^n`. -/
theorem be_lt (s : List Byte) : be s < 256 ^ s.length := by
  induction s with
  | nil => simp
  | cons x rest ih =>
    rw [be_cons, List.length_cons, pow_succ]
    have : x.toNat < 256 := x.isLt
    have : (x.toNat + 1) * 256 ^ rest.length ≤ 256 * 256 ^ rest.length := Nat.mul_le_mul_right _ (by omega)
    nlinarith

@[simp] theorem beBytes_length (n v : Nat) : (beBytes n v).length = n := by
  induction n with
  | zero => rfl
  | succ k ih => simp [beBytes, ih]

/-- The value of the `n`-byte string of `v` (00_scope.md R10). -/
theorem be_beBytes (n v : Nat) : be (beBytes n v) = v % 256 ^ n := by
  induction n with
  | zero => simp [beBytes, Nat.mod_one]
  | succ k ih =>
    rw [beBytes, be_cons, beBytes_length, ih, BitVec.toNat_ofNat, show (2 : Nat) ^ 8 = 256 from rfl, pow_succ,
      Nat.mod_mul (a := 256 ^ k), Nat.add_comm, Nat.mul_comm]

/-- A number that fits comes back (00_scope.md R10). -/
theorem be_beBytes_of_lt (n v : Nat) (h : v < 256 ^ n) : be (beBytes n v) = v := by
  rw [be_beBytes, Nat.mod_eq_of_lt h]

/-- A string is the string of its value. -/
theorem beBytes_be (s : List Byte) : beBytes s.length (be s) = s := by
  induction s with
  | nil => rfl
  | cons x rest ih =>
    have hlt := be_lt rest
    have hpos : 0 < 256 ^ rest.length := by positivity
    have key : ∀ n v w, beBytes n (w * 256 ^ n + v) = beBytes n v := by
      intro n
      induction n with
      | zero => intros; rfl
      | succ k ihk =>
        intro v w
        have e : w * 256 ^ (k + 1) + v = (w * 256) * 256 ^ k + v := by rw [pow_succ]; ring
        rw [beBytes, beBytes, e, ihk]
        congr 1
        rw [Nat.add_comm, Nat.add_mul_div_right _ _ (by positivity)]
        apply BitVec.eq_of_toNat_eq
        simp [BitVec.toNat_ofNat, Nat.add_mul_mod_self_right]
    rw [be_cons, List.length_cons, beBytes, key, ih]
    congr 1
    rw [Nat.add_comm, Nat.add_mul_div_right _ _ hpos, Nat.div_eq_of_lt hlt, Nat.zero_add]
    exact BitVec.ofNat_toNat' x
where
  BitVec.ofNat_toNat' (x : Byte) : BitVec.ofNat 8 x.toNat = x := by simp

@[simp] theorem minbytes_length (v : Nat) : (minbytes v).length = minLen v := beBytes_length _ _

/-- A number is below `256^n` exactly when its minimal string has at most `n` bytes (00_scope.md R11). -/
theorem minLen_le_iff (v n : Nat) : minLen v ≤ n ↔ v < 256 ^ n := by
  have h : (256 : Nat) ^ n = 2 ^ (8 * n) := by rw [pow_mul]; norm_num
  rw [h, ← bitlen_le_iff]
  unfold minLen; omega

/-- The minimal string has the number's value (00_scope.md R11). -/
theorem be_minbytes (v : Nat) : be (minbytes v) = v :=
  be_beBytes_of_lt _ _ ((minLen_le_iff v _).1 (Nat.le_refl _))

/-- One turn of the loop of 41_multiplier_reducer.md R124 and the power it stands for. -/
theorem powLoop_eq (a e m i r q : Nat) (hr : r = a ^ q % m) :
    powLoop a e m i r = a ^ (q * 2 ^ i + e % 2 ^ i) % m := by
  induction i generalizing r q with
  | zero => simp [powLoop, hr, Nat.mod_one]
  | succ k ih =>
    have hsq : r * r % m = a ^ (2 * q) % m := by
      rw [hr, ← Nat.mul_mod, two_mul, pow_add]
    have hbit : e % 2 ^ (k + 1) = (e.testBit k).toNat * 2 ^ k + e % 2 ^ k := by
      rw [pow_succ, Nat.mod_mul, Nat.testBit_eq_decide_div_mod_eq]
      rcases Nat.mod_two_eq_zero_or_one (e / 2 ^ k) with h | h <;> simp [h]; omega
    unfold powLoop
    by_cases hb : e.testBit k = true
    · rw [if_pos hb, ih _ (2 * q + 1) (by rw [hsq, ← Nat.mul_mod, pow_succ])]
      rw [hbit, hb, pow_succ]; congr 2; simp; ring
    · rw [if_neg hb, ih _ (2 * q) hsq]
      have hf : e.testBit k = false := by simpa using hb
      rw [hbit, hf, pow_succ]; congr 2; simp; ring

/-- The modular power is the residue of the power (41_multiplier_reducer.md R123, R124). -/
theorem powMod_eq (a e m : Nat) : powMod a e m = a ^ e % m := by
  rw [powMod, powLoop_eq a e m _ _ 0 (by simp), Nat.mod_eq_of_lt (lt_two_pow_bitlen e)]
  simp

/-- Extended Euclid ends at the greatest common divisor and keeps `t0 * a ≡ r0` modulo `m`
(41_multiplier_reducer.md R126). -/
theorem euclid_spec (m a : Int) (turns r0 r1 : Nat) (t0 t1 : Int) (hle : r1 ≤ turns)
    (h0 : (r0 : Int) ≡ t0 * a [ZMOD m]) (h1 : (r1 : Int) ≡ t1 * a [ZMOD m]) :
    (euclid turns r0 r1 t0 t1).1 = Nat.gcd r0 r1 ∧
      ((euclid turns r0 r1 t0 t1).1 : Int) ≡ (euclid turns r0 r1 t0 t1).2 * a [ZMOD m] := by
  induction turns generalizing r0 r1 t0 t1 with
  | zero =>
    have : r1 = 0 := by omega
    subst this
    exact ⟨by simp [euclid], h0⟩
  | succ k ih =>
    unfold euclid
    by_cases hz : r1 = 0
    · rw [if_pos hz]; subst hz; exact ⟨by simp, h0⟩
    · rw [if_neg hz]
      have hlt : r0 % r1 < r1 := Nat.mod_lt _ (by omega)
      have hmod : ((r0 % r1 : Nat) : Int) ≡ (t0 - ((r0 / r1 : Nat) : Int) * t1) * a [ZMOD m] := by
        have e : ((r0 % r1 : Nat) : Int) = (r0 : Int) - ((r0 / r1 : Nat) : Int) * (r1 : Int) := by
          have := Nat.mod_add_div r0 r1
          have h2 : ((r0 % r1 + r1 * (r0 / r1) : Nat) : Int) = (r0 : Int) := by exact_mod_cast this
          push_cast at h2 ⊢; linarith
        rw [e, sub_mul, mul_assoc]
        exact Int.ModEq.sub h0 (Int.ModEq.mul_left _ h1)
      have := ih r1 (r0 % r1) t1 (t0 - ((r0 / r1 : Nat) : Int) * t1) (by omega) h1 hmod
      refine ⟨?_, this.2⟩
      rw [this.1, Nat.gcd_comm r0 r1, Nat.gcd_comm r1, ← Nat.gcd_rec]

/-- The inverse, where the modulus is not 0: in `[0, m)`, and an inverse (41_multiplier_reducer.md R125). -/
theorem invMod_some (a m d : Nat) (hm : 0 < m) (h : invMod a m = some d) :
    d < m ∧ a * d % m = 1 % m := by
  have sp := euclid_spec m a (a % m) m (a % m) 0 1 (Nat.le_refl _)
    (by simp [Int.ModEq]) (by simp [Int.ModEq])
  unfold invMod at h
  simp only at h
  split at h
  · next hg =>
    injection h with h
    have hm' : (0 : Int) < m := by exact_mod_cast hm
    have hnn : 0 ≤ (euclid (a % m) m (a % m) 0 1).2 % (m : Int) := Int.emod_nonneg _ (by omega)
    have hlt : (euclid (a % m) m (a % m) 0 1).2 % (m : Int) < m := Int.emod_lt_of_pos _ hm'
    have hd : (d : Int) = (euclid (a % m) m (a % m) 0 1).2 % (m : Int) := by
      rw [← h]; exact Int.toNat_of_nonneg hnn
    refine ⟨by have := hd ▸ hlt; exact_mod_cast this, ?_⟩
    have e := sp.2
    rw [hg] at e
    have : ((a * d : Nat) : Int) ≡ ((1 : Nat) : Int) [ZMOD m] := by
      push_cast
      rw [hd]
      calc (a : Int) * ((euclid (a % m) m (a % m) 0 1).2 % (m : Int))
          ≡ a * (euclid (a % m) m (a % m) 0 1).2 [ZMOD m] := Int.ModEq.mul_left _ (Int.mod_modEq _ _)
        _ ≡ 1 [ZMOD m] := by rw [mul_comm]; simpa using e.symm
    exact (Int.natCast_modEq_iff.1 this)
  · exact absurd h (by simp)

/-- There is no inverse exactly when the greatest common divisor is not 1 (41_multiplier_reducer.md R125). -/
theorem invMod_none_iff (a m : Nat) : invMod a m = none ↔ Nat.gcd a m ≠ 1 := by
  have sp := euclid_spec m a (a % m) m (a % m) 0 1 (Nat.le_refl _)
    (by simp [Int.ModEq]) (by simp [Int.ModEq])
  have hg : Nat.gcd m (a % m) = Nat.gcd a m := by
    rw [Nat.gcd_comm m (a % m), ← Nat.gcd_rec, Nat.gcd_comm]
  unfold invMod
  simp only
  rw [sp.1, hg]
  split <;> simp_all

end Sys2Proof.Machine
end

