-- ==== Sys2Proof/Laws/Encoding.lean ====
section
/-! SUPPORT. The fields of an encoded word, and that each row of the opcode map is found by its opcode (30_encoding.md R82 to R85). -/

namespace Sys2Proof

@[simp] theorem Reg.ofBits_bits (r : Reg) : Reg.ofBits r.bits = r := by cases r <;> rfl

@[simp] theorem Reg.bits_ofBits (v : BitVec 3) : (Reg.ofBits v).bits = v := by revert v; decide

/-- A 20-bit immediate stands in bits 31:12 whole (30_encoding.md R83). -/
theorem imm_extract (v : Nat) (h : Imm20 v) : (BitVec.ofNat 32 v <<< 12).extractLsb' 12 20 = BitVec.ofNat 20 v := by
  apply BitVec.eq_of_toNat_eq
  simp only [BitVec.extractLsb'_toNat, BitVec.toNat_shiftLeft, BitVec.toNat_ofNat]
  have h1 : v % 2 ^ 32 = v := Nat.mod_eq_of_lt (by unfold Imm20 at h; omega)
  rw [h1, Nat.shiftLeft_eq, Nat.shiftRight_eq_div_pow]
  unfold Imm20 at h
  omega

/-- An immediate leaves the low twelve bits alone. -/
theorem imm_low (v : Nat) (a n : Nat) (h : a + n ≤ 12) : (BitVec.ofNat 32 v <<< 12).extractLsb' a n = 0#n := by
  apply BitVec.eq_of_getLsbD_eq
  intro i hi
  simp; omega

theorem imm_and (v : Nat) (m : Word) (h : m.toNat < 4096) : (BitVec.ofNat 32 v <<< 12) &&& m = 0#32 := by
  apply BitVec.eq_of_getLsbD_eq
  intro i hi
  simp only [BitVec.getLsbD_and, BitVec.getLsbD_shiftLeft, BitVec.getLsbD_zero]
  by_cases h12 : i < 12
  · simp [h12]
  · have : m.getLsbD i = false := by
      rw [BitVec.getLsbD, Nat.testBit_lt_two_pow]
      exact lt_of_lt_of_le h (by
        calc 4096 = 2 ^ 12 := by norm_num
          _ ≤ 2 ^ i := Nat.pow_le_pow_right (by norm_num) (by omega))
    simp [this]

/-- The opcode of a word of format R. -/
theorem opcodeField_wordR (op : Word) (rd ra rb rm : Reg) :
    opcodeField (wordR op rd ra rb rm) = op.extractLsb' 0 8 := by
  have h1 : (rd.bits.setWidth 32 <<< 8).extractLsb' 0 8 = 0#8 := by cases rd <;> decide
  have h2 : (ra.bits.setWidth 32 <<< 11).extractLsb' 0 8 = 0#8 := by cases ra <;> decide
  have h3 : (rb.bits.setWidth 32 <<< 14).extractLsb' 0 8 = 0#8 := by cases rb <;> decide
  have h4 : (rm.bits.setWidth 32 <<< 17).extractLsb' 0 8 = 0#8 := by cases rm <;> decide
  simp only [opcodeField, wordR, BitVec.extractLsb'_or, h1, h2, h3, h4, BitVec.or_zero]

/-- The field `rd` of a word of format R. -/
theorem rdField_wordR (op : Word) (rd ra rb rm : Reg) (h : op.extractLsb' 8 3 = 0#3) :
    rdField (wordR op rd ra rb rm) = rd := by
  have h1 : (rd.bits.setWidth 32 <<< 8).extractLsb' 8 3 = rd.bits := by cases rd <;> decide
  have h2 : (ra.bits.setWidth 32 <<< 11).extractLsb' 8 3 = 0#3 := by cases ra <;> decide
  have h3 : (rb.bits.setWidth 32 <<< 14).extractLsb' 8 3 = 0#3 := by cases rb <;> decide
  have h4 : (rm.bits.setWidth 32 <<< 17).extractLsb' 8 3 = 0#3 := by cases rm <;> decide
  simp only [rdField, wordR, BitVec.extractLsb'_or, h, h1, h2, h3, h4, BitVec.or_zero, BitVec.zero_or,
    Reg.ofBits_bits]

/-- The field `ra` of a word of format R. -/
theorem raField_wordR (op : Word) (rd ra rb rm : Reg) (h : op.extractLsb' 11 3 = 0#3) :
    raField (wordR op rd ra rb rm) = ra := by
  have h1 : (rd.bits.setWidth 32 <<< 8).extractLsb' 11 3 = 0#3 := by cases rd <;> decide
  have h2 : (ra.bits.setWidth 32 <<< 11).extractLsb' 11 3 = ra.bits := by cases ra <;> decide
  have h3 : (rb.bits.setWidth 32 <<< 14).extractLsb' 11 3 = 0#3 := by cases rb <;> decide
  have h4 : (rm.bits.setWidth 32 <<< 17).extractLsb' 11 3 = 0#3 := by cases rm <;> decide
  simp only [raField, wordR, BitVec.extractLsb'_or, h, h1, h2, h3, h4, BitVec.or_zero, BitVec.zero_or,
    Reg.ofBits_bits]

/-- The field `rb` of a word of format R. -/
theorem rbField_wordR (op : Word) (rd ra rb rm : Reg) (h : op.extractLsb' 14 3 = 0#3) :
    rbField (wordR op rd ra rb rm) = rb := by
  have h1 : (rd.bits.setWidth 32 <<< 8).extractLsb' 14 3 = 0#3 := by cases rd <;> decide
  have h2 : (ra.bits.setWidth 32 <<< 11).extractLsb' 14 3 = 0#3 := by cases ra <;> decide
  have h3 : (rb.bits.setWidth 32 <<< 14).extractLsb' 14 3 = rb.bits := by cases rb <;> decide
  have h4 : (rm.bits.setWidth 32 <<< 17).extractLsb' 14 3 = 0#3 := by cases rm <;> decide
  simp only [rbField, wordR, BitVec.extractLsb'_or, h, h1, h2, h3, h4, BitVec.or_zero, BitVec.zero_or,
    Reg.ofBits_bits]

/-- The field `rm` of a word of format R. -/
theorem rmField_wordR (op : Word) (rd ra rb rm : Reg) (h : op.extractLsb' 17 3 = 0#3) :
    rmField (wordR op rd ra rb rm) = rm := by
  have h1 : (rd.bits.setWidth 32 <<< 8).extractLsb' 17 3 = 0#3 := by cases rd <;> decide
  have h2 : (ra.bits.setWidth 32 <<< 11).extractLsb' 17 3 = 0#3 := by cases ra <;> decide
  have h3 : (rb.bits.setWidth 32 <<< 14).extractLsb' 17 3 = 0#3 := by cases rb <;> decide
  have h4 : (rm.bits.setWidth 32 <<< 17).extractLsb' 17 3 = rm.bits := by cases rm <;> decide
  simp only [rmField, wordR, BitVec.extractLsb'_or, h, h1, h2, h3, h4, BitVec.or_zero, BitVec.zero_or,
    Reg.ofBits_bits]

/-- The masked bits of a word of format R, part by part. -/
theorem wordR_and (op m : Word) (rd ra rb rm : Reg) :
    wordR op rd ra rb rm &&& m = (op &&& m) ||| ((rd.bits.setWidth 32 <<< 8) &&& m) |||
      ((ra.bits.setWidth 32 <<< 11) &&& m) ||| ((rb.bits.setWidth 32 <<< 14) &&& m) |||
      ((rm.bits.setWidth 32 <<< 17) &&& m) := by
  simp only [wordR, BitVec.and_or_distrib_right]

/-- A word of format R meets a mask that leaves out the fields in use. -/
theorem wordR_mask (op m v : Word) (rd ra rb rm : Reg) (h0 : op &&& m = v)
    (h1 : (rd.bits.setWidth 32 <<< 8) &&& m = 0#32) (h2 : (ra.bits.setWidth 32 <<< 11) &&& m = 0#32)
    (h3 : (rb.bits.setWidth 32 <<< 14) &&& m = 0#32) (h4 : (rm.bits.setWidth 32 <<< 17) &&& m = 0#32) :
    wordR op rd ra rb rm &&& m = v := by
  rw [wordR_and, h0, h1, h2, h3, h4]; simp

/-- The opcode of a word of format I. -/
theorem opcodeField_wordI (op : Word) (rd : Reg) (v : Nat) :
    opcodeField (wordI op rd v) = op.extractLsb' 0 8 := by
  have h1 : (rd.bits.setWidth 32 <<< 8).extractLsb' 0 8 = 0#8 := by cases rd <;> decide
  simp only [opcodeField, wordI, BitVec.extractLsb'_or, h1, imm_low v 0 8 (by omega), BitVec.or_zero]

/-- The field `rd` of a word of format I. -/
theorem rdField_wordI (op : Word) (rd : Reg) (v : Nat) (h : op.extractLsb' 8 3 = 0#3) :
    rdField (wordI op rd v) = rd := by
  have h1 : (rd.bits.setWidth 32 <<< 8).extractLsb' 8 3 = rd.bits := by cases rd <;> decide
  simp only [rdField, wordI, BitVec.extractLsb'_or, h, h1, imm_low v 8 3 (by omega), BitVec.or_zero,
    BitVec.zero_or, Reg.ofBits_bits]

/-- The immediate of a word of format I. -/
theorem immField_wordI (op : Word) (rd : Reg) (v : Nat) (h : op.extractLsb' 12 20 = 0#20) (hv : Imm20 v) :
    immField (wordI op rd v) = v := by
  have h1 : (rd.bits.setWidth 32 <<< 8).extractLsb' 12 20 = 0#20 := by cases rd <;> decide
  simp only [immField, wordI, BitVec.extractLsb'_or, h, h1, imm_extract v hv, BitVec.zero_or, BitVec.toNat_ofNat]
  exact Nat.mod_eq_of_lt (by unfold Imm20 at hv; omega)

/-- A word of format I meets a mask below bit 12 that leaves out the fields in use. -/
theorem wordI_mask (op m v : Word) (rd : Reg) (x : Nat) (hm : m.toNat < 4096) (h0 : op &&& m = v)
    (h1 : (rd.bits.setWidth 32 <<< 8) &&& m = 0#32) : wordI op rd x &&& m = v := by
  simp only [wordI, BitVec.and_or_distrib_right, h0, h1, imm_and x m hm]; simp

/-- A word whose opcode is a row's and whose masked bits are the row's decodes to the row's command. -/
theorem decode_of_row (w : Word) (r : OpRow) (hr : opRow w = some r) (hm : w &&& r.mask = r.value) :
    decode w = .ok (r.build w) := by
  unfold decode; rw [hr]; simp [hm]

/-- The row found depends on the opcode alone. -/
theorem opRow_of_opcode (w : Word) (c : Byte) (h : opcodeField w = c) :
    opRow w = opTable.find? (fun r => r.code == c) := by
  unfold opRow; rw [h]

end Sys2Proof
end

