-- ==== Sys2Proof/Laws/State.lean ====
section
/-! SUPPORT. What each update of the state does to each field: one lemma per field per update. -/

namespace Sys2Proof.Machine

@[simp] theorem State.setReg_inst (s : State) (r : Reg) (v : Nat) : (s.setReg r v).inst = s.inst := rfl
@[simp] theorem State.setReg_b (s : State) (r : Reg) (v : Nat) : (s.setReg r v).b = s.b.set r v := rfl
@[simp] theorem State.setReg_acc (s : State) (r : Reg) (v : Nat) : (s.setReg r v).acc = s.acc := rfl
@[simp] theorem State.setReg_seed (s : State) (r : Reg) (v : Nat) : (s.setReg r v).seed = s.seed := rfl
@[simp] theorem State.setReg_cmd (s : State) (r : Reg) (v : Nat) : (s.setReg r v).cmd = s.cmd := rfl
@[simp] theorem State.setReg_status (s : State) (r : Reg) (v : Nat) : (s.setReg r v).status = s.status := rfl
@[simp] theorem State.setReg_ie (s : State) (r : Reg) (v : Nat) : (s.setReg r v).ie = s.ie := rfl
@[simp] theorem State.setReg_result (s : State) (r : Reg) (v : Nat) : (s.setReg r v).result = s.result := rfl
@[simp] theorem State.setReg_aux (s : State) (r : Reg) (v : Nat) : (s.setReg r v).aux = s.aux := rfl
@[simp] theorem State.setReg_errInfo (s : State) (r : Reg) (v : Nat) : (s.setReg r v).errInfo = s.errInfo := rfl
@[simp] theorem State.setReg_errCmd (s : State) (r : Reg) (v : Nat) : (s.setReg r v).errCmd = s.errCmd := rfl
@[simp] theorem State.setReg_cmdSeq (s : State) (r : Reg) (v : Nat) : (s.setReg r v).cmdSeq = s.cmdSeq := rfl
@[simp] theorem State.setReg_rounds (s : State) (r : Reg) (v : Nat) : (s.setReg r v).rounds = s.rounds := rfl
@[simp] theorem State.setReg_maxTry (s : State) (r : Reg) (v : Nat) : (s.setReg r v).maxTry = s.maxTry := rfl
@[simp] theorem State.setReg_addr0 (s : State) (r : Reg) (v : Nat) : (s.setReg r v).addr0 = s.addr0 := rfl
@[simp] theorem State.setReg_len0 (s : State) (r : Reg) (v : Nat) : (s.setReg r v).len0 = s.len0 := rfl
@[simp] theorem State.setReg_addr1 (s : State) (r : Reg) (v : Nat) : (s.setReg r v).addr1 = s.addr1 := rfl
@[simp] theorem State.setReg_len1 (s : State) (r : Reg) (v : Nat) : (s.setReg r v).len1 = s.len1 := rfl
@[simp] theorem State.setReg_fbase (s : State) (r : Reg) (v : Nat) : (s.setReg r v).fbase = s.fbase := rfl
@[simp] theorem State.setReg_fwidth (s : State) (r : Reg) (v : Nat) : (s.setReg r v).fwidth = s.fwidth := rfl
@[simp] theorem State.setReg_fheight (s : State) (r : Reg) (v : Nat) : (s.setReg r v).fheight = s.fheight := rfl
@[simp] theorem State.setReg_fchan (s : State) (r : Reg) (v : Nat) : (s.setReg r v).fchan = s.fchan := rfl
@[simp] theorem State.setReg_mem (s : State) (r : Reg) (v : Nat) : (s.setReg r v).mem = s.mem := rfl
@[simp] theorem State.setReg_memEpoch (s : State) (r : Reg) (v : Nat) : (s.setReg r v).memEpoch = s.memEpoch := rfl
@[simp] theorem State.setReg_freeReads (s : State) (r : Reg) (v : Nat) : (s.setReg r v).freeReads = s.freeReads := rfl
@[simp] theorem State.setReg_portData (s : State) (r : Reg) (v : Nat) : (s.setReg r v).portData = s.portData := rfl
@[simp] theorem State.setReg_schedule (s : State) (r : Reg) (v : Nat) : (s.setReg r v).schedule = s.schedule := rfl

@[simp] theorem State.setAcc_inst (s : State) (v : Nat) : (s.setAcc v).inst = s.inst := rfl
@[simp] theorem State.setAcc_b (s : State) (v : Nat) : (s.setAcc v).b = s.b := rfl
@[simp] theorem State.setAcc_acc (s : State) (v : Nat) : (s.setAcc v).acc = v := rfl
@[simp] theorem State.setAcc_seed (s : State) (v : Nat) : (s.setAcc v).seed = s.seed := rfl
@[simp] theorem State.setAcc_cmd (s : State) (v : Nat) : (s.setAcc v).cmd = s.cmd := rfl
@[simp] theorem State.setAcc_status (s : State) (v : Nat) : (s.setAcc v).status = s.status := rfl
@[simp] theorem State.setAcc_ie (s : State) (v : Nat) : (s.setAcc v).ie = s.ie := rfl
@[simp] theorem State.setAcc_result (s : State) (v : Nat) : (s.setAcc v).result = s.result := rfl
@[simp] theorem State.setAcc_aux (s : State) (v : Nat) : (s.setAcc v).aux = s.aux := rfl
@[simp] theorem State.setAcc_errInfo (s : State) (v : Nat) : (s.setAcc v).errInfo = s.errInfo := rfl
@[simp] theorem State.setAcc_errCmd (s : State) (v : Nat) : (s.setAcc v).errCmd = s.errCmd := rfl
@[simp] theorem State.setAcc_cmdSeq (s : State) (v : Nat) : (s.setAcc v).cmdSeq = s.cmdSeq := rfl
@[simp] theorem State.setAcc_rounds (s : State) (v : Nat) : (s.setAcc v).rounds = s.rounds := rfl
@[simp] theorem State.setAcc_maxTry (s : State) (v : Nat) : (s.setAcc v).maxTry = s.maxTry := rfl
@[simp] theorem State.setAcc_addr0 (s : State) (v : Nat) : (s.setAcc v).addr0 = s.addr0 := rfl
@[simp] theorem State.setAcc_len0 (s : State) (v : Nat) : (s.setAcc v).len0 = s.len0 := rfl
@[simp] theorem State.setAcc_addr1 (s : State) (v : Nat) : (s.setAcc v).addr1 = s.addr1 := rfl
@[simp] theorem State.setAcc_len1 (s : State) (v : Nat) : (s.setAcc v).len1 = s.len1 := rfl
@[simp] theorem State.setAcc_fbase (s : State) (v : Nat) : (s.setAcc v).fbase = s.fbase := rfl
@[simp] theorem State.setAcc_fwidth (s : State) (v : Nat) : (s.setAcc v).fwidth = s.fwidth := rfl
@[simp] theorem State.setAcc_fheight (s : State) (v : Nat) : (s.setAcc v).fheight = s.fheight := rfl
@[simp] theorem State.setAcc_fchan (s : State) (v : Nat) : (s.setAcc v).fchan = s.fchan := rfl
@[simp] theorem State.setAcc_mem (s : State) (v : Nat) : (s.setAcc v).mem = s.mem := rfl
@[simp] theorem State.setAcc_memEpoch (s : State) (v : Nat) : (s.setAcc v).memEpoch = s.memEpoch := rfl
@[simp] theorem State.setAcc_freeReads (s : State) (v : Nat) : (s.setAcc v).freeReads = s.freeReads := rfl
@[simp] theorem State.setAcc_portData (s : State) (v : Nat) : (s.setAcc v).portData = s.portData := rfl
@[simp] theorem State.setAcc_schedule (s : State) (v : Nat) : (s.setAcc v).schedule = s.schedule := rfl

@[simp] theorem State.setSeed_inst (s : State) (v : Seed) : (s.setSeed v).inst = s.inst := rfl
@[simp] theorem State.setSeed_b (s : State) (v : Seed) : (s.setSeed v).b = s.b := rfl
@[simp] theorem State.setSeed_acc (s : State) (v : Seed) : (s.setSeed v).acc = s.acc := rfl
@[simp] theorem State.setSeed_seed (s : State) (v : Seed) : (s.setSeed v).seed = v := rfl
@[simp] theorem State.setSeed_cmd (s : State) (v : Seed) : (s.setSeed v).cmd = s.cmd := rfl
@[simp] theorem State.setSeed_status (s : State) (v : Seed) : (s.setSeed v).status = s.status := rfl
@[simp] theorem State.setSeed_ie (s : State) (v : Seed) : (s.setSeed v).ie = s.ie := rfl
@[simp] theorem State.setSeed_result (s : State) (v : Seed) : (s.setSeed v).result = s.result := rfl
@[simp] theorem State.setSeed_aux (s : State) (v : Seed) : (s.setSeed v).aux = s.aux := rfl
@[simp] theorem State.setSeed_errInfo (s : State) (v : Seed) : (s.setSeed v).errInfo = s.errInfo := rfl
@[simp] theorem State.setSeed_errCmd (s : State) (v : Seed) : (s.setSeed v).errCmd = s.errCmd := rfl
@[simp] theorem State.setSeed_cmdSeq (s : State) (v : Seed) : (s.setSeed v).cmdSeq = s.cmdSeq := rfl
@[simp] theorem State.setSeed_rounds (s : State) (v : Seed) : (s.setSeed v).rounds = s.rounds := rfl
@[simp] theorem State.setSeed_maxTry (s : State) (v : Seed) : (s.setSeed v).maxTry = s.maxTry := rfl
@[simp] theorem State.setSeed_addr0 (s : State) (v : Seed) : (s.setSeed v).addr0 = s.addr0 := rfl
@[simp] theorem State.setSeed_len0 (s : State) (v : Seed) : (s.setSeed v).len0 = s.len0 := rfl
@[simp] theorem State.setSeed_addr1 (s : State) (v : Seed) : (s.setSeed v).addr1 = s.addr1 := rfl
@[simp] theorem State.setSeed_len1 (s : State) (v : Seed) : (s.setSeed v).len1 = s.len1 := rfl
@[simp] theorem State.setSeed_fbase (s : State) (v : Seed) : (s.setSeed v).fbase = s.fbase := rfl
@[simp] theorem State.setSeed_fwidth (s : State) (v : Seed) : (s.setSeed v).fwidth = s.fwidth := rfl
@[simp] theorem State.setSeed_fheight (s : State) (v : Seed) : (s.setSeed v).fheight = s.fheight := rfl
@[simp] theorem State.setSeed_fchan (s : State) (v : Seed) : (s.setSeed v).fchan = s.fchan := rfl
@[simp] theorem State.setSeed_mem (s : State) (v : Seed) : (s.setSeed v).mem = s.mem := rfl
@[simp] theorem State.setSeed_memEpoch (s : State) (v : Seed) : (s.setSeed v).memEpoch = s.memEpoch := rfl
@[simp] theorem State.setSeed_freeReads (s : State) (v : Seed) : (s.setSeed v).freeReads = s.freeReads := rfl
@[simp] theorem State.setSeed_portData (s : State) (v : Seed) : (s.setSeed v).portData = s.portData := rfl
@[simp] theorem State.setSeed_schedule (s : State) (v : Seed) : (s.setSeed v).schedule = s.schedule := rfl

@[simp] theorem State.setResult_inst (s : State) (v : Nat) : (s.setResult v).inst = s.inst := rfl
@[simp] theorem State.setResult_b (s : State) (v : Nat) : (s.setResult v).b = s.b := rfl
@[simp] theorem State.setResult_acc (s : State) (v : Nat) : (s.setResult v).acc = s.acc := rfl
@[simp] theorem State.setResult_seed (s : State) (v : Nat) : (s.setResult v).seed = s.seed := rfl
@[simp] theorem State.setResult_cmd (s : State) (v : Nat) : (s.setResult v).cmd = s.cmd := rfl
@[simp] theorem State.setResult_status (s : State) (v : Nat) : (s.setResult v).status = s.status := rfl
@[simp] theorem State.setResult_ie (s : State) (v : Nat) : (s.setResult v).ie = s.ie := rfl
@[simp] theorem State.setResult_result (s : State) (v : Nat) : (s.setResult v).result = BitVec.ofNat 32 v := rfl
@[simp] theorem State.setResult_aux (s : State) (v : Nat) : (s.setResult v).aux = s.aux := rfl
@[simp] theorem State.setResult_errInfo (s : State) (v : Nat) : (s.setResult v).errInfo = s.errInfo := rfl
@[simp] theorem State.setResult_errCmd (s : State) (v : Nat) : (s.setResult v).errCmd = s.errCmd := rfl
@[simp] theorem State.setResult_cmdSeq (s : State) (v : Nat) : (s.setResult v).cmdSeq = s.cmdSeq := rfl
@[simp] theorem State.setResult_rounds (s : State) (v : Nat) : (s.setResult v).rounds = s.rounds := rfl
@[simp] theorem State.setResult_maxTry (s : State) (v : Nat) : (s.setResult v).maxTry = s.maxTry := rfl
@[simp] theorem State.setResult_addr0 (s : State) (v : Nat) : (s.setResult v).addr0 = s.addr0 := rfl
@[simp] theorem State.setResult_len0 (s : State) (v : Nat) : (s.setResult v).len0 = s.len0 := rfl
@[simp] theorem State.setResult_addr1 (s : State) (v : Nat) : (s.setResult v).addr1 = s.addr1 := rfl
@[simp] theorem State.setResult_len1 (s : State) (v : Nat) : (s.setResult v).len1 = s.len1 := rfl
@[simp] theorem State.setResult_fbase (s : State) (v : Nat) : (s.setResult v).fbase = s.fbase := rfl
@[simp] theorem State.setResult_fwidth (s : State) (v : Nat) : (s.setResult v).fwidth = s.fwidth := rfl
@[simp] theorem State.setResult_fheight (s : State) (v : Nat) : (s.setResult v).fheight = s.fheight := rfl
@[simp] theorem State.setResult_fchan (s : State) (v : Nat) : (s.setResult v).fchan = s.fchan := rfl
@[simp] theorem State.setResult_mem (s : State) (v : Nat) : (s.setResult v).mem = s.mem := rfl
@[simp] theorem State.setResult_memEpoch (s : State) (v : Nat) : (s.setResult v).memEpoch = s.memEpoch := rfl
@[simp] theorem State.setResult_freeReads (s : State) (v : Nat) : (s.setResult v).freeReads = s.freeReads := rfl
@[simp] theorem State.setResult_portData (s : State) (v : Nat) : (s.setResult v).portData = s.portData := rfl
@[simp] theorem State.setResult_schedule (s : State) (v : Nat) : (s.setResult v).schedule = s.schedule := rfl

@[simp] theorem State.setAux_inst (s : State) (v : Nat) : (s.setAux v).inst = s.inst := rfl
@[simp] theorem State.setAux_b (s : State) (v : Nat) : (s.setAux v).b = s.b := rfl
@[simp] theorem State.setAux_acc (s : State) (v : Nat) : (s.setAux v).acc = s.acc := rfl
@[simp] theorem State.setAux_seed (s : State) (v : Nat) : (s.setAux v).seed = s.seed := rfl
@[simp] theorem State.setAux_cmd (s : State) (v : Nat) : (s.setAux v).cmd = s.cmd := rfl
@[simp] theorem State.setAux_status (s : State) (v : Nat) : (s.setAux v).status = s.status := rfl
@[simp] theorem State.setAux_ie (s : State) (v : Nat) : (s.setAux v).ie = s.ie := rfl
@[simp] theorem State.setAux_result (s : State) (v : Nat) : (s.setAux v).result = s.result := rfl
@[simp] theorem State.setAux_aux (s : State) (v : Nat) : (s.setAux v).aux = BitVec.ofNat 32 v := rfl
@[simp] theorem State.setAux_errInfo (s : State) (v : Nat) : (s.setAux v).errInfo = s.errInfo := rfl
@[simp] theorem State.setAux_errCmd (s : State) (v : Nat) : (s.setAux v).errCmd = s.errCmd := rfl
@[simp] theorem State.setAux_cmdSeq (s : State) (v : Nat) : (s.setAux v).cmdSeq = s.cmdSeq := rfl
@[simp] theorem State.setAux_rounds (s : State) (v : Nat) : (s.setAux v).rounds = s.rounds := rfl
@[simp] theorem State.setAux_maxTry (s : State) (v : Nat) : (s.setAux v).maxTry = s.maxTry := rfl
@[simp] theorem State.setAux_addr0 (s : State) (v : Nat) : (s.setAux v).addr0 = s.addr0 := rfl
@[simp] theorem State.setAux_len0 (s : State) (v : Nat) : (s.setAux v).len0 = s.len0 := rfl
@[simp] theorem State.setAux_addr1 (s : State) (v : Nat) : (s.setAux v).addr1 = s.addr1 := rfl
@[simp] theorem State.setAux_len1 (s : State) (v : Nat) : (s.setAux v).len1 = s.len1 := rfl
@[simp] theorem State.setAux_fbase (s : State) (v : Nat) : (s.setAux v).fbase = s.fbase := rfl
@[simp] theorem State.setAux_fwidth (s : State) (v : Nat) : (s.setAux v).fwidth = s.fwidth := rfl
@[simp] theorem State.setAux_fheight (s : State) (v : Nat) : (s.setAux v).fheight = s.fheight := rfl
@[simp] theorem State.setAux_fchan (s : State) (v : Nat) : (s.setAux v).fchan = s.fchan := rfl
@[simp] theorem State.setAux_mem (s : State) (v : Nat) : (s.setAux v).mem = s.mem := rfl
@[simp] theorem State.setAux_memEpoch (s : State) (v : Nat) : (s.setAux v).memEpoch = s.memEpoch := rfl
@[simp] theorem State.setAux_freeReads (s : State) (v : Nat) : (s.setAux v).freeReads = s.freeReads := rfl
@[simp] theorem State.setAux_portData (s : State) (v : Nat) : (s.setAux v).portData = s.portData := rfl
@[simp] theorem State.setAux_schedule (s : State) (v : Nat) : (s.setAux v).schedule = s.schedule := rfl

@[simp] theorem State.setT_inst (s : State) (v : Bool) : (s.setT v).inst = s.inst := rfl
@[simp] theorem State.setT_b (s : State) (v : Bool) : (s.setT v).b = s.b := rfl
@[simp] theorem State.setT_acc (s : State) (v : Bool) : (s.setT v).acc = s.acc := rfl
@[simp] theorem State.setT_seed (s : State) (v : Bool) : (s.setT v).seed = s.seed := rfl
@[simp] theorem State.setT_cmd (s : State) (v : Bool) : (s.setT v).cmd = s.cmd := rfl
@[simp] theorem State.setT_status (s : State) (v : Bool) : (s.setT v).status = { s.status with t := v } := rfl
@[simp] theorem State.setT_ie (s : State) (v : Bool) : (s.setT v).ie = s.ie := rfl
@[simp] theorem State.setT_result (s : State) (v : Bool) : (s.setT v).result = s.result := rfl
@[simp] theorem State.setT_aux (s : State) (v : Bool) : (s.setT v).aux = s.aux := rfl
@[simp] theorem State.setT_errInfo (s : State) (v : Bool) : (s.setT v).errInfo = s.errInfo := rfl
@[simp] theorem State.setT_errCmd (s : State) (v : Bool) : (s.setT v).errCmd = s.errCmd := rfl
@[simp] theorem State.setT_cmdSeq (s : State) (v : Bool) : (s.setT v).cmdSeq = s.cmdSeq := rfl
@[simp] theorem State.setT_rounds (s : State) (v : Bool) : (s.setT v).rounds = s.rounds := rfl
@[simp] theorem State.setT_maxTry (s : State) (v : Bool) : (s.setT v).maxTry = s.maxTry := rfl
@[simp] theorem State.setT_addr0 (s : State) (v : Bool) : (s.setT v).addr0 = s.addr0 := rfl
@[simp] theorem State.setT_len0 (s : State) (v : Bool) : (s.setT v).len0 = s.len0 := rfl
@[simp] theorem State.setT_addr1 (s : State) (v : Bool) : (s.setT v).addr1 = s.addr1 := rfl
@[simp] theorem State.setT_len1 (s : State) (v : Bool) : (s.setT v).len1 = s.len1 := rfl
@[simp] theorem State.setT_fbase (s : State) (v : Bool) : (s.setT v).fbase = s.fbase := rfl
@[simp] theorem State.setT_fwidth (s : State) (v : Bool) : (s.setT v).fwidth = s.fwidth := rfl
@[simp] theorem State.setT_fheight (s : State) (v : Bool) : (s.setT v).fheight = s.fheight := rfl
@[simp] theorem State.setT_fchan (s : State) (v : Bool) : (s.setT v).fchan = s.fchan := rfl
@[simp] theorem State.setT_mem (s : State) (v : Bool) : (s.setT v).mem = s.mem := rfl
@[simp] theorem State.setT_memEpoch (s : State) (v : Bool) : (s.setT v).memEpoch = s.memEpoch := rfl
@[simp] theorem State.setT_freeReads (s : State) (v : Bool) : (s.setT v).freeReads = s.freeReads := rfl
@[simp] theorem State.setT_portData (s : State) (v : Bool) : (s.setT v).portData = s.portData := rfl
@[simp] theorem State.setT_schedule (s : State) (v : Bool) : (s.setT v).schedule = s.schedule := rfl

@[simp] theorem State.setHaz_inst (s : State) : (s.setHaz).inst = s.inst := rfl
@[simp] theorem State.setHaz_b (s : State) : (s.setHaz).b = s.b := rfl
@[simp] theorem State.setHaz_acc (s : State) : (s.setHaz).acc = s.acc := rfl
@[simp] theorem State.setHaz_seed (s : State) : (s.setHaz).seed = s.seed := rfl
@[simp] theorem State.setHaz_cmd (s : State) : (s.setHaz).cmd = s.cmd := rfl
@[simp] theorem State.setHaz_status (s : State) : (s.setHaz).status = { s.status with haz := true } := rfl
@[simp] theorem State.setHaz_ie (s : State) : (s.setHaz).ie = s.ie := rfl
@[simp] theorem State.setHaz_result (s : State) : (s.setHaz).result = s.result := rfl
@[simp] theorem State.setHaz_aux (s : State) : (s.setHaz).aux = s.aux := rfl
@[simp] theorem State.setHaz_errInfo (s : State) : (s.setHaz).errInfo = s.errInfo := rfl
@[simp] theorem State.setHaz_errCmd (s : State) : (s.setHaz).errCmd = s.errCmd := rfl
@[simp] theorem State.setHaz_cmdSeq (s : State) : (s.setHaz).cmdSeq = s.cmdSeq := rfl
@[simp] theorem State.setHaz_rounds (s : State) : (s.setHaz).rounds = s.rounds := rfl
@[simp] theorem State.setHaz_maxTry (s : State) : (s.setHaz).maxTry = s.maxTry := rfl
@[simp] theorem State.setHaz_addr0 (s : State) : (s.setHaz).addr0 = s.addr0 := rfl
@[simp] theorem State.setHaz_len0 (s : State) : (s.setHaz).len0 = s.len0 := rfl
@[simp] theorem State.setHaz_addr1 (s : State) : (s.setHaz).addr1 = s.addr1 := rfl
@[simp] theorem State.setHaz_len1 (s : State) : (s.setHaz).len1 = s.len1 := rfl
@[simp] theorem State.setHaz_fbase (s : State) : (s.setHaz).fbase = s.fbase := rfl
@[simp] theorem State.setHaz_fwidth (s : State) : (s.setHaz).fwidth = s.fwidth := rfl
@[simp] theorem State.setHaz_fheight (s : State) : (s.setHaz).fheight = s.fheight := rfl
@[simp] theorem State.setHaz_fchan (s : State) : (s.setHaz).fchan = s.fchan := rfl
@[simp] theorem State.setHaz_mem (s : State) : (s.setHaz).mem = s.mem := rfl
@[simp] theorem State.setHaz_memEpoch (s : State) : (s.setHaz).memEpoch = s.memEpoch := rfl
@[simp] theorem State.setHaz_freeReads (s : State) : (s.setHaz).freeReads = s.freeReads := rfl
@[simp] theorem State.setHaz_portData (s : State) : (s.setHaz).portData = s.portData := rfl
@[simp] theorem State.setHaz_schedule (s : State) : (s.setHaz).schedule = s.schedule := rfl

@[simp] theorem State.retire_inst (s : State) : (s.retire).inst = s.inst := rfl
@[simp] theorem State.retire_b (s : State) : (s.retire).b = s.b := rfl
@[simp] theorem State.retire_acc (s : State) : (s.retire).acc = s.acc := rfl
@[simp] theorem State.retire_seed (s : State) : (s.retire).seed = s.seed := rfl
@[simp] theorem State.retire_cmd (s : State) : (s.retire).cmd = s.cmd := rfl
@[simp] theorem State.retire_status (s : State) : (s.retire).status = { s.status with busy := false, done := true } := rfl
@[simp] theorem State.retire_ie (s : State) : (s.retire).ie = s.ie := rfl
@[simp] theorem State.retire_result (s : State) : (s.retire).result = s.result := rfl
@[simp] theorem State.retire_aux (s : State) : (s.retire).aux = s.aux := rfl
@[simp] theorem State.retire_errInfo (s : State) : (s.retire).errInfo = s.errInfo := rfl
@[simp] theorem State.retire_errCmd (s : State) : (s.retire).errCmd = s.errCmd := rfl
@[simp] theorem State.retire_cmdSeq (s : State) : (s.retire).cmdSeq = s.cmdSeq + 1 := rfl
@[simp] theorem State.retire_rounds (s : State) : (s.retire).rounds = s.rounds := rfl
@[simp] theorem State.retire_maxTry (s : State) : (s.retire).maxTry = s.maxTry := rfl
@[simp] theorem State.retire_addr0 (s : State) : (s.retire).addr0 = s.addr0 := rfl
@[simp] theorem State.retire_len0 (s : State) : (s.retire).len0 = s.len0 := rfl
@[simp] theorem State.retire_addr1 (s : State) : (s.retire).addr1 = s.addr1 := rfl
@[simp] theorem State.retire_len1 (s : State) : (s.retire).len1 = s.len1 := rfl
@[simp] theorem State.retire_fbase (s : State) : (s.retire).fbase = s.fbase := rfl
@[simp] theorem State.retire_fwidth (s : State) : (s.retire).fwidth = s.fwidth := rfl
@[simp] theorem State.retire_fheight (s : State) : (s.retire).fheight = s.fheight := rfl
@[simp] theorem State.retire_fchan (s : State) : (s.retire).fchan = s.fchan := rfl
@[simp] theorem State.retire_mem (s : State) : (s.retire).mem = s.mem := rfl
@[simp] theorem State.retire_memEpoch (s : State) : (s.retire).memEpoch = s.memEpoch := rfl
@[simp] theorem State.retire_freeReads (s : State) : (s.retire).freeReads = s.freeReads := rfl
@[simp] theorem State.retire_portData (s : State) : (s.retire).portData = s.portData := rfl
@[simp] theorem State.retire_schedule (s : State) : (s.retire).schedule = s.schedule := rfl

@[simp] theorem State.issue_inst (s : State) (v : Word) : (s.issue v).inst = s.inst := rfl
@[simp] theorem State.issue_b (s : State) (v : Word) : (s.issue v).b = s.b := rfl
@[simp] theorem State.issue_acc (s : State) (v : Word) : (s.issue v).acc = s.acc := rfl
@[simp] theorem State.issue_seed (s : State) (v : Word) : (s.issue v).seed = s.seed := rfl
@[simp] theorem State.issue_cmd (s : State) (v : Word) : (s.issue v).cmd = v := rfl
@[simp] theorem State.issue_status (s : State) (v : Word) : (s.issue v).status = { s.status with busy := true, done := false } := rfl
@[simp] theorem State.issue_ie (s : State) (v : Word) : (s.issue v).ie = s.ie := rfl
@[simp] theorem State.issue_result (s : State) (v : Word) : (s.issue v).result = s.result := rfl
@[simp] theorem State.issue_aux (s : State) (v : Word) : (s.issue v).aux = s.aux := rfl
@[simp] theorem State.issue_errInfo (s : State) (v : Word) : (s.issue v).errInfo = s.errInfo := rfl
@[simp] theorem State.issue_errCmd (s : State) (v : Word) : (s.issue v).errCmd = s.errCmd := rfl
@[simp] theorem State.issue_cmdSeq (s : State) (v : Word) : (s.issue v).cmdSeq = s.cmdSeq := rfl
@[simp] theorem State.issue_rounds (s : State) (v : Word) : (s.issue v).rounds = s.rounds := rfl
@[simp] theorem State.issue_maxTry (s : State) (v : Word) : (s.issue v).maxTry = s.maxTry := rfl
@[simp] theorem State.issue_addr0 (s : State) (v : Word) : (s.issue v).addr0 = s.addr0 := rfl
@[simp] theorem State.issue_len0 (s : State) (v : Word) : (s.issue v).len0 = s.len0 := rfl
@[simp] theorem State.issue_addr1 (s : State) (v : Word) : (s.issue v).addr1 = s.addr1 := rfl
@[simp] theorem State.issue_len1 (s : State) (v : Word) : (s.issue v).len1 = s.len1 := rfl
@[simp] theorem State.issue_fbase (s : State) (v : Word) : (s.issue v).fbase = s.fbase := rfl
@[simp] theorem State.issue_fwidth (s : State) (v : Word) : (s.issue v).fwidth = s.fwidth := rfl
@[simp] theorem State.issue_fheight (s : State) (v : Word) : (s.issue v).fheight = s.fheight := rfl
@[simp] theorem State.issue_fchan (s : State) (v : Word) : (s.issue v).fchan = s.fchan := rfl
@[simp] theorem State.issue_mem (s : State) (v : Word) : (s.issue v).mem = s.mem := rfl
@[simp] theorem State.issue_memEpoch (s : State) (v : Word) : (s.issue v).memEpoch = s.memEpoch := rfl
@[simp] theorem State.issue_freeReads (s : State) (v : Word) : (s.issue v).freeReads = s.freeReads := rfl
@[simp] theorem State.issue_portData (s : State) (v : Word) : (s.issue v).portData = s.portData := rfl
@[simp] theorem State.issue_schedule (s : State) (v : Word) : (s.issue v).schedule = s.schedule := rfl

@[simp] theorem State.clearStatus_inst (s : State) (v : Word) : (s.clearStatus v).inst = s.inst := rfl
@[simp] theorem State.clearStatus_b (s : State) (v : Word) : (s.clearStatus v).b = s.b := rfl
@[simp] theorem State.clearStatus_acc (s : State) (v : Word) : (s.clearStatus v).acc = s.acc := rfl
@[simp] theorem State.clearStatus_seed (s : State) (v : Word) : (s.clearStatus v).seed = s.seed := rfl
@[simp] theorem State.clearStatus_cmd (s : State) (v : Word) : (s.clearStatus v).cmd = s.cmd := rfl
@[simp] theorem State.clearStatus_ie (s : State) (v : Word) : (s.clearStatus v).ie = s.ie := rfl
@[simp] theorem State.clearStatus_result (s : State) (v : Word) : (s.clearStatus v).result = s.result := rfl
@[simp] theorem State.clearStatus_aux (s : State) (v : Word) : (s.clearStatus v).aux = s.aux := rfl
@[simp] theorem State.clearStatus_errInfo (s : State) (v : Word) : (s.clearStatus v).errInfo = s.errInfo := rfl
@[simp] theorem State.clearStatus_errCmd (s : State) (v : Word) : (s.clearStatus v).errCmd = s.errCmd := rfl
@[simp] theorem State.clearStatus_cmdSeq (s : State) (v : Word) : (s.clearStatus v).cmdSeq = s.cmdSeq := rfl
@[simp] theorem State.clearStatus_rounds (s : State) (v : Word) : (s.clearStatus v).rounds = s.rounds := rfl
@[simp] theorem State.clearStatus_maxTry (s : State) (v : Word) : (s.clearStatus v).maxTry = s.maxTry := rfl
@[simp] theorem State.clearStatus_addr0 (s : State) (v : Word) : (s.clearStatus v).addr0 = s.addr0 := rfl
@[simp] theorem State.clearStatus_len0 (s : State) (v : Word) : (s.clearStatus v).len0 = s.len0 := rfl
@[simp] theorem State.clearStatus_addr1 (s : State) (v : Word) : (s.clearStatus v).addr1 = s.addr1 := rfl
@[simp] theorem State.clearStatus_len1 (s : State) (v : Word) : (s.clearStatus v).len1 = s.len1 := rfl
@[simp] theorem State.clearStatus_fbase (s : State) (v : Word) : (s.clearStatus v).fbase = s.fbase := rfl
@[simp] theorem State.clearStatus_fwidth (s : State) (v : Word) : (s.clearStatus v).fwidth = s.fwidth := rfl
@[simp] theorem State.clearStatus_fheight (s : State) (v : Word) : (s.clearStatus v).fheight = s.fheight := rfl
@[simp] theorem State.clearStatus_fchan (s : State) (v : Word) : (s.clearStatus v).fchan = s.fchan := rfl
@[simp] theorem State.clearStatus_mem (s : State) (v : Word) : (s.clearStatus v).mem = s.mem := rfl
@[simp] theorem State.clearStatus_memEpoch (s : State) (v : Word) : (s.clearStatus v).memEpoch = s.memEpoch := rfl
@[simp] theorem State.clearStatus_freeReads (s : State) (v : Word) : (s.clearStatus v).freeReads = s.freeReads := rfl
@[simp] theorem State.clearStatus_portData (s : State) (v : Word) : (s.clearStatus v).portData = s.portData := rfl
@[simp] theorem State.clearStatus_schedule (s : State) (v : Word) : (s.clearStatus v).schedule = s.schedule := rfl

@[simp] theorem State.writeBytes_inst (s : State) (a : Nat) (l : List Byte) : (s.writeBytes a l).inst = s.inst := rfl
@[simp] theorem State.writeBytes_b (s : State) (a : Nat) (l : List Byte) : (s.writeBytes a l).b = s.b := rfl
@[simp] theorem State.writeBytes_acc (s : State) (a : Nat) (l : List Byte) : (s.writeBytes a l).acc = s.acc := rfl
@[simp] theorem State.writeBytes_seed (s : State) (a : Nat) (l : List Byte) : (s.writeBytes a l).seed = s.seed := rfl
@[simp] theorem State.writeBytes_cmd (s : State) (a : Nat) (l : List Byte) : (s.writeBytes a l).cmd = s.cmd := rfl
@[simp] theorem State.writeBytes_status (s : State) (a : Nat) (l : List Byte) : (s.writeBytes a l).status = s.status := rfl
@[simp] theorem State.writeBytes_ie (s : State) (a : Nat) (l : List Byte) : (s.writeBytes a l).ie = s.ie := rfl
@[simp] theorem State.writeBytes_result (s : State) (a : Nat) (l : List Byte) : (s.writeBytes a l).result = s.result := rfl
@[simp] theorem State.writeBytes_aux (s : State) (a : Nat) (l : List Byte) : (s.writeBytes a l).aux = s.aux := rfl
@[simp] theorem State.writeBytes_errInfo (s : State) (a : Nat) (l : List Byte) : (s.writeBytes a l).errInfo = s.errInfo := rfl
@[simp] theorem State.writeBytes_errCmd (s : State) (a : Nat) (l : List Byte) : (s.writeBytes a l).errCmd = s.errCmd := rfl
@[simp] theorem State.writeBytes_cmdSeq (s : State) (a : Nat) (l : List Byte) : (s.writeBytes a l).cmdSeq = s.cmdSeq := rfl
@[simp] theorem State.writeBytes_rounds (s : State) (a : Nat) (l : List Byte) : (s.writeBytes a l).rounds = s.rounds := rfl
@[simp] theorem State.writeBytes_maxTry (s : State) (a : Nat) (l : List Byte) : (s.writeBytes a l).maxTry = s.maxTry := rfl
@[simp] theorem State.writeBytes_addr0 (s : State) (a : Nat) (l : List Byte) : (s.writeBytes a l).addr0 = s.addr0 := rfl
@[simp] theorem State.writeBytes_len0 (s : State) (a : Nat) (l : List Byte) : (s.writeBytes a l).len0 = s.len0 := rfl
@[simp] theorem State.writeBytes_addr1 (s : State) (a : Nat) (l : List Byte) : (s.writeBytes a l).addr1 = s.addr1 := rfl
@[simp] theorem State.writeBytes_len1 (s : State) (a : Nat) (l : List Byte) : (s.writeBytes a l).len1 = s.len1 := rfl
@[simp] theorem State.writeBytes_fbase (s : State) (a : Nat) (l : List Byte) : (s.writeBytes a l).fbase = s.fbase := rfl
@[simp] theorem State.writeBytes_fwidth (s : State) (a : Nat) (l : List Byte) : (s.writeBytes a l).fwidth = s.fwidth := rfl
@[simp] theorem State.writeBytes_fheight (s : State) (a : Nat) (l : List Byte) : (s.writeBytes a l).fheight = s.fheight := rfl
@[simp] theorem State.writeBytes_fchan (s : State) (a : Nat) (l : List Byte) : (s.writeBytes a l).fchan = s.fchan := rfl
@[simp] theorem State.writeBytes_mem (s : State) (a : Nat) (l : List Byte) : (s.writeBytes a l).mem = Memory.putBytes s.mem a l := rfl
@[simp] theorem State.writeBytes_memEpoch (s : State) (a : Nat) (l : List Byte) : (s.writeBytes a l).memEpoch = s.memEpoch := rfl
@[simp] theorem State.writeBytes_freeReads (s : State) (a : Nat) (l : List Byte) : (s.writeBytes a l).freeReads = s.freeReads := rfl
@[simp] theorem State.writeBytes_portData (s : State) (a : Nat) (l : List Byte) : (s.writeBytes a l).portData = s.portData := rfl
@[simp] theorem State.writeBytes_schedule (s : State) (a : Nat) (l : List Byte) : (s.writeBytes a l).schedule = s.schedule := rfl

@[simp] theorem State.embedStream_inst (s : State) (u : List Bool) : (s.embedStream u).inst = s.inst := rfl
@[simp] theorem State.embedStream_b (s : State) (u : List Bool) : (s.embedStream u).b = s.b := rfl
@[simp] theorem State.embedStream_acc (s : State) (u : List Bool) : (s.embedStream u).acc = s.acc := rfl
@[simp] theorem State.embedStream_seed (s : State) (u : List Bool) : (s.embedStream u).seed = s.seed := rfl
@[simp] theorem State.embedStream_cmd (s : State) (u : List Bool) : (s.embedStream u).cmd = s.cmd := rfl
@[simp] theorem State.embedStream_status (s : State) (u : List Bool) : (s.embedStream u).status = s.status := rfl
@[simp] theorem State.embedStream_ie (s : State) (u : List Bool) : (s.embedStream u).ie = s.ie := rfl
@[simp] theorem State.embedStream_result (s : State) (u : List Bool) : (s.embedStream u).result = s.result := rfl
@[simp] theorem State.embedStream_aux (s : State) (u : List Bool) : (s.embedStream u).aux = s.aux := rfl
@[simp] theorem State.embedStream_errInfo (s : State) (u : List Bool) : (s.embedStream u).errInfo = s.errInfo := rfl
@[simp] theorem State.embedStream_errCmd (s : State) (u : List Bool) : (s.embedStream u).errCmd = s.errCmd := rfl
@[simp] theorem State.embedStream_cmdSeq (s : State) (u : List Bool) : (s.embedStream u).cmdSeq = s.cmdSeq := rfl
@[simp] theorem State.embedStream_rounds (s : State) (u : List Bool) : (s.embedStream u).rounds = s.rounds := rfl
@[simp] theorem State.embedStream_maxTry (s : State) (u : List Bool) : (s.embedStream u).maxTry = s.maxTry := rfl
@[simp] theorem State.embedStream_addr0 (s : State) (u : List Bool) : (s.embedStream u).addr0 = s.addr0 := rfl
@[simp] theorem State.embedStream_len0 (s : State) (u : List Bool) : (s.embedStream u).len0 = s.len0 := rfl
@[simp] theorem State.embedStream_addr1 (s : State) (u : List Bool) : (s.embedStream u).addr1 = s.addr1 := rfl
@[simp] theorem State.embedStream_len1 (s : State) (u : List Bool) : (s.embedStream u).len1 = s.len1 := rfl
@[simp] theorem State.embedStream_fbase (s : State) (u : List Bool) : (s.embedStream u).fbase = s.fbase := rfl
@[simp] theorem State.embedStream_fwidth (s : State) (u : List Bool) : (s.embedStream u).fwidth = s.fwidth := rfl
@[simp] theorem State.embedStream_fheight (s : State) (u : List Bool) : (s.embedStream u).fheight = s.fheight := rfl
@[simp] theorem State.embedStream_fchan (s : State) (u : List Bool) : (s.embedStream u).fchan = s.fchan := rfl
@[simp] theorem State.embedStream_mem (s : State) (u : List Bool) : (s.embedStream u).mem = s.embedMem s.mem 0 u := rfl
@[simp] theorem State.embedStream_memEpoch (s : State) (u : List Bool) : (s.embedStream u).memEpoch = s.memEpoch := rfl
@[simp] theorem State.embedStream_freeReads (s : State) (u : List Bool) : (s.embedStream u).freeReads = s.freeReads := rfl
@[simp] theorem State.embedStream_portData (s : State) (u : List Bool) : (s.embedStream u).portData = s.portData := rfl
@[simp] theorem State.embedStream_schedule (s : State) (u : List Bool) : (s.embedStream u).schedule = s.schedule := rfl

@[simp] theorem State.record_inst (s : State) (c : Cause) : (s.record c).inst = s.inst := by unfold State.record; split <;> rfl
@[simp] theorem State.record_b (s : State) (c : Cause) : (s.record c).b = s.b := by unfold State.record; split <;> rfl
@[simp] theorem State.record_acc (s : State) (c : Cause) : (s.record c).acc = s.acc := by unfold State.record; split <;> rfl
@[simp] theorem State.record_seed (s : State) (c : Cause) : (s.record c).seed = s.seed := by unfold State.record; split <;> rfl
@[simp] theorem State.record_cmd (s : State) (c : Cause) : (s.record c).cmd = s.cmd := by unfold State.record; split <;> rfl
@[simp] theorem State.record_ie (s : State) (c : Cause) : (s.record c).ie = s.ie := by unfold State.record; split <;> rfl
@[simp] theorem State.record_result (s : State) (c : Cause) : (s.record c).result = s.result := by unfold State.record; split <;> rfl
@[simp] theorem State.record_aux (s : State) (c : Cause) : (s.record c).aux = s.aux := by unfold State.record; split <;> rfl
@[simp] theorem State.record_cmdSeq (s : State) (c : Cause) : (s.record c).cmdSeq = s.cmdSeq := by unfold State.record; split <;> rfl
@[simp] theorem State.record_rounds (s : State) (c : Cause) : (s.record c).rounds = s.rounds := by unfold State.record; split <;> rfl
@[simp] theorem State.record_maxTry (s : State) (c : Cause) : (s.record c).maxTry = s.maxTry := by unfold State.record; split <;> rfl
@[simp] theorem State.record_addr0 (s : State) (c : Cause) : (s.record c).addr0 = s.addr0 := by unfold State.record; split <;> rfl
@[simp] theorem State.record_len0 (s : State) (c : Cause) : (s.record c).len0 = s.len0 := by unfold State.record; split <;> rfl
@[simp] theorem State.record_addr1 (s : State) (c : Cause) : (s.record c).addr1 = s.addr1 := by unfold State.record; split <;> rfl
@[simp] theorem State.record_len1 (s : State) (c : Cause) : (s.record c).len1 = s.len1 := by unfold State.record; split <;> rfl
@[simp] theorem State.record_fbase (s : State) (c : Cause) : (s.record c).fbase = s.fbase := by unfold State.record; split <;> rfl
@[simp] theorem State.record_fwidth (s : State) (c : Cause) : (s.record c).fwidth = s.fwidth := by unfold State.record; split <;> rfl
@[simp] theorem State.record_fheight (s : State) (c : Cause) : (s.record c).fheight = s.fheight := by unfold State.record; split <;> rfl
@[simp] theorem State.record_fchan (s : State) (c : Cause) : (s.record c).fchan = s.fchan := by unfold State.record; split <;> rfl
@[simp] theorem State.record_mem (s : State) (c : Cause) : (s.record c).mem = s.mem := by unfold State.record; split <;> rfl
@[simp] theorem State.record_memEpoch (s : State) (c : Cause) : (s.record c).memEpoch = s.memEpoch := by unfold State.record; split <;> rfl
@[simp] theorem State.record_freeReads (s : State) (c : Cause) : (s.record c).freeReads = s.freeReads := by unfold State.record; split <;> rfl
@[simp] theorem State.record_portData (s : State) (c : Cause) : (s.record c).portData = s.portData := by unfold State.record; split <;> rfl
@[simp] theorem State.record_schedule (s : State) (c : Cause) : (s.record c).schedule = s.schedule := by unfold State.record; split <;> rfl

@[simp] theorem State.setAcc_reg (s : State) (v : Nat) (q : Reg) : (s.setAcc v).reg q = s.reg q := rfl
@[simp] theorem State.setSeed_reg (s : State) (v : Seed) (q : Reg) : (s.setSeed v).reg q = s.reg q := rfl
@[simp] theorem State.setResult_reg (s : State) (v : Nat) (q : Reg) : (s.setResult v).reg q = s.reg q := rfl
@[simp] theorem State.setAux_reg (s : State) (v : Nat) (q : Reg) : (s.setAux v).reg q = s.reg q := rfl
@[simp] theorem State.setT_reg (s : State) (v : Bool) (q : Reg) : (s.setT v).reg q = s.reg q := rfl
@[simp] theorem State.setHaz_reg (s : State) (q : Reg) : (s.setHaz).reg q = s.reg q := rfl
@[simp] theorem State.retire_reg (s : State) (q : Reg) : (s.retire).reg q = s.reg q := rfl
@[simp] theorem State.issue_reg (s : State) (v : Word) (q : Reg) : (s.issue v).reg q = s.reg q := rfl
@[simp] theorem State.clearStatus_reg (s : State) (v : Word) (q : Reg) : (s.clearStatus v).reg q = s.reg q := rfl
@[simp] theorem State.writeBytes_reg (s : State) (a : Nat) (l : List Byte) (q : Reg) : (s.writeBytes a l).reg q = s.reg q := rfl
@[simp] theorem State.embedStream_reg (s : State) (u : List Bool) (q : Reg) : (s.embedStream u).reg q = s.reg q := rfl
@[simp] theorem State.record_reg (s : State) (c : Cause) (q : Reg) : (s.record c).reg q = s.reg q := by simp [State.reg]

/-- Reading the register file after a write to it. -/
@[simp] theorem RegFile.get_set (f : RegFile) (r q : Reg) (v : Nat) :
    (f.set r v).get q = if q = r then v else f.get q := by
  cases r <;> cases q <;> rfl

@[simp] theorem State.setReg_reg (s : State) (r q : Reg) (v : Nat) :
    (s.setReg r v).reg q = if q = r then v else s.reg q := RegFile.get_set s.b r q v

@[simp] theorem RegFile.zero_get (q : Reg) : RegFile.zero.get q = 0 := by cases q <;> rfl

end Sys2Proof.Machine
end

