-- ==== Sys2Proof/Laws/Memory.lean ====
section
/-! SUPPORT. Memory: a read after a write, the canonical form, the range of the listed addresses. -/

namespace Sys2Proof.Machine

/-- A read after a write gives the byte written at its address, every other byte as before. -/
theorem Memory.lookup_put (m : Memory) (a x : Nat) (v : Byte) :
    Memory.lookup (Memory.put m a v) x = if x = a then some v else Memory.lookup m x := by
  induction m with
  | nil => simp [Memory.put, Memory.lookup, eq_comm]
  | cons c rest ih =>
    unfold Memory.put
    split
    · simp [Memory.lookup, eq_comm]
    · split
      · next h => subst h; by_cases hx : x = c.1 <;> simp [Memory.lookup, hx, eq_comm]
      · by_cases hc : c.1 = x
        · have : x ≠ a := by omega
          simp [Memory.lookup, hc, this]
        · simp [Memory.lookup, hc, ih]

/-- Writing one byte keeps the addresses rising. -/
theorem Memory.risesFrom_put (m : Memory) (lo a : Nat) (v : Byte) (ha : lo ≤ a)
    (h : Memory.risesFrom lo m = true) : Memory.risesFrom lo (Memory.put m a v) = true := by
  induction m generalizing lo with
  | nil => simp [Memory.put, Memory.risesFrom, ha]
  | cons c rest ih =>
    simp only [Memory.risesFrom, Bool.and_eq_true, decide_eq_true_eq] at h
    unfold Memory.put
    split
    · next hlt => simp [Memory.risesFrom, ha, h.2]; omega
    · split
      · next heq => subst heq; simp [Memory.risesFrom, ha, h.2]
      · simp [Memory.risesFrom, h.1, ih (c.1 + 1) (by omega) h.2]

/-- Writing one byte keeps the canonical form. -/
theorem Memory.wf_put (m : Memory) (a : Nat) (v : Byte) (h : Memory.wf m = true) :
    Memory.wf (Memory.put m a v) = true := Memory.risesFrom_put m 0 a v (Nat.zero_le a) h

/-- The addresses listed after a write: the old ones and the one written. -/
theorem Memory.mem_put (m : Memory) (a : Nat) (v : Byte) (c : Host.Cell) (h : c ∈ Memory.put m a v) :
    c = (a, v) ∨ c ∈ m := by
  induction m with
  | nil => simpa [Memory.put] using h
  | cons d rest ih =>
    unfold Memory.put at h
    split at h
    · simpa using h
    · split at h
      · simp only [List.mem_cons] at h ⊢; tauto
      · simp only [List.mem_cons] at h ⊢
        rcases h with h | h
        · exact Or.inr (Or.inl h)
        · rcases ih h with h | h
          · exact Or.inl h
          · exact Or.inr (Or.inr h)

/-- Storing a string keeps the canonical form. -/
theorem Memory.wf_putBytes (m : Memory) (a : Nat) (l : List Byte) (h : Memory.wf m = true) :
    Memory.wf (Memory.putBytes m a l) = true := by
  induction l generalizing m a with
  | nil => exact h
  | cons x rest ih => exact ih _ _ (Memory.wf_put m a x h)

/-- The addresses listed after storing a string: the old ones and those of the string. -/
theorem Memory.mem_putBytes (m : Memory) (a : Nat) (l : List Byte) (c : Host.Cell)
    (h : c ∈ Memory.putBytes m a l) : (a ≤ c.1 ∧ c.1 < a + l.length) ∨ c ∈ m := by
  induction l generalizing m a with
  | nil => exact Or.inr h
  | cons x rest ih =>
    rcases ih _ _ h with h | h
    · left; simp only [List.length_cons]; omega
    · rcases Memory.mem_put m a x c h with h | h
      · left; subst h; simp
      · exact Or.inr h

/-- A read after storing a string: the string's byte inside it, every other byte as before. -/
theorem Memory.lookup_putBytes (m : Memory) (a x : Nat) (l : List Byte) :
    Memory.lookup (Memory.putBytes m a l) x =
      if a ≤ x ∧ x < a + l.length then some (l.getD (x - a) 0) else Memory.lookup m x := by
  induction l generalizing m a with
  | nil =>
    have : ¬ (a ≤ x ∧ x < a + ([] : List Byte).length) := by simp
    rw [if_neg this]; rfl
  | cons v rest ih =>
    simp only [Memory.putBytes, ih, Memory.lookup_put, List.length_cons]
    by_cases hx : x = a
    · subst hx; simp
    · by_cases h1 : a + 1 ≤ x ∧ x < a + 1 + rest.length
      · have h2 : a ≤ x ∧ x < a + (rest.length + 1) := by omega
        have h3 : x - a = (x - (a + 1)) + 1 := by omega
        simp [h1, h2, h3]
      · have h2 : ¬ (a ≤ x ∧ x < a + (rest.length + 1)) := by omega
        rw [if_neg h1, if_neg h2, if_neg hx]

/-- A byte read after storing a string. -/
theorem State.readByte_writeBytes (s : State) (a x : Nat) (l : List Byte) :
    (s.writeBytes a l).readByte x =
      if a ≤ x ∧ x < a + l.length then l.getD (x - a) 0 else s.readByte x := by
  unfold State.readByte
  rw [State.writeBytes_mem, Memory.lookup_putBytes]
  split <;> rfl

@[simp] theorem State.readBytes_length (s : State) (a n : Nat) : (s.readBytes a n).length = n := by
  induction n generalizing a with
  | zero => rfl
  | succ k ih => simp [State.readBytes, ih]

/-- The bytes of a window, one by one. -/
theorem State.readBytes_getElem (s : State) (a n i : Nat) (h : i < (s.readBytes a n).length) :
    (s.readBytes a n)[i] = s.readByte (a + i) := by
  induction n generalizing a i with
  | zero => simp [State.readBytes] at h
  | succ k ih =>
    cases i with
    | zero => simp [State.readBytes]
    | succ j =>
      simp only [State.readBytes, List.getElem_cons_succ]
      rw [ih (a + 1) j (by simpa using h)]
      congr 1; omega

/-- Reading a window back right after storing it gives the string. -/
theorem State.readBytes_writeBytes (s : State) (a : Nat) (l : List Byte) :
    (s.writeBytes a l).readBytes a l.length = l := by
  apply List.ext_getElem (by simp)
  intro i h1 h2
  rw [State.readBytes_getElem, State.readByte_writeBytes]
  have : a ≤ a + i ∧ a + i < a + l.length := by simp at h1; omega
  simp only [this, and_self, ↓reduceIte]
  rw [Nat.add_sub_cancel_left, List.getD_eq_getElem _ _ h2]

/-- Windows are read from the bytes alone: states that agree on a window read the same string. -/
theorem State.readBytes_congr (s t : State) (a n : Nat)
    (h : ∀ i, i < n → t.readByte (a + i) = s.readByte (a + i)) : t.readBytes a n = s.readBytes a n := by
  apply List.ext_getElem (by simp)
  intro i h1 h2
  rw [State.readBytes_getElem, State.readBytes_getElem]
  exact h i (by simpa using h1)

end Sys2Proof.Machine
end

