-- ==== Sys2Proof/Laws/MillerRabin.lean ====
section
/-! SUPPORT. What the primality functions compute, each said once (43_primality.md). -/

namespace Sys2Proof.Machine

/-- The factors taken out multiply back. -/
theorem splitTwos_mul (turns m : Nat) : 2 ^ (splitTwos turns m).1 * (splitTwos turns m).2 = m := by
  induction turns generalizing m with
  | zero => simp [splitTwos]
  | succ k ih =>
    unfold splitTwos
    split
    · next h =>
      have := ih (m / 2)
      simp only [pow_succ]
      rw [mul_comm (2 ^ _) 2, mul_assoc, this]; omega
    · simp

/-- With turns enough what is left is odd. -/
theorem splitTwos_odd (turns m : Nat) (h0 : 0 < m) (h : m < 2 ^ turns) : (splitTwos turns m).2 % 2 = 1 := by
  induction turns generalizing m with
  | zero => simp at h; omega
  | succ k ih =>
    unfold splitTwos
    split
    · exact ih (m / 2) (by omega) (by rw [pow_succ] at h; omega)
    · simp; omega

/-- `r` and `s` of `n` (43_primality.md R152). -/
theorem decompose_spec (n : Nat) (h : 1 < n) :
    n - 1 = 2 ^ (decompose n).1 * (decompose n).2 ∧ (decompose n).2 % 2 = 1 :=
  ⟨(splitTwos_mul _ _).symm, splitTwos_odd _ _ (by omega) (lt_two_pow_bitlen _)⟩

/-- The decomposition is unique (43_primality.md R152). -/
theorem two_pow_mul_odd_unique (r s r' s' : Nat) (h : 2 ^ r * s = 2 ^ r' * s') (hs : s % 2 = 1)
    (hs' : s' % 2 = 1) : r = r' ∧ s = s' := by
  induction r generalizing r' with
  | zero =>
    cases r' with
    | zero => simpa using h
    | succ k => rw [pow_succ, mul_comm (2 ^ k) 2, mul_assoc] at h; simp at h; omega
  | succ k ih =>
    cases r' with
    | zero => rw [pow_succ, mul_comm (2 ^ k) 2, mul_assoc] at h; simp at h; omega
    | succ k' =>
      rw [pow_succ, pow_succ, mul_comm (2 ^ k) 2, mul_comm (2 ^ k') 2, mul_assoc, mul_assoc] at h
      have := ih k' (Nat.eq_of_mul_eq_mul_left (by norm_num) h)
      exact ⟨by omega, this.2⟩

/-- What the squarings look for (43_primality.md R154). -/
theorem seekMinusOne_iff (turns x n : Nat) :
    seekMinusOne turns x n = true ↔ ∃ j, j < turns ∧ x ^ 2 ^ (j + 1) % n = n - 1 := by
  induction turns generalizing x with
  | zero => simp [seekMinusOne]
  | succ k ih =>
    have e : ∀ j, (x * x % n) ^ 2 ^ (j + 1) % n = x ^ 2 ^ (j + 2) % n := by
      intro j
      rw [← Nat.pow_mod, ← pow_two, ← pow_mul]
      congr 2; rw [pow_succ 2 (j + 1)]; ring
    unfold seekMinusOne
    split
    · next h => exact ⟨fun _ => ⟨0, by omega, by simpa [pow_two] using h⟩, fun _ => rfl⟩
    · next h =>
      rw [ih]
      constructor
      · rintro ⟨j, hj, he⟩; exact ⟨j + 1, by omega, by rw [← e]; exact he⟩
      · rintro ⟨j, hj, he⟩
        cases j with
        | zero => exact absurd (by simpa [pow_two] using he) h
        | succ i => exact ⟨i, by omega, by rw [e]; exact he⟩

/-- One round passes exactly for a base that 43_primality.md R152 and R154 describe. -/
theorem roundPasses_iff (n a : Nat) (h3 : 3 < n) (hodd : n % 2 = 1) :
    roundPasses n a = true ↔ StrongProbablePrime n a := by
  obtain ⟨hm, hs⟩ := decompose_spec n (by omega)
  have hr : 0 < (decompose n).1 := by
    rcases Nat.eq_zero_or_pos (decompose n).1 with h | h
    · rw [h] at hm; simp at hm; omega
    · exact h
  have he : ∀ j, (a ^ (decompose n).2 % n) ^ 2 ^ (j + 1) % n = a ^ (2 ^ (j + 1) * (decompose n).2) % n := by
    intro j; rw [← Nat.pow_mod, ← pow_mul]; congr 2; ring
  unfold roundPasses StrongProbablePrime
  simp only [powMod_eq]
  constructor
  · intro h
    refine ⟨(decompose n).1, (decompose n).2, hm, hs, ?_⟩
    split at h
    · next hx =>
      rcases hx with hx | hx
      · exact Or.inl hx
      · exact Or.inr ⟨0, hr, by simpa using hx⟩
    · obtain ⟨j, hj, hx⟩ := (seekMinusOne_iff _ _ _).1 h
      exact Or.inr ⟨j + 1, by omega, by rw [← he]; exact hx⟩
  · rintro ⟨r, s, hm', hs', hx⟩
    obtain ⟨h1, h2⟩ := two_pow_mul_odd_unique _ _ _ _ (hm.symm.trans hm') hs hs'
    subst h1 h2
    split
    · rfl
    · next hno =>
      rw [seekMinusOne_iff]
      rcases hx with hx | ⟨j, hj, hx⟩
      · exact absurd (Or.inl hx) hno
      · cases j with
        | zero => exact absurd (Or.inr (by simpa using hx)) hno
        | succ i => exact ⟨i, by omega, by rw [he]; exact hx⟩

/-- `drawAfter` counts from the first draw on. -/
theorem drawAfter_succ (seed : Seed) (j : Nat) : drawAfter seed (j + 1) = drawAfter (lcgNext seed) j := by
  induction j with
  | zero => simp only [drawAfter]
  | succ k ih => rw [drawAfter, ih, drawAfter]

/-- Rounds that all pass: the verdict is prime after every draw (43_primality.md R155). -/
theorem runRounds_pass (k n d : Nat) (seed : Seed)
    (h : ∀ j, j < k → roundPasses n (witnessOf n (drawAfter seed (j + 1))) = true) :
    runRounds k n d seed = { prime := true, draws := d + k, seed := drawAfter seed k } := by
  induction k generalizing d seed with
  | zero => rfl
  | succ k ih =>
    have h0 := h 0 (by omega)
    rw [drawAfter_succ, drawAfter] at h0
    rw [runRounds, if_pos h0, ih]
    · rw [drawAfter_succ]; congr 1; omega
    · intro j hj; rw [← drawAfter_succ]; exact h (j + 1) (by omega)

/-- A first failing round stops the test: the draws are those up to it (43_primality.md R155). -/
theorem runRounds_fail (k n d : Nat) (seed : Seed) (f : Nat) (hf : f < k)
    (h : ∀ j, j < f → roundPasses n (witnessOf n (drawAfter seed (j + 1))) = true)
    (hno : ¬ roundPasses n (witnessOf n (drawAfter seed (f + 1))) = true) :
    runRounds k n d seed = { prime := false, draws := d + (f + 1), seed := drawAfter seed (f + 1) } := by
  induction k generalizing d seed f with
  | zero => omega
  | succ k ih =>
    cases f with
    | zero =>
      rw [drawAfter_succ, drawAfter] at hno
      rw [runRounds, if_neg hno]; rfl
    | succ f =>
      have h0 := h 0 (by omega)
      rw [drawAfter_succ, drawAfter] at h0
      rw [runRounds, if_pos h0, ih (d + 1) (lcgNext seed) f (by omega)]
      · rw [← drawAfter_succ]; congr 1; omega
      · intro j hj; rw [← drawAfter_succ]; exact h (j + 1) (by omega)
      · rw [← drawAfter_succ]; exact hno

/-- The rounds either all pass or one is the first to fail. -/
theorem runRounds_cases (k n : Nat) (seed : Seed) :
    (∀ j, j < k → roundPasses n (witnessOf n (drawAfter seed (j + 1))) = true) ∨
    ∃ f, f < k ∧ (∀ j, j < f → roundPasses n (witnessOf n (drawAfter seed (j + 1))) = true) ∧
      ¬ roundPasses n (witnessOf n (drawAfter seed (f + 1))) = true := by
  induction k with
  | zero => exact Or.inl fun j hj => by omega
  | succ k ih =>
    rcases ih with h | ⟨f, hf, h1, h2⟩
    · by_cases hk : roundPasses n (witnessOf n (drawAfter seed (k + 1))) = true
      · left; intro j hj
        rcases Nat.lt_succ_iff_lt_or_eq.1 hj with hj | rfl
        · exact h j hj
        · exact hk
      · exact Or.inr ⟨k, by omega, h, hk⟩
    · exact Or.inr ⟨f, by omega, h1, h2⟩

/-- A test makes at most as many draws as rounds. -/
theorem millerRabin_draws_le (k n : Nat) (seed : Seed) : (millerRabin k n seed).draws ≤ k := by
  unfold millerRabin
  split
  · simp
  · split
    · simp
    · split
      · simp
      · rcases runRounds_cases k n seed with h | ⟨f, hf, h1, h2⟩
        · rw [runRounds_pass k n 0 seed h]; simp
        · rw [runRounds_fail k n 0 seed f hf h1 h2]; simp; omega

/-- A base in range passes a round of a prime (43_primality.md R162 c). -/
theorem strongProbablePrime_of_prime (n a : Nat) (hp : n.Prime) (h3 : 3 < n) (ha : 2 ≤ a) (han : a < n) :
    StrongProbablePrime n a := by
  have hodd : n % 2 = 1 := by
    rcases hp.eq_two_or_odd with h | h <;> omega
  obtain ⟨hm, hs⟩ := decompose_spec n (by omega)
  refine ⟨(decompose n).1, (decompose n).2, hm, hs, ?_⟩
  generalize (decompose n).1 = r at *
  generalize (decompose n).2 = s at *
  have : Fact n.Prime := ⟨hp⟩
  have ha0 : (a : ZMod n) ≠ 0 := by
    rw [Ne, ZMod.natCast_eq_zero_iff]
    exact fun hd => absurd (Nat.le_of_dvd (by omega) hd) (by omega)
  have hone : ((a : ZMod n) ^ s) ^ 2 ^ r = 1 := by
    rw [← pow_mul, mul_comm s, ← hm]; exact ZMod.pow_card_sub_one_eq_one ha0
  have cast1 : ∀ x : Nat, (x : ZMod n) = 1 → x % n = 1 := by
    intro x hx
    have : (x : ZMod n) = ((1 : Nat) : ZMod n) := by simpa using hx
    rw [ZMod.natCast_eq_natCast_iff] at this
    rw [this, Nat.mod_eq_of_lt (by omega)]
  have castm : ∀ x : Nat, (x : ZMod n) = -1 → x % n = n - 1 := by
    intro x hx
    have : (x : ZMod n) = ((n - 1 : Nat) : ZMod n) := by
      rw [hx, Nat.cast_sub (by omega)]; simp
    rw [ZMod.natCast_eq_natCast_iff] at this
    rw [this, Nat.mod_eq_of_lt (by omega)]
  have key : ∀ r', ((a : ZMod n) ^ s) ^ 2 ^ r' = 1 →
      (a : ZMod n) ^ s = 1 ∨ ∃ j, j < r' ∧ ((a : ZMod n) ^ s) ^ 2 ^ j = -1 := by
    intro r'
    induction r' with
    | zero => intro h; left; simpa using h
    | succ k ih =>
      intro h
      have : (((a : ZMod n) ^ s) ^ 2 ^ k) ^ 2 = 1 := by rw [← pow_mul, ← pow_succ]; exact h
      rcases sq_eq_one_iff_of_ne_zero' this with h1 | h1
      · rcases ih h1 with h2 | ⟨j, hj, h2⟩
        · exact Or.inl h2
        · exact Or.inr ⟨j, by omega, h2⟩
      · exact Or.inr ⟨k, by omega, h1⟩
  rcases key r hone with h | ⟨j, hj, h⟩
  · left; apply cast1; push_cast; exact h
  · right; refine ⟨j, hj, castm _ ?_⟩
    push_cast
    rw [mul_comm (2 ^ j), pow_mul]; exact h
where
  sq_eq_one_iff_of_ne_zero' {n : Nat} [Fact n.Prime] {x : ZMod n} (h : x ^ 2 = 1) : x = 1 ∨ x = -1 := by
    have : (x - 1) * (x + 1) = 0 := by ring_nf; rw [h]; ring
    rcases mul_eq_zero.1 this with h | h
    · left; exact sub_eq_zero.1 h
    · right; exact eq_neg_of_add_eq_zero_left h

/-- A base a draw gives lies in `[2, n - 1]` (43_primality.md R153). -/
theorem witnessOf_range (n : Nat) (x : Seed) (h : 3 < n) : 2 ≤ witnessOf n x ∧ witnessOf n x < n := by
  have : x.toNat % (n - 2) < n - 2 := Nat.mod_lt _ (by omega)
  unfold witnessOf; omega

/-- The test never rejects a prime (43_primality.md R150, R162 c). -/
theorem millerRabin_prime (k n : Nat) (seed : Seed) (hp : n.Prime) : (millerRabin k n seed).prime = true := by
  have h2 := hp.two_le
  unfold millerRabin
  rw [if_neg (by omega)]
  split
  · rfl
  · next h23 =>
    have h3 : 3 < n := by omega
    have hodd : n % 2 = 1 := by rcases hp.eq_two_or_odd with h | h <;> omega
    rw [if_neg (by omega), runRounds_pass]
    intro j _
    rw [roundPasses_iff n _ h3 hodd]
    obtain ⟨ha, hb⟩ := witnessOf_range n (drawAfter seed (j + 1)) h3
    exact strongProbablePrime_of_prime n _ hp h3 ha hb

/-- A candidate is odd and has the bit length asked for (43_primality.md R158). -/
theorem candidateOf_spec (b : Nat) (x : Seed) (h : 2 ≤ b) :
    candidateOf b x % 2 = 1 ∧ 2 ^ (b - 1) ≤ candidateOf b x ∧ candidateOf b x < 2 ^ b := by
  unfold candidateOf
  refine ⟨?_, ?_, ?_⟩
  · rw [Nat.or_mod_two_eq_one]; right; rfl
  · exact le_trans Nat.right_le_or Nat.left_le_or
  · apply Nat.or_lt_two_pow
    · apply Nat.or_lt_two_pow
      · exact Nat.mod_lt _ (by positivity)
      · exact Nat.pow_lt_pow_right (by norm_num) (by omega)
    · exact Nat.one_lt_two_pow (by omega)

theorem seedAfterAttempts_succ (b k : Nat) (seed : Seed) (j : Nat) :
    seedAfterAttempts b k seed (j + 1) =
      seedAfterAttempts b k (seedAfterAttempt b k seed) j := by
  induction j with
  | zero => simp only [seedAfterAttempts]
  | succ i ih => rw [seedAfterAttempts, ih, seedAfterAttempts]

/-- What a search answers, in the terms of 43_primality.md R160. -/
theorem search_spec (limit b k tried : Nat) (seed : Seed) :
    (∃ c t sd, search limit b k tried seed = .found c (tried + t) sd ∧ SearchFinds limit b k seed c t sd) ∨
    (∃ sd, search limit b k tried seed = .exhausted sd ∧ SearchFails limit b k seed sd) := by
  induction limit generalizing tried seed with
  | zero => exact Or.inr ⟨seed, rfl, fun j hj => by omega, rfl⟩
  | succ n ih =>
    unfold search
    simp only
    have h0 : AttemptPasses b k seed 0 ↔
        (millerRabin k (candidateOf b (lcgNext seed)) (lcgNext seed)).prime = true := by
      simp only [AttemptPasses, attemptCandidate, seedAfterAttempts]
    by_cases hp : (millerRabin k (candidateOf b (lcgNext seed)) (lcgNext seed)).prime = true
    · left
      refine ⟨candidateOf b (lcgNext seed), 1, seedAfterAttempt b k seed, ?_, by omega, by omega,
        fun j hj => by omega, h0.2 hp, ?_, ?_⟩
      · rw [if_pos hp, seedAfterAttempt]
      · simp only [attemptCandidate, Nat.sub_self, seedAfterAttempts]
      · simp only [seedAfterAttempts]
    · rw [if_neg hp]
      rw [← h0] at hp
      have shift : ∀ j, AttemptPasses b k seed (j + 1) ↔
          AttemptPasses b k (seedAfterAttempt b k seed) j := by
        intro j; unfold AttemptPasses attemptCandidate; rw [seedAfterAttempts_succ]
      rcases ih (tried + 1) (seedAfterAttempt b k seed) with
        ⟨c, t, sd, he, h1, h2, h3, h4, h5, h6⟩ | ⟨sd, he, h1, h2⟩
      · left
        refine ⟨c, t + 1, sd, by rw [seedAfterAttempt] at he; rw [he]; congr 1; omega, by omega, by omega, ?_, ?_, ?_, ?_⟩
        · intro j hj
          cases j with
          | zero => exact hp
          | succ i => rw [shift]; exact h3 i (by omega)
        · have : t + 1 - 1 = (t - 1) + 1 := by omega
          rw [this, shift]; exact h4
        · have : t + 1 - 1 = (t - 1) + 1 := by omega
          rw [h5, this]; unfold attemptCandidate; rw [seedAfterAttempts_succ]
        · rw [h6, seedAfterAttempts_succ]
      · right
        refine ⟨sd, by rw [seedAfterAttempt] at he; exact he, ?_, by rw [h2, seedAfterAttempts_succ]⟩
        intro j hj
        cases j with
        | zero => exact hp
        | succ i => rw [shift]; exact h1 i (by omega)

/-- A search ends in one way only (43_primality.md R160). -/
theorem SearchFinds.unique {limit b k : Nat} {seed : Seed} {c t c' t' : Nat} {sd sd' : Seed}
    (h : SearchFinds limit b k seed c t sd) (h' : SearchFinds limit b k seed c' t' sd') :
    c = c' ∧ t = t' ∧ sd = sd' := by
  obtain ⟨h1, h2, h3, h4, h5, h6⟩ := h
  obtain ⟨g1, g2, g3, g4, g5, g6⟩ := h'
  have : t = t' := by
    rcases Nat.lt_trichotomy t t' with hlt | he | hlt
    · exact absurd h4 (g3 (t - 1) (by omega))
    · exact he
    · exact absurd g4 (h3 (t' - 1) (by omega))
  subst this
  exact ⟨h5.trans g5.symm, rfl, h6.trans g6.symm⟩

/-- A search that finds does not fail. -/
theorem SearchFinds.not_fails {limit b k : Nat} {seed : Seed} {c t : Nat} {sd sd' : Seed}
    (h : SearchFinds limit b k seed c t sd) : ¬ SearchFails limit b k seed sd' :=
  fun hf => hf.1 (t - 1) (by have := h.1; have := h.2.1; omega) h.2.2.2.1

/-- The search answers what `SearchFinds` says. -/
theorem search_found_of {limit b k : Nat} {seed : Seed} {c t : Nat} {sd : Seed}
    (h : SearchFinds limit b k seed c t sd) : search limit b k 0 seed = .found c t sd := by
  rcases search_spec limit b k 0 seed with ⟨c', t', sd', he, h'⟩ | ⟨sd', he, h'⟩
  · obtain ⟨rfl, rfl, rfl⟩ := h.unique h'; rw [he, Nat.zero_add]
  · exact absurd h' h.not_fails

/-- The search answers what `SearchFails` says. -/
theorem search_exhausted_of {limit b k : Nat} {seed : Seed} {sd : Seed}
    (h : SearchFails limit b k seed sd) : search limit b k 0 seed = .exhausted sd := by
  rcases search_spec limit b k 0 seed with ⟨c', t', sd', he, h'⟩ | ⟨sd', he, h'⟩
  · exact absurd h h'.not_fails
  · rw [he, h.2, h'.2]

/-- What the search function answers is what the search finds (43_primality.md R160). -/
theorem SearchFinds.of_search {limit b k : Nat} {seed : Seed} {c t : Nat} {sd : Seed}
    (h : search limit b k 0 seed = .found c t sd) : SearchFinds limit b k seed c t sd := by
  rcases search_spec limit b k 0 seed with ⟨c', t', sd', he, hf⟩ | ⟨sd', he, -⟩
  · rw [h, Nat.zero_add] at he
    cases he
    exact hf
  · rw [h] at he; cases he

/-- What the search function answers when nothing is found (43_primality.md R160). -/
theorem SearchFails.of_search {limit b k : Nat} {seed sd : Seed}
    (h : search limit b k 0 seed = .exhausted sd) : SearchFails limit b k seed sd := by
  rcases search_spec limit b k 0 seed with ⟨c', t', sd', he, -⟩ | ⟨sd', he, hf⟩
  · rw [h] at he; cases he
  · rw [h] at he
    cases he
    exact hf

end Sys2Proof.Machine
end

