-- ==== Sys2Proof/Laws/PerInstr.lean ====
section
/-! SUPPORT. For every command: its word stands in its row of the opcode map (30_encoding.md R84, R85). -/

namespace Sys2Proof

/-- The encoding of a well-formed command finds a row of the opcode map, keeps every must-be-zero bit of that row at 0,
and the row's fields give the command's operands back (30_encoding.md R84, R85). -/
def Laws.Encodes.Statement (i : Instr) : Prop :=
  WellFormed i → ∃ r, opRow (encode i) = some r ∧ encode i &&& r.mask = r.value ∧ r.build (encode i) = i

theorem Laws.Encodes.nop : Laws.Encodes.Statement .nop := fun _ => ⟨_, rfl, by decide, rfl⟩

theorem Laws.Encodes.zeroize : Laws.Encodes.Statement .zeroize := fun _ => ⟨_, rfl, by decide, rfl⟩

theorem Laws.Encodes.ldi (rd : Reg) (imm20 : Nat) : Laws.Encodes.Statement (.ldi rd imm20) := by
  intro h
  refine ⟨_, opRow_of_opcode _ _ (opcodeField_wordI _ _ _), ?_, ?_⟩
  · exact wordI_mask _ _ _ _ _ (by decide) (by decide) (by cases rd <;> decide)
  · simp only [encode]
    rw [rdField_wordI _ _ _ (by decide), immField_wordI _ _ _ (by decide) h]

theorem Laws.Encodes.mov (rd ra : Reg) : Laws.Encodes.Statement (.mov rd ra) := by
  intro _
  refine ⟨_, opRow_of_opcode _ _ (opcodeField_wordR _ _ _ _ _), ?_, ?_⟩
  · exact wordR_mask _ _ _ _ _ _ _ (by decide) (by cases rd <;> decide) (by cases ra <;> decide) (by decide) (by decide)
  · simp only [encode]
    rw [rdField_wordR _ _ _ _ _ (by decide), raField_wordR _ _ _ _ _ (by decide)]

theorem Laws.Encodes.cmp (ra rb : Reg) : Laws.Encodes.Statement (.cmp ra rb) := by
  intro _
  refine ⟨_, opRow_of_opcode _ _ (opcodeField_wordR _ _ _ _ _), ?_, ?_⟩
  · exact wordR_mask _ _ _ _ _ _ _ (by decide) (by decide) (by cases ra <;> decide) (by cases rb <;> decide) (by decide)
  · simp only [encode]
    rw [raField_wordR _ _ _ _ _ (by decide), rbField_wordR _ _ _ _ _ (by decide)]

theorem Laws.Encodes.bitlen (ra : Reg) : Laws.Encodes.Statement (.bitlen ra) := by
  intro _
  refine ⟨_, opRow_of_opcode _ _ (opcodeField_wordR _ _ _ _ _), ?_, ?_⟩
  · exact wordR_mask _ _ _ _ _ _ _ (by decide) (by decide) (by cases ra <;> decide) (by decide) (by decide)
  · simp only [encode]
    rw [raField_wordR _ _ _ _ _ (by decide)]

theorem Laws.Encodes.add (rd ra rb : Reg) : Laws.Encodes.Statement (.add rd ra rb) := by
  intro _
  refine ⟨_, opRow_of_opcode _ _ (opcodeField_wordR _ _ _ _ _), ?_, ?_⟩
  · exact wordR_mask _ _ _ _ _ _ _ (by decide) (by cases rd <;> decide) (by cases ra <;> decide) (by cases rb <;> decide) (by decide)
  · simp only [encode]
    rw [rdField_wordR _ _ _ _ _ (by decide), raField_wordR _ _ _ _ _ (by decide), rbField_wordR _ _ _ _ _ (by decide)]

theorem Laws.Encodes.sub (rd ra rb : Reg) : Laws.Encodes.Statement (.sub rd ra rb) := by
  intro _
  refine ⟨_, opRow_of_opcode _ _ (opcodeField_wordR _ _ _ _ _), ?_, ?_⟩
  · exact wordR_mask _ _ _ _ _ _ _ (by decide) (by cases rd <;> decide) (by cases ra <;> decide) (by cases rb <;> decide) (by decide)
  · simp only [encode]
    rw [rdField_wordR _ _ _ _ _ (by decide), raField_wordR _ _ _ _ _ (by decide), rbField_wordR _ _ _ _ _ (by decide)]

theorem Laws.Encodes.mova (rd : Reg) : Laws.Encodes.Statement (.mova rd) := by
  intro _
  refine ⟨_, opRow_of_opcode _ _ (opcodeField_wordR _ _ _ _ _), ?_, ?_⟩
  · exact wordR_mask _ _ _ _ _ _ _ (by decide) (by cases rd <;> decide) (by decide) (by decide) (by decide)
  · simp only [encode]
    rw [rdField_wordR _ _ _ _ _ (by decide)]

theorem Laws.Encodes.mul (ra rb : Reg) : Laws.Encodes.Statement (.mul ra rb) := by
  intro _
  refine ⟨_, opRow_of_opcode _ _ (opcodeField_wordR _ _ _ _ _), ?_, ?_⟩
  · exact wordR_mask _ _ _ _ _ _ _ (by decide) (by decide) (by cases ra <;> decide) (by cases rb <;> decide) (by decide)
  · simp only [encode]
    rw [raField_wordR _ _ _ _ _ (by decide), rbField_wordR _ _ _ _ _ (by decide)]

theorem Laws.Encodes.red (rd rm : Reg) : Laws.Encodes.Statement (.red rd rm) := by
  intro _
  refine ⟨_, opRow_of_opcode _ _ (opcodeField_wordR _ _ _ _ _), ?_, ?_⟩
  · exact wordR_mask _ _ _ _ _ _ _ (by decide) (by cases rd <;> decide) (by decide) (by decide) (by cases rm <;> decide)
  · simp only [encode]
    rw [rdField_wordR _ _ _ _ _ (by decide), rmField_wordR _ _ _ _ _ (by decide)]

theorem Laws.Encodes.modmul (rd ra rb rm : Reg) : Laws.Encodes.Statement (.modmul rd ra rb rm) := by
  intro _
  refine ⟨_, opRow_of_opcode _ _ (opcodeField_wordR _ _ _ _ _), ?_, ?_⟩
  · exact wordR_mask _ _ _ _ _ _ _ (by decide) (by cases rd <;> decide) (by cases ra <;> decide) (by cases rb <;> decide) (by cases rm <;> decide)
  · simp only [encode]
    rw [rdField_wordR _ _ _ _ _ (by decide), raField_wordR _ _ _ _ _ (by decide), rbField_wordR _ _ _ _ _ (by decide), rmField_wordR _ _ _ _ _ (by decide)]

theorem Laws.Encodes.modexp (rd ra rb rm : Reg) : Laws.Encodes.Statement (.modexp rd ra rb rm) := by
  intro _
  refine ⟨_, opRow_of_opcode _ _ (opcodeField_wordR _ _ _ _ _), ?_, ?_⟩
  · exact wordR_mask _ _ _ _ _ _ _ (by decide) (by cases rd <;> decide) (by cases ra <;> decide) (by cases rb <;> decide) (by cases rm <;> decide)
  · simp only [encode]
    rw [rdField_wordR _ _ _ _ _ (by decide), raField_wordR _ _ _ _ _ (by decide), rbField_wordR _ _ _ _ _ (by decide), rmField_wordR _ _ _ _ _ (by decide)]

theorem Laws.Encodes.modinv (rd ra rm : Reg) : Laws.Encodes.Statement (.modinv rd ra rm) := by
  intro _
  refine ⟨_, opRow_of_opcode _ _ (opcodeField_wordR _ _ _ _ _), ?_, ?_⟩
  · exact wordR_mask _ _ _ _ _ _ _ (by decide) (by cases rd <;> decide) (by cases ra <;> decide) (by decide) (by cases rm <;> decide)
  · simp only [encode]
    rw [rdField_wordR _ _ _ _ _ (by decide), raField_wordR _ _ _ _ _ (by decide), rmField_wordR _ _ _ _ _ (by decide)]

theorem Laws.Encodes.rngnext : Laws.Encodes.Statement .rngnext := fun _ => ⟨_, rfl, by decide, rfl⟩

theorem Laws.Encodes.mrwit (ra rm : Reg) : Laws.Encodes.Statement (.mrwit ra rm) := by
  intro _
  refine ⟨_, opRow_of_opcode _ _ (opcodeField_wordR _ _ _ _ _), ?_, ?_⟩
  · exact wordR_mask _ _ _ _ _ _ _ (by decide) (by decide) (by cases ra <;> decide) (by decide) (by cases rm <;> decide)
  · simp only [encode]
    rw [raField_wordR _ _ _ _ _ (by decide), rmField_wordR _ _ _ _ _ (by decide)]

theorem Laws.Encodes.mrtest (rm : Reg) : Laws.Encodes.Statement (.mrtest rm) := by
  intro _
  refine ⟨_, opRow_of_opcode _ _ (opcodeField_wordR _ _ _ _ _), ?_, ?_⟩
  · exact wordR_mask _ _ _ _ _ _ _ (by decide) (by decide) (by decide) (by decide) (by cases rm <;> decide)
  · simp only [encode]
    rw [rmField_wordR _ _ _ _ _ (by decide)]

theorem Laws.Encodes.primecand (rd : Reg) (imm20 : Nat) : Laws.Encodes.Statement (.primecand rd imm20) := by
  intro h
  refine ⟨_, opRow_of_opcode _ _ (opcodeField_wordI _ _ _), ?_, ?_⟩
  · exact wordI_mask _ _ _ _ _ (by decide) (by decide) (by cases rd <;> decide)
  · simp only [encode]
    rw [rdField_wordI _ _ _ (by decide), immField_wordI _ _ _ (by decide) h]

theorem Laws.Encodes.primegen (rd : Reg) (imm20 : Nat) : Laws.Encodes.Statement (.primegen rd imm20) := by
  intro h
  refine ⟨_, opRow_of_opcode _ _ (opcodeField_wordI _ _ _), ?_, ?_⟩
  · exact wordI_mask _ _ _ _ _ (by decide) (by decide) (by cases rd <;> decide)
  · simp only [encode]
    rw [rdField_wordI _ _ _ (by decide), immField_wordI _ _ _ (by decide) h]

theorem Laws.Encodes.keygen (imm20 : Nat) : Laws.Encodes.Statement (.keygen imm20) := by
  intro h
  refine ⟨_, opRow_of_opcode _ _ (opcodeField_wordI _ _ _), ?_, ?_⟩
  · exact wordI_mask _ _ _ _ _ (by decide) (by decide) (by decide)
  · simp only [encode]
    rw [immField_wordI _ _ _ (by decide) h]

theorem Laws.Encodes.rsaenc (rd rb rm : Reg) : Laws.Encodes.Statement (.rsaenc rd rb rm) := by
  intro _
  refine ⟨_, opRow_of_opcode _ _ (opcodeField_wordR _ _ _ _ _), ?_, ?_⟩
  · exact wordR_mask _ _ _ _ _ _ _ (by decide) (by cases rd <;> decide) (by decide) (by cases rb <;> decide) (by cases rm <;> decide)
  · simp only [encode]
    rw [rdField_wordR _ _ _ _ _ (by decide), rbField_wordR _ _ _ _ _ (by decide), rmField_wordR _ _ _ _ _ (by decide)]

theorem Laws.Encodes.rsadec (ra rb rm : Reg) : Laws.Encodes.Statement (.rsadec ra rb rm) := by
  intro _
  refine ⟨_, opRow_of_opcode _ _ (opcodeField_wordR _ _ _ _ _), ?_, ?_⟩
  · exact wordR_mask _ _ _ _ _ _ _ (by decide) (by decide) (by cases ra <;> decide) (by cases rb <;> decide) (by cases rm <;> decide)
  · simp only [encode]
    rw [raField_wordR _ _ _ _ _ (by decide), rbField_wordR _ _ _ _ _ (by decide), rmField_wordR _ _ _ _ _ (by decide)]

theorem Laws.Encodes.embed : Laws.Encodes.Statement .embed := fun _ => ⟨_, rfl, by decide, rfl⟩

theorem Laws.Encodes.extract : Laws.Encodes.Statement .extract := fun _ => ⟨_, rfl, by decide, rfl⟩

theorem Laws.Encodes.ldf (rd : Reg) : Laws.Encodes.Statement (.ldf rd) := by
  intro _
  refine ⟨_, opRow_of_opcode _ _ (opcodeField_wordR _ _ _ _ _), ?_, ?_⟩
  · exact wordR_mask _ _ _ _ _ _ _ (by decide) (by cases rd <;> decide) (by decide) (by decide) (by decide)
  · simp only [encode]
    rw [rdField_wordR _ _ _ _ _ (by decide)]

theorem Laws.Encodes.stf (ra : Reg) : Laws.Encodes.Statement (.stf ra) := by
  intro _
  refine ⟨_, opRow_of_opcode _ _ (opcodeField_wordR _ _ _ _ _), ?_, ?_⟩
  · exact wordR_mask _ _ _ _ _ _ _ (by decide) (by decide) (by cases ra <;> decide) (by decide) (by decide)
  · simp only [encode]
    rw [raField_wordR _ _ _ _ _ (by decide)]

theorem Laws.Encodes.pack (ra rb : Reg) : Laws.Encodes.Statement (.pack ra rb) := by
  intro _
  refine ⟨_, opRow_of_opcode _ _ (opcodeField_wordR _ _ _ _ _), ?_, ?_⟩
  · exact wordR_mask _ _ _ _ _ _ _ (by decide) (by decide) (by cases ra <;> decide) (by cases rb <;> decide) (by decide)
  · simp only [encode]
    rw [raField_wordR _ _ _ _ _ (by decide), rbField_wordR _ _ _ _ _ (by decide)]

theorem Laws.Encodes.unpack (rd rb : Reg) : Laws.Encodes.Statement (.unpack rd rb) := by
  intro _
  refine ⟨_, opRow_of_opcode _ _ (opcodeField_wordR _ _ _ _ _), ?_, ?_⟩
  · exact wordR_mask _ _ _ _ _ _ _ (by decide) (by cases rd <;> decide) (by decide) (by cases rb <;> decide) (by decide)
  · simp only [encode]
    rw [rdField_wordR _ _ _ _ _ (by decide), rbField_wordR _ _ _ _ _ (by decide)]

theorem Laws.Encodes.ldm (rd : Reg) : Laws.Encodes.Statement (.ldm rd) := by
  intro _
  refine ⟨_, opRow_of_opcode _ _ (opcodeField_wordR _ _ _ _ _), ?_, ?_⟩
  · exact wordR_mask _ _ _ _ _ _ _ (by decide) (by cases rd <;> decide) (by decide) (by decide) (by decide)
  · simp only [encode]
    rw [rdField_wordR _ _ _ _ _ (by decide)]

theorem Laws.Encodes.stm (ra : Reg) : Laws.Encodes.Statement (.stm ra) := by
  intro _
  refine ⟨_, opRow_of_opcode _ _ (opcodeField_wordR _ _ _ _ _), ?_, ?_⟩
  · exact wordR_mask _ _ _ _ _ _ _ (by decide) (by decide) (by cases ra <;> decide) (by decide) (by decide)
  · simp only [encode]
    rw [raField_wordR _ _ _ _ _ (by decide)]

end Sys2Proof
end

