-- ==== Sys2Proof/Laws/Port.lean ====
section
/-! SUPPORT. The lanes of the port and the offsets of the MEM aperture (20_memory.md R66, R67). -/

namespace Sys2Proof.Machine

@[simp] theorem lanesOf_length (n v : Nat) : (lanesOf n v).length = n := by
  induction n generalizing v with
  | zero => rfl
  | succ k ih => simp [lanesOf, ih]

/-- Lane `j` of a value: its bits `8*j + 7` to `8*j` (20_memory.md R67). -/
theorem lanesOf_getD (n v j : Nat) (h : j < n) : (lanesOf n v).getD j 0 = BitVec.ofNat 8 (v / 256 ^ j) := by
  induction n generalizing v j with
  | zero => omega
  | succ k ih =>
    cases j with
    | zero => simp [lanesOf]
    | succ i =>
      rw [lanesOf, List.getD_cons_succ, ih _ _ (by omega), Nat.div_div_eq_div_mul, pow_succ, Nat.mul_comm]

/-- The value of `n` lanes has `8*n` bits. -/
theorem lanesValue_lt (l : List Byte) : lanesValue l < 256 ^ l.length := by
  induction l with
  | nil => simp [lanesValue]
  | cons x rest ih =>
    have := x.isLt
    rw [lanesValue, List.length_cons, pow_succ]
    omega

/-- Lane `j` of the value of a string is its byte `j` (20_memory.md R67). -/
theorem lanesValue_lane (l : List Byte) (j : Nat) (h : j < l.length) :
    lanesValue l / 256 ^ j % 256 = (l.getD j 0).toNat := by
  induction l generalizing j with
  | nil => simp at h
  | cons x rest ih =>
    have := x.isLt
    cases j with
    | zero => simp [lanesValue]; omega
    | succ i =>
      rw [List.getD_cons_succ, ← ih i (by simpa using h), pow_succ, Nat.mul_comm, ← Nat.div_div_eq_div_mul, lanesValue]
      congr 2
      omega

/-- An offset with bit 31 set lies in the aperture and its low 31 bits are the address (20_memory.md R66). -/
theorem aperture_offset (a : Nat) (h : a < 2 ^ 31) :
    inAperture (BitVec.ofNat 32 (2 ^ 31 + a)) = true ∧ apertureAddr (BitVec.ofNat 32 (2 ^ 31 + a)) = a := by
  have ht : (BitVec.ofNat 32 (2 ^ 31 + a)).toNat = 2 ^ 31 + a := by
    rw [BitVec.toNat_ofNat]; exact Nat.mod_eq_of_lt (by omega)
  refine ⟨?_, ?_⟩
  · unfold inAperture
    rw [BitVec.getLsbD, ht, Nat.testBit_two_pow_add_eq, Nat.testBit_lt_two_pow h]
    rfl
  · unfold apertureAddr
    rw [ht]
    omega

end Sys2Proof.Machine
end

