-- ==== Sys2Proof/Laws/Stream.lean ====
section
/-! SUPPORT. The bit stream, the search for its terminator and the slots of the frame, each said once (00_scope.md R12, 45_lsb_codec.md). -/

namespace Sys2Proof.Machine

@[simp] theorem bitsOf_length (p : List Byte) : (bitsOf p).length = 8 * p.length := by
  induction p with
  | nil => rfl
  | cons x rest ih => simp [bitsOf, bitsOfByte, ih]; omega

/-- Bit `i` of the bits of a string (00_scope.md R12). -/
theorem bitsOf_getD (p : List Byte) (i : Nat) (h : i < 8 * p.length) :
    (bitsOf p).getD i false = (p.getD (i / 8) 0).getLsbD (7 - i % 8) := by
  induction p generalizing i with
  | nil => simp at h
  | cons x rest ih =>
    simp only [List.length_cons] at h
    by_cases h8 : i < 8
    · have hd : i / 8 = 0 := by omega
      have hm : i % 8 = i := by omega
      rw [hd, hm]
      have : i = 0 ∨ i = 1 ∨ i = 2 ∨ i = 3 ∨ i = 4 ∨ i = 5 ∨ i = 6 ∨ i = 7 := by omega
      rcases this with h | h | h | h | h | h | h | h <;> subst h <;> rfl
    · have e : i = (i - 8) + 8 := by omega
      have := ih (i - 8) (by omega)
      rw [show (bitsOf (x :: rest)).getD i false = (bitsOf rest).getD (i - 8) false from by
        conv => lhs; rw [e]
        rfl, this]
      have hd : i / 8 = (i - 8) / 8 + 1 := by omega
      have hm : i % 8 = (i - 8) % 8 := by omega
      rw [hd, hm]; rfl

/-- Eight bits of a byte make the byte again. -/
theorem byteOfBits_bits (x : Byte) :
    byteOfBits (x.getLsbD 7) (x.getLsbD 6) (x.getLsbD 5) (x.getLsbD 4) (x.getLsbD 3) (x.getLsbD 2)
      (x.getLsbD 1) (x.getLsbD 0) = x := by
  revert x; decide

/-- Bytes from bits: the bits of a string give it back (45_lsb_codec.md R193). -/
theorem bytesOf_bitsOf (p : List Byte) : bytesOf (bitsOf p) = p := by
  induction p with
  | nil => rfl
  | cons x rest ih =>
    simp only [bitsOf, bitsOfByte, List.cons_append, List.nil_append, bytesOf, ih, byteOfBits_bits]

/-- The bits of an eight-bit group are the group's. -/
theorem bitsOfByte_byteOfBits (a b c d e f g h : Bool) :
    bitsOfByte (byteOfBits a b c d e f g h) = [a, b, c, d, e, f, g, h] := by
  revert a b c d e f g h; decide

/-- Grouping into bytes: one byte for every eight bits, their bits the sequence's (45_lsb_codec.md R193). -/
theorem bitsOf_bytesOf (u : List Bool) : bitsOf (bytesOf u) = u.take (8 * (u.length / 8)) := by
  induction u using bytesOf.induct with
  | case1 a b c d e f g h rest ih =>
    have e1 : (a :: b :: c :: d :: e :: f :: g :: h :: rest).length / 8 = rest.length / 8 + 1 := by
      simp only [List.length_cons]; omega
    rw [e1, bytesOf, bitsOf, ih, bitsOfByte_byteOfBits, Nat.mul_add, Nat.mul_one]
    simp [List.take_succ_cons]
  | case2 u hu =>
    have hl : u.length < 8 := by
      by_contra hc
      match u, hu, hc with
      | a :: b :: c :: d :: e :: f :: g :: h :: rest, hu, _ => exact hu a b c d e f g h rest rfl
      | [], _, hc => simp at hc
      | [_], _, hc => simp at hc
      | [_, _], _, hc => simp at hc
      | [_, _, _], _, hc => simp at hc
      | [_, _, _, _], _, hc => simp at hc
      | [_, _, _, _, _], _, hc => simp at hc
      | [_, _, _, _, _, _], _, hc => simp at hc
      | [_, _, _, _, _, _, _], _, hc => simp at hc
    rw [Nat.div_eq_of_lt hl]
    have : bytesOf u = [] := by
      unfold bytesOf
      split
      · next a b c d e f g h rest => exact absurd rfl (hu a b c d e f g h rest)
      · rfl
    simp [this, bitsOf]

@[simp] theorem bytesOf_length (u : List Bool) : (bytesOf u).length = u.length / 8 := by
  have h := congrArg List.length (bitsOf_bytesOf u)
  simp only [bitsOf_length, List.length_take] at h
  omega

/-- Bit `7 - t` of byte `k` is bit `8k + t` of the sequence (45_lsb_codec.md R193). -/
theorem bytesOf_bit (u : List Bool) (k t : Nat) (hk : k < u.length / 8) (ht : t < 8) :
    ((bytesOf u).getD k 0).getLsbD (7 - t) = u.getD (8 * k + t) false := by
  have h := bitsOf_getD (bytesOf u) (8 * k + t) (by rw [bytesOf_length]; omega)
  have hd : (8 * k + t) / 8 = k := by omega
  have hm : (8 * k + t) % 8 = t := by omega
  rw [hd, hm, bitsOf_bytesOf] at h
  rw [← h]
  simp only [List.getD_eq_getElem?_getD]
  rw [List.getElem?_take_of_lt (by omega)]

/-- The terminator's bits: fifteen ones, then a zero (00_scope.md R5). -/
theorem terminator_getElem : ∀ (i : Nat) (h : i < Config.terminator.length),
    Config.terminator[i] = decide (i < 15) := by decide

/-- The terminator begins a sequence exactly when its first sixteen bits are fifteen ones and a zero. -/
theorem terminator_isPrefixOf_iff (u : List Bool) :
    Config.terminator.isPrefixOf u = true ↔ 16 ≤ u.length ∧ TerminatorAt (fun i => u.getD i false) 0 := by
  rw [List.isPrefixOf_iff_prefix, List.prefix_iff_eq_take]
  constructor
  · intro h
    have hl := congrArg List.length h
    simp only [Config.terminator, List.length_cons, List.length_nil, List.length_take] at hl
    refine ⟨by omega, ?_, ?_⟩
    · intro j hj
      have : (u.take 16).getD j false = true := by
        have e : Config.terminator.length = 16 := rfl
        rw [e] at h; rw [← h]
        have : j = 0 ∨ j = 1 ∨ j = 2 ∨ j = 3 ∨ j = 4 ∨ j = 5 ∨ j = 6 ∨ j = 7 ∨ j = 8 ∨ j = 9 ∨ j = 10 ∨
          j = 11 ∨ j = 12 ∨ j = 13 ∨ j = 14 := by omega
        rcases this with h | h | h | h | h | h | h | h | h | h | h | h | h | h | h <;> subst h <;> rfl
      simp only [List.getD_eq_getElem?_getD] at this ⊢
      rw [List.getElem?_take_of_lt (by omega)] at this
      simpa using this
    · have : (u.take 16).getD 15 false = false := by
        have e : Config.terminator.length = 16 := rfl
        rw [e] at h; rw [← h]; rfl
      simp only [List.getD_eq_getElem?_getD] at this ⊢
      rw [List.getElem?_take_of_lt (by omega)] at this
      simpa using this
  · rintro ⟨hl, h1, h2⟩
    apply List.ext_getElem
    · simp [Config.terminator]; omega
    · intro i hi hi'
      have hi16 : i < 16 := by simpa [Config.terminator] using hi
      have hu : u[i]'(by omega) = decide (i < 15) := by
        by_cases h15 : i < 15
        · have := h1 i h15
          simp only [Nat.zero_add] at this
          rw [List.getD_eq_getElem _ _ (by omega)] at this
          simp [this, h15]
        · have : i = 15 := by omega
          subst this
          simp only [Nat.zero_add] at h2
          rw [List.getD_eq_getElem _ _ (by omega)] at h2
          simp [h2]
      rw [List.getElem_take, hu, terminator_getElem i hi]

/-- A place where the terminator stands whole inside a bit sequence. -/
def FitsAt (u : List Bool) (i : Nat) : Prop := i + 16 ≤ u.length ∧ TerminatorAt (fun j => u.getD j false) i

theorem fitsAt_cons (x : Bool) (u : List Bool) (i : Nat) : FitsAt (x :: u) (i + 1) ↔ FitsAt u i := by
  have e : ∀ j, (x :: u).getD (i + 1 + j) false = u.getD (i + j) false := by
    intro j; rw [show i + 1 + j = (i + j) + 1 by omega]; rfl
  unfold FitsAt TerminatorAt
  simp only [e, List.length_cons]
  constructor <;> rintro ⟨h1, h2⟩ <;> exact ⟨by omega, h2⟩

/-- The search answers the first place of the terminator, or nothing where there is none (45_lsb_codec.md R193). -/
theorem findTerminator_spec (u : List Bool) (k : Nat) :
    (∃ i, findTerminator u k = some (k + i) ∧ FitsAt u i ∧ ∀ j, j < i → ¬ FitsAt u j) ∨
    (findTerminator u k = none ∧ ∀ j, ¬ FitsAt u j) := by
  induction u generalizing k with
  | nil => exact Or.inr ⟨rfl, fun j h => by have := h.1; simp at this⟩
  | cons x rest ih =>
    have h0 : Config.terminator.isPrefixOf (x :: rest) = true ↔ FitsAt (x :: rest) 0 := by
      rw [terminator_isPrefixOf_iff]; unfold FitsAt; simp
    unfold findTerminator
    by_cases hp : Config.terminator.isPrefixOf (x :: rest) = true
    · left; exact ⟨0, by simp [hp], h0.1 hp, fun j hj => by omega⟩
    · rw [if_neg hp]
      rcases ih (k + 1) with ⟨i, he, hf, hno⟩ | ⟨he, hno⟩
      · left
        refine ⟨i + 1, by rw [he]; congr 1; omega, (fitsAt_cons x rest i).2 hf, ?_⟩
        intro j hj
        cases j with
        | zero => exact fun h => hp (h0.2 h)
        | succ j => rw [fitsAt_cons]; exact hno j (by omega)
      · right
        refine ⟨he, fun j => ?_⟩
        cases j with
        | zero => exact fun h => hp (h0.2 h)
        | succ j => rw [fitsAt_cons]; exact hno j

/-- The first place of the terminator is what the search answers. -/
theorem findTerminator_some_of (u : List Bool) (i : Nat) (h : FitsAt u i) (hno : ∀ j, j < i → ¬ FitsAt u j) :
    findTerminator u 0 = some i := by
  rcases findTerminator_spec u 0 with ⟨j, he, hf, hj⟩ | ⟨_, hn⟩
  · rcases Nat.lt_trichotomy i j with hlt | rfl | hlt
    · exact absurd h (hj i hlt)
    · simpa using he
    · exact absurd hf (hno j hlt)
  · exact absurd h (hn i)

theorem findTerminator_none_of (u : List Bool) (h : ∀ j, ¬ FitsAt u j) : findTerminator u 0 = none := by
  rcases findTerminator_spec u 0 with ⟨j, _, hf, _⟩ | ⟨he, _⟩
  · exact absurd hf (h j)
  · exact he

/-- Replacing bit 0 of a byte (45_lsb_codec.md R192). -/
theorem setLsb_bit (x : Byte) (v : Bool) (k : Nat) :
    (setLsb x v).getLsbD k = if k = 0 then v else x.getLsbD k := by
  by_cases hk : k < 8
  · have : k = 0 ∨ k = 1 ∨ k = 2 ∨ k = 3 ∨ k = 4 ∨ k = 5 ∨ k = 6 ∨ k = 7 := by omega
    rcases this with h | h | h | h | h | h | h | h <;> subst h <;> cases v <;> simp [setLsb]
  · rw [BitVec.getLsbD_of_ge _ _ (by omega), BitVec.getLsbD_of_ge x _ (by omega), if_neg (by omega)]

/-- Different stream bits have different slots (45_lsb_codec.md R191). -/
theorem State.slot_inj (s : State) (hc : 3 ≤ s.chan) (i j : Nat) (h : s.slot i = s.slot j) : i = j := by
  unfold State.slot at h
  have hi : i % 3 < 3 := Nat.mod_lt _ (by omega)
  have hj : j % 3 < 3 := Nat.mod_lt _ (by omega)
  have key : ∀ p q a b : Nat, a < 3 → b < 3 → p * s.chan + a = q * s.chan + b → p ≤ q := by
    intro p q a b ha hb he
    by_contra hlt
    have : (q + 1) * s.chan ≤ p * s.chan := Nat.mul_le_mul_right _ (by omega)
    rw [Nat.add_mul, Nat.one_mul] at this; omega
  have h1 := key (i / 3) (j / 3) (i % 3) (j % 3) hi hj (by omega)
  have h2 := key (j / 3) (i / 3) (j % 3) (i % 3) hj hi (by omega)
  have he : i / 3 = j / 3 := by omega
  rw [he] at h
  omega

/-- The slots of the stream lie in the frame window (45_lsb_codec.md R190, R191). -/
theorem State.slot_in_frame (s : State) (hc : 3 ≤ s.chan) (i : Nat) (h : i < s.cap) :
    s.frameAddr ≤ s.slot i ∧ s.slot i < s.frameAddr + s.frameLen := by
  unfold State.cap at h
  unfold State.slot State.frameLen
  have h3 : i % 3 < 3 := Nat.mod_lt _ (by omega)
  have hp : i / 3 + 1 ≤ s.pixels := by omega
  have : (i / 3 + 1) * s.chan ≤ s.pixels * s.chan := Nat.mul_le_mul_right _ hp
  rw [Nat.add_mul, Nat.one_mul] at this
  omega

/-- A byte of `MEM` after the stream was written: bit 0 of the slots used, all else as before (45_lsb_codec.md R192). -/
theorem State.lookup_embedMem (s : State) (hc : 3 ≤ s.chan) (bits : List Bool) (m : Memory) (i x : Nat) :
    (∀ j, j < bits.length → x = s.slot (i + j) →
      Memory.lookup (s.embedMem m i bits) x = some (setLsb (s.readByte x) (bits.getD j false))) ∧
    ((∀ j, j < bits.length → x ≠ s.slot (i + j)) → Memory.lookup (s.embedMem m i bits) x = Memory.lookup m x) := by
  induction bits generalizing m i with
  | nil => exact ⟨fun j hj => by simp at hj, fun _ => rfl⟩
  | cons v rest ih =>
    obtain ⟨ih1, ih2⟩ := ih (Memory.put m (s.slot i) (setLsb (s.readByte (s.slot i)) v)) (i + 1)
    constructor
    · intro j hj hx
      cases j with
      | zero =>
        rw [State.embedMem, ih2, Memory.lookup_put]
        · simp at hx; simp [hx]
        · intro k hk he
          have := s.slot_inj hc _ _ (hx.symm.trans he); omega
      | succ j =>
        rw [State.embedMem, ih1 j (by simpa using hj) (by rw [hx]; congr 1; omega)]
        rfl
    · intro h
      rw [State.embedMem, ih2, Memory.lookup_put, if_neg]
      · simpa using h 0 (by simp)
      · intro j hj
        have := h (j + 1) (by simpa using hj)
        rw [show i + 1 + j = i + (j + 1) by omega]; exact this

/-- A byte read after the stream was written into a slot. -/
theorem State.readByte_embedStream_slot (s : State) (hc : 3 ≤ s.chan) (bits : List Bool) (j : Nat)
    (hj : j < bits.length) :
    (s.embedStream bits).readByte (s.slot j) = setLsb (s.readByte (s.slot j)) (bits.getD j false) := by
  unfold State.readByte
  rw [State.embedStream_mem, (s.lookup_embedMem hc bits s.mem 0 (s.slot j)).1 j hj (by simp)]
  rfl

/-- A byte that is no slot of the stream is as before. -/
theorem State.readByte_embedStream_other (s : State) (hc : 3 ≤ s.chan) (bits : List Bool) (x : Nat)
    (h : ∀ j, j < bits.length → x ≠ s.slot j) : (s.embedStream bits).readByte x = s.readByte x := by
  unfold State.readByte
  rw [State.embedStream_mem, (s.lookup_embedMem hc bits s.mem 0 x).2 (by simpa using h)]
  rfl

/-- The stream's writes keep the canonical form and reach the slots only. -/
theorem State.embedMem_mem (s : State) (bits : List Bool) (m : Memory) (i : Nat) (c : Host.Cell)
    (h : c ∈ s.embedMem m i bits) : (∃ j, j < bits.length ∧ c.1 = s.slot (i + j)) ∨ c ∈ m := by
  induction bits generalizing m i with
  | nil => exact Or.inr h
  | cons v rest ih =>
    rcases ih _ _ h with ⟨j, hj, he⟩ | h
    · exact Or.inl ⟨j + 1, by simpa using hj, by rw [he]; congr 1; omega⟩
    · rcases Memory.mem_put _ _ _ c h with h | h
      · exact Or.inl ⟨0, by simp, by simp [h]⟩
      · exact Or.inr h

theorem State.embedMem_wf (s : State) (bits : List Bool) (m : Memory) (i : Nat) (h : Memory.wf m = true) :
    Memory.wf (s.embedMem m i bits) = true := by
  induction bits generalizing m i with
  | nil => exact h
  | cons v rest ih => exact ih _ _ (Memory.wf_put m _ _ h)

@[simp] theorem State.lsbFrom_length (s : State) (i n : Nat) : (s.lsbFrom i n).length = n := by
  induction n generalizing i with
  | zero => rfl
  | succ k ih => simp [State.lsbFrom, ih]

/-- The LSB sequence bit by bit (45_lsb_codec.md R193). -/
theorem State.lsbFrom_getD (s : State) (i n j : Nat) (h : j < n) :
    (s.lsbFrom i n).getD j false = s.frameBit (i + j) := by
  induction n generalizing i j with
  | zero => omega
  | succ k ih =>
    cases j with
    | zero => rfl
    | succ j =>
      rw [State.lsbFrom, List.getD_cons_succ, ih (i + 1) j (by omega)]
      congr 1; omega

/-- The length of the stream of a payload (00_scope.md R12). -/
@[simp] theorem bitstream_length (p : List Byte) : (bitstream p).length = 8 * p.length + 16 := by
  simp [bitstream, Config.terminator]

/-- A bit of the stream of the input window (00_scope.md R12), up to the end of the terminator. -/
theorem State.bitstream_getD (s : State) (i : Nat) (h : i < 8 * s.inLen + 16) :
    (bitstream s.inBytes).getD i false = streamBit s.readByte s.inAddr s.inLen i := by
  have hb : s.inBytes.length = s.inLen := State.readBytes_length s _ _
  unfold bitstream streamBit
  by_cases h1 : i < 8 * s.inLen
  · have hl : i / 8 < s.inBytes.length := by omega
    rw [List.getD_append _ _ _ _ (by rw [bitsOf_length]; omega), bitsOf_getD _ _ (by omega), if_pos h1,
      List.getD_eq_getElem _ _ hl]
    exact congrArg (fun x : Byte => x.getLsbD (7 - i % 8)) (State.readBytes_getElem s s.inAddr s.inLen (i / 8) hl)
  · rw [List.getD_append_right _ _ _ _ (by rw [bitsOf_length]; omega), if_neg h1, bitsOf_length, hb]
    have hk : i - 8 * s.inLen < 16 := by omega
    have hd : decide (i < 8 * s.inLen + 15) = decide (i - 8 * s.inLen < 15) := decide_eq_decide.2 (by omega)
    rw [hd]
    generalize i - 8 * s.inLen = k at hk
    interval_cases k <;> rfl

end Sys2Proof.Machine
end

