-- ==== Sys2Proof/Laws/View.lean ====
section
/-! SUPPORT. How a command ends, said once: what `complete` and `raise` answer, and what each update does to the view. -/

namespace Sys2Proof.Machine

/-- A command that succeeds answers its written state, retired. -/
theorem complete_next (s : State) : complete s = .next s.retire := rfl

/-- A fault answers the recorded state, retired. -/
theorem raise_next (c : Cause) (s : State) : raise c s = .next (s.record c).retire := rfl

@[simp] theorem State.setReg_view (s : State) (r : Reg) (v : Nat) : (s.setReg r v).view = s.view.put r v := by
  simp only [State.view, View.put, View.mk.injEq]
  exact ⟨funext fun q => State.setReg_reg s r q v, rfl, rfl, rfl, rfl, rfl, rfl⟩

@[simp] theorem State.setAcc_view (s : State) (v : Nat) : (s.setAcc v).view = { s.view with acc := v } := rfl

@[simp] theorem State.setSeed_view (s : State) (v : Seed) : (s.setSeed v).view = { s.view with seed := v } := rfl

@[simp] theorem State.setResult_view (s : State) (v : Nat) :
    (s.setResult v).view = { s.view with result := BitVec.ofNat 32 v } := rfl

@[simp] theorem State.setAux_view (s : State) (v : Nat) :
    (s.setAux v).view = { s.view with aux := BitVec.ofNat 32 v } := rfl

@[simp] theorem State.setT_view (s : State) (v : Bool) : (s.setT v).view = { s.view with t := v } := rfl

@[simp] theorem State.writeBytes_view (s : State) (a : Nat) (l : List Byte) :
    (s.writeBytes a l).view = s.view.store a l := by
  simp only [State.view, View.store, View.mk.injEq]
  exact ⟨rfl, rfl, rfl, rfl, rfl, rfl, funext fun x => State.readByte_writeBytes s a x l⟩

@[simp] theorem State.retire_view (s : State) : s.retire.view = s.view := rfl

@[simp] theorem State.record_view (s : State) (c : Cause) : (s.record c).view = s.view := by
  unfold State.record; split <;> rfl

/-- Recording a fault and retiring is what 60_exceptions.md R233 says. -/
theorem State.record_faulted (s : State) (c : Cause) : s.Faulted c.info (s.record c).retire := by
  simp only [State.Faulted, State.Retired, State.HostSideKept, State.retire_status, State.retire_cmdSeq,
    State.record_cmdSeq, State.retire_errInfo, State.retire_errCmd]
  unfold State.record
  by_cases h : s.status.err = true
  · simp [h, State.retire]
  · simp [h, State.retire]

/-- A fault after draws: as `State.record_faulted`, the draws kept (42_rng.md R143). -/
theorem State.record_faulted_seed (s : State) (c : Cause) (sd : Seed) :
    s.Faulted c.info ((s.setSeed sd).record c).retire ∧
      ((s.setSeed sd).record c).retire.view = { s.view with seed := sd } := by
  refine ⟨?_, by simp⟩
  have h := State.record_faulted (s.setSeed sd) c
  exact h

/-- What a fault answers, in the terms of the statements. -/
theorem raise_spec (c : Cause) (s : State) :
    ∃ t, raise c s = .next t ∧ s.Faulted c.info t ∧ t.view = s.view :=
  ⟨_, rfl, State.record_faulted s c, by simp⟩

/-- What a fault after draws answers. -/
theorem raise_seed_spec (c : Cause) (s : State) (sd : Seed) :
    ∃ t, raise c (s.setSeed sd) = .next t ∧ s.Faulted c.info t ∧ t.view = { s.view with seed := sd } :=
  ⟨_, rfl, (State.record_faulted_seed s c sd).1, (State.record_faulted_seed s c sd).2⟩

/-- A command's written state `u` agrees with `s` outside the view. -/
def State.SameOutsideView (s u : State) : Prop :=
  s.HostSideKept u ∧ u.cmdSeq = s.cmdSeq ∧ u.status.haz = s.status.haz ∧
  u.status.err = s.status.err ∧ u.status.errOvf = s.status.errOvf ∧ u.errInfo = s.errInfo ∧ u.errCmd = s.errCmd

/-- What a success answers, in the terms of the statements. -/
theorem complete_spec (s u : State) (h : s.SameOutsideView u) :
    ∃ t, complete u = .next t ∧ s.Completed t ∧ t.view = u.view := by
  obtain ⟨h1, h2, h3, h4, h5, h6, h7⟩ := h
  refine ⟨_, rfl, ⟨⟨rfl, rfl, ?_, h3⟩, ?_, h4, h5, h6, h7⟩, rfl⟩
  · simp [h2]
  · simpa [State.HostSideKept] using h1

@[simp] theorem State.setVerdict_view (s : State) (v : Bool) :
    (s.setVerdict v).view = { s.view with t := v, result := BitVec.ofNat 32 (bit v) } := rfl

/-! A command's writes stay inside the view: the updates one by one. -/

@[simp] theorem State.SameOutsideView.rfl (s : State) : s.SameOutsideView s := by
  simp [State.SameOutsideView, State.HostSideKept]

@[simp] theorem State.SameOutsideView.setReg (s u : State) (r : Reg) (v : Nat) :
    s.SameOutsideView (u.setReg r v) ↔ s.SameOutsideView u := Iff.rfl

@[simp] theorem State.SameOutsideView.setAcc (s u : State) (v : Nat) :
    s.SameOutsideView (u.setAcc v) ↔ s.SameOutsideView u := Iff.rfl

@[simp] theorem State.SameOutsideView.setSeed (s u : State) (v : Seed) :
    s.SameOutsideView (u.setSeed v) ↔ s.SameOutsideView u := Iff.rfl

@[simp] theorem State.SameOutsideView.setResult (s u : State) (v : Nat) :
    s.SameOutsideView (u.setResult v) ↔ s.SameOutsideView u := Iff.rfl

@[simp] theorem State.SameOutsideView.setAux (s u : State) (v : Nat) :
    s.SameOutsideView (u.setAux v) ↔ s.SameOutsideView u := Iff.rfl

@[simp] theorem State.SameOutsideView.setT (s u : State) (v : Bool) :
    s.SameOutsideView (u.setT v) ↔ s.SameOutsideView u := Iff.rfl

@[simp] theorem State.SameOutsideView.setVerdict (s u : State) (v : Bool) :
    s.SameOutsideView (u.setVerdict v) ↔ s.SameOutsideView u := Iff.rfl

@[simp] theorem State.SameOutsideView.writeBytes (s u : State) (a : Nat) (l : List Byte) :
    s.SameOutsideView (u.writeBytes a l) ↔ s.SameOutsideView u := Iff.rfl

/-- A success whose view is known (30_encoding.md R86). -/
theorem complete_view (s u : State) (v : View) (h : s.SameOutsideView u) (hv : u.view = v) :
    ∃ t, complete u = .next t ∧ s.Completed t ∧ t.view = v := by
  obtain ⟨t, h1, h2, h3⟩ := complete_spec s u h
  exact ⟨t, h1, h2, h3.trans hv⟩

end Sys2Proof.Machine
end

