-- ==== Sys2Proof/Machine/Assembler.lean ====
section
/-! DEFINITION. The written form of commands, the pseudo-commands, and host programs as turns of the port (30_encoding.md R90 to R92). -/

namespace Sys2Proof.Machine

/-- How a register is written (30_encoding.md R90). -/
def Reg.written (r : Reg) : String :=
  match r with
  | .b0 => "b0"
  | .b1 => "b1"
  | .b2 => "b2"
  | .b3 => "b3"
  | .b4 => "b4"
  | .b5 => "b5"
  | .b6 => "b6"
  | .b7 => "b7"

/-- The operands, separated by commas (30_encoding.md R90). -/
def writtenList (l : List String) : String :=
  match l with
  | [] => ""
  | [x] => x
  | x :: y :: rest => x ++ ", " ++ writtenList (y :: rest)

/-- The mnemonic and the operands of a command, the immediate in decimal (30_encoding.md R90). -/
def Instr.written (i : Instr) : String :=
  match i with
  | .nop => "NOP"
  | .zeroize => "ZEROIZE"
  | .ldi rd n => "LDI " ++ writtenList [Reg.written rd, toString n]
  | .mov rd ra => "MOV " ++ writtenList [Reg.written rd, Reg.written ra]
  | .cmp ra rb => "CMP " ++ writtenList [Reg.written ra, Reg.written rb]
  | .bitlen ra => "BITLEN " ++ Reg.written ra
  | .add rd ra rb => "ADD " ++ writtenList [Reg.written rd, Reg.written ra, Reg.written rb]
  | .sub rd ra rb => "SUB " ++ writtenList [Reg.written rd, Reg.written ra, Reg.written rb]
  | .mova rd => "MOVA " ++ Reg.written rd
  | .mul ra rb => "MUL " ++ writtenList [Reg.written ra, Reg.written rb]
  | .red rd rm => "RED " ++ writtenList [Reg.written rd, Reg.written rm]
  | .modmul rd ra rb rm => "MODMUL " ++ writtenList [Reg.written rd, Reg.written ra, Reg.written rb, Reg.written rm]
  | .modexp rd ra rb rm => "MODEXP " ++ writtenList [Reg.written rd, Reg.written ra, Reg.written rb, Reg.written rm]
  | .modinv rd ra rm => "MODINV " ++ writtenList [Reg.written rd, Reg.written ra, Reg.written rm]
  | .rngnext => "RNGNEXT"
  | .mrwit ra rm => "MRWIT " ++ writtenList [Reg.written ra, Reg.written rm]
  | .mrtest rm => "MRTEST " ++ Reg.written rm
  | .primecand rd n => "PRIMECAND " ++ writtenList [Reg.written rd, toString n]
  | .primegen rd n => "PRIMEGEN " ++ writtenList [Reg.written rd, toString n]
  | .keygen n => "KEYGEN " ++ toString n
  | .rsaenc rd rb rm => "RSAENC " ++ writtenList [Reg.written rd, Reg.written rb, Reg.written rm]
  | .rsadec ra rb rm => "RSADEC " ++ writtenList [Reg.written ra, Reg.written rb, Reg.written rm]
  | .embed => "EMBED"
  | .extract => "EXTRACT"
  | .ldf rd => "LDF " ++ Reg.written rd
  | .stf ra => "STF " ++ Reg.written ra
  | .pack ra rb => "PACK " ++ writtenList [Reg.written ra, Reg.written rb]
  | .unpack rd rb => "UNPACK " ++ writtenList [Reg.written rd, Reg.written rb]
  | .ldm rd => "LDM " ++ Reg.written rd
  | .stm ra => "STM " ++ Reg.written ra

/-- The pseudo-commands (30_encoding.md R91). -/
inductive Pseudo where
  | lde (rd : Reg)
  | sqr (ra : Reg)
  | modsqr (rd ra rm : Reg)
  | clr (rd : Reg)
deriving DecidableEq, Repr

/-- The command a pseudo-command is an alias of (30_encoding.md R91). -/
def Pseudo.command (p : Pseudo) : Instr :=
  match p with
  | .lde rd => .ldi rd Config.eFixed
  | .sqr ra => .mul ra ra
  | .modsqr rd ra rm => .modmul rd ra ra rm
  | .clr rd => .ldi rd 0

/-- The offset of a register (10_state.md R24). -/
def Csr.offset (c : Csr) : Word :=
  match c with
  | .id => 0x000
  | .cfg => 0x004
  | .memSize => 0x008
  | .cmd => 0x00C
  | .status => 0x010
  | .ie => 0x014
  | .result => 0x018
  | .aux => 0x01C
  | .errInfo => 0x020
  | .errCmd => 0x024
  | .cmdSeq => 0x028
  | .seed => 0x030
  | .rounds => 0x034
  | .maxTry => 0x038
  | .addr0 => 0x040
  | .len0 => 0x044
  | .addr1 => 0x048
  | .len1 => 0x04C
  | .fbase => 0x050
  | .fwidth => 0x054
  | .fheight => 0x058
  | .fchan => 0x05C

/-- The offset of a byte of `MEM` in the aperture (20_memory.md R66). -/
def apertureOffset (a : Nat) : Word := BitVec.ofNat 32 (2147483648 + a % 2147483648)

/-- The lines of a host program (30_encoding.md R92). -/
inductive HostLine where
  | csrw (c : Csr) (value : Word)
  | csrr (c : Csr)
  | memw (a : Nat) (bytes : List Byte)
  | memr (a n : Nat)
  | wait
  | cmd (i : Instr)
deriving DecidableEq, Repr

/-- Single-byte writes to consecutive bytes (30_encoding.md R92). -/
def memwTurns (a : Nat) (bytes : List Byte) : List Action :=
  match bytes with
  | [] => []
  | x :: rest => .write (apertureOffset a) .one (x.setWidth 32) :: memwTurns (a + 1) rest

/-- Single-byte reads of consecutive bytes (30_encoding.md R92). -/
def memrTurns (a n : Nat) : List Action :=
  match n with
  | 0 => []
  | k + 1 => .read (apertureOffset a) .one :: memrTurns (a + 1) k

/-- Waiting: the engine completes and the host then reads `STATUS` once. That it read it in vain before changes
nothing (10_state.md R43), so those reads are left away (log 20). -/
def waitTurns : List Action := [.engine, .read Csr.status.offset .four]

/-- The turns of a line (30_encoding.md R92). -/
def HostLine.turns (l : HostLine) : List Action :=
  match l with
  | .csrw c value => [.write c.offset .four value]
  | .csrr c => [.read c.offset .four]
  | .memw a bytes => memwTurns a bytes
  | .memr a n => memrTurns a n
  | .wait => waitTurns
  | .cmd i => .write Csr.cmd.offset .four (encode i) :: waitTurns

/-- The turns of a host program, in order: a schedule that runs it. -/
def hostProgram (l : List HostLine) : List Action :=
  match l with
  | [] => []
  | x :: rest => x.turns ++ hostProgram rest

end Sys2Proof.Machine
end

