-- ==== Sys2Proof/Tests/Slice0.lean ====
section
/-! SUPPORT. The model's own tests: well-formedness, decoding of words written out from 30_encoding.md R81 to R84, single steps
from spec/95_test_vectors.md and the examples of the rules, and, for every statement with hypotheses, states that meet them. -/

namespace Sys2Proof.Tests

-- The kernel checks these theorems one after the other; waiting for it in many threads at once would only cost memory.
set_option Elab.async false

open Sys2Proof Sys2Proof.Machine

/-! Well-formedness (30_encoding.md R83): an immediate of 21 bits is refused, the largest of 20 bits is not. -/

theorem test_wf_ldi : ¬ WellFormed (.ldi .b1 1048576) ∧ WellFormed (.ldi .b1 1048575) := by decide

theorem test_wf_primecand : ¬ WellFormed (.primecand .b1 1048576) ∧ WellFormed (.primecand .b1 1048575) := by decide

theorem test_wf_primegen : ¬ WellFormed (.primegen .b1 1048576) ∧ WellFormed (.primegen .b1 1048575) := by decide

theorem test_wf_keygen : ¬ WellFormed (.keygen 1048576) ∧ WellFormed (.keygen 1048575) := by decide

/-! Decoding: every command, its word written out from the fields of 30_encoding.md R81 to R84. -/

/-- Format N: opcode in bits 7:0, all else 0. -/
theorem test_decode_format_n :
    decode 0x00000000#32 = .ok .nop ∧ decode 0x00000001#32 = .ok .zeroize ∧ decode 0x00000020#32 = .ok .rngnext ∧
    decode 0x00000040#32 = .ok .embed ∧ decode 0x00000041#32 = .ok .extract := ⟨rfl, rfl, rfl, rfl, rfl⟩

/-- `LDI b2, 65537`: imm 0x10001, rd 2, opcode 0x02 (40_control_alu.md R102); V11. -/
theorem test_decode_ldi :
    decode 0b00010000000000000001001000000010#32 = .ok (.ldi .b2 65537) ∧
    decode 0xFFFFF702#32 = .ok (.ldi .b7 1048575) := ⟨rfl, rfl⟩

/-- `MOV b4, b1`, `CMP b1, b2`, `BITLEN b3` (R103, R104, R105). -/
theorem test_decode_mov_cmp_bitlen :
    decode 0b00000000000000000000110000000011#32 = .ok (.mov .b4 .b1) ∧
    decode 0b00000000000000001000100000000100#32 = .ok (.cmp .b1 .b2) ∧
    decode 0b00000000000000000001100000000101#32 = .ok (.bitlen .b3) := ⟨rfl, rfl, rfl⟩

/-- `ADD b0, b1, b2`, `SUB b5, b3, b7`, `MOVA b2` (R106, R107, R108). -/
theorem test_decode_add_sub_mova :
    decode 0b00000000000000001000100000000110#32 = .ok (.add .b0 .b1 .b2) ∧
    decode 0b00000000000000011101110100000111#32 = .ok (.sub .b5 .b3 .b7) ∧
    decode 0b00000000000000000000001000001000#32 = .ok (.mova .b2) := ⟨rfl, rfl, rfl⟩

/-- `MUL b3, b4`, `RED b0, b7`, `MODMUL`, `MODEXP b3, b1, b2, b0`, `MODINV b2, b1, b5` (R120 to R125, R90). -/
theorem test_decode_modular :
    decode 0b00000000000000010001100000010000#32 = .ok (.mul .b3 .b4) ∧
    decode 0b00000000000011100000000000010001#32 = .ok (.red .b0 .b7) ∧
    decode 0b00000000000000001000101100010010#32 = .ok (.modmul .b3 .b1 .b2 .b0) ∧
    decode 0b00000000000000001000101100010011#32 = .ok (.modexp .b3 .b1 .b2 .b0) ∧
    decode 0b00000000000010100000101000010100#32 = .ok (.modinv .b2 .b1 .b5) := ⟨rfl, rfl, rfl, rfl, rfl⟩

/-- `MRWIT b2, b1`, `MRTEST b1`, `PRIMECAND b3, 16`, `PRIMEGEN b3, 16` (R156 to R161). -/
theorem test_decode_primality :
    decode 0b00000000000000100001000000100001#32 = .ok (.mrwit .b2 .b1) ∧
    decode 0b00000000000000100000000000100010#32 = .ok (.mrtest .b1) ∧
    decode 0b00000000000000010000001100100011#32 = .ok (.primecand .b3 16) ∧
    decode 0b00000000000000010000001100100100#32 = .ok (.primegen .b3 16) := ⟨rfl, rfl, rfl, rfl⟩

/-- `KEYGEN 1024`, `RSAENC b3, b1, b0`, `RSADEC b3, b2, b0` (R90, R172, R173). -/
theorem test_decode_rsa :
    decode 0b00000000010000000000000000110000#32 = .ok (.keygen 1024) ∧
    decode 0b00000000000000000100001100110001#32 = .ok (.rsaenc .b3 .b1 .b0) ∧
    decode 0b00000000000000001001100000110010#32 = .ok (.rsadec .b3 .b2 .b0) := ⟨rfl, rfl, rfl⟩

/-- `LDF b1`, `STF b1`, `PACK b0, b2`, `UNPACK b1, b2`, `LDM b3`, `STM b3` (R211 to R216). -/
theorem test_decode_serializer :
    decode 0b00000000000000000000000101010000#32 = .ok (.ldf .b1) ∧
    decode 0b00000000000000000000100001010001#32 = .ok (.stf .b1) ∧
    decode 0b00000000000000001000000001010010#32 = .ok (.pack .b0 .b2) ∧
    decode 0b00000000000000001000000101010011#32 = .ok (.unpack .b1 .b2) ∧
    decode 0b00000000000000000000001101010100#32 = .ok (.ldm .b3) ∧
    decode 0b00000000000000000001100001010101#32 = .ok (.stm .b3) := ⟨rfl, rfl, rfl, rfl, rfl, rfl⟩

/-- V1 to V8. -/
theorem test_decode_refused :
    decode 0x00000009#32 = .error .illegalOpcode ∧ decode 0xFFFFFFFF#32 = .error .illegalOpcode ∧
    decode 0x00000100#32 = .error .reservedField ∧ decode 0x00100003#32 = .error .reservedField ∧
    decode 0x00004003#32 = .error .reservedField ∧ decode 0x00000802#32 = .error .reservedField ∧
    decode 0x00000830#32 = .error .reservedField ∧ decode 0x00000120#32 = .error .reservedField :=
  ⟨rfl, rfl, rfl, rfl, rfl, rfl, rfl, rfl⟩

theorem test_decodeTableWord : decodeTableWord 32 0x00008B13 = some (.modexp .b3 .b1 .b2 .b0) := rfl

/-! Single steps. -/

/-- The reset state with registers loaded. -/
def loaded (l : List (Reg × Nat)) : State := l.foldl (fun s p => s.setReg p.1 p.2) State.reset

/-- The state an outcome carries. -/
def stateOf (r : Result) : State :=
  match r with
  | .next t => t
  | .fault _ => State.reset
  | .refused _ => State.reset

/-- `MEM` with bytes from address 256 up, an input window over them and an output window of 16 bytes at 512. -/
def buffered (s : State) (bytes : List Byte) : State :=
  { s.writeBytes 256 bytes with addr0 := 256, len0 := BitVec.ofNat 32 bytes.length, addr1 := 512, len1 := 16 }

/-- A frame of `w` by `h` pixels of 3 zero bytes at 1024, with the payload of `buffered`. -/
def framed (w h : Nat) (payload : List Byte) : State :=
  { buffered (State.reset.writeBytes 1024 (List.replicate (w * h * 3) 0)) payload with
    fbase := 1024, fwidth := BitVec.ofNat 32 w, fheight := BitVec.ofNat 32 h }

/-- The reset instance with `W` 4. -/
def narrow (s : State) : State := { s with inst := { s.inst with w := 4 } }

/-- 40_control_alu.md R100 through the step of the host's interface: the word in flight completes and counts. -/
theorem test_nop_step : (stateOf (step (State.reset.withFetchWord 32 0x00000000))).cmdSeq = 1#32 ∧
    (stateOf (step (State.reset.withFetchWord 32 0x00000000))).status.done = true := by decide +kernel

/-- V2: the recorded fault. -/
theorem test_illegal_step : (stateOf (step (State.reset.withFetchWord 32 0xFFFFFFFF))).errInfo = 0x00000101#32 ∧
    (stateOf (step (State.reset.withFetchWord 32 0xFFFFFFFF))).errCmd = 0xFFFFFFFF#32 := by decide +kernel

/-- V22a, in small. -/
theorem test_zeroize : (stateOf (exec .zeroize { loaded [(.b1, 5)] with acc := 9, result := 7, aux := 4 })).b = RegFile.zero ∧
    (stateOf (exec .zeroize { loaded [(.b1, 5)] with acc := 9, result := 7, aux := 4 })).seed = 42#31 := by decide +kernel

/-- V11. -/
theorem test_ldi : (stateOf (exec (.ldi .b7 1048575) State.reset)).reg .b7 = 1048575 := by decide +kernel

/-- V13. -/
theorem test_mov : (stateOf (exec (.mov .b4 .b1) (loaded [(.b1, 77)]))).reg .b4 = 77 := by decide +kernel

/-- V14. -/
theorem test_cmp : (stateOf (exec (.cmp .b1 .b2) (loaded [(.b1, 9), (.b2, 5)]))).result = 2#32 := by decide +kernel

/-- V17. -/
theorem test_bitlen : (stateOf (exec (.bitlen .b3) (loaded [(.b3, 2 ^ 2048 - 1)]))).result = 2048#32 := by decide +kernel

/-- V18. -/
theorem test_add : (stateOf (exec (.add .b0 .b1 .b2) (loaded [(.b1, 2 ^ 2048 - 2), (.b2, 1)]))).reg .b0 = 2 ^ 2048 - 1 := by
  decide +kernel

/-- V19. -/
theorem test_add_overflows :
    (stateOf (exec (.add .b0 .b1 .b2) (loaded [(.b1, 2 ^ 2048 - 1), (.b2, 1)]))).errInfo = 0x00000701#32 := by decide +kernel

/-- 40_control_alu.md R107. -/
theorem test_sub : (stateOf (exec (.sub .b5 .b3 .b7) (loaded [(.b3, 61), (.b7, 1)]))).reg .b5 = 60 := by decide +kernel

/-- V21. -/
theorem test_sub_underflows :
    (stateOf (exec (.sub .b5 .b3 .b7) (loaded [(.b7, 1)]))).errInfo = 0x00000801#32 := by decide +kernel

/-- V24a. -/
theorem test_mova_overflows :
    (stateOf (exec (.mova .b0) { State.reset with acc := 2 ^ 2048 })).errInfo = 0x00000701#32 := by decide +kernel

/-- V25a. -/
theorem test_mul : (stateOf (exec (.mul .b1 .b1) (loaded [(.b1, 2 ^ 2048 - 1)]))).acc = 2 ^ 4096 - 2 ^ 2049 + 1 := by
  decide +kernel

/-- V27a. -/
theorem test_red : (stateOf (exec (.red .b0 .b7) { loaded [(.b7, 100)] with acc := 3233 })).reg .b0 = 33 := by decide +kernel

/-- V31a: a source that is also the destination and the modulus. -/
theorem test_modmul : (stateOf (exec (.modmul .b1 .b1 .b1 .b1) (loaded [(.b1, 12)]))).acc = 144 ∧
    (stateOf (exec (.modmul .b1 .b1 .b1 .b1) (loaded [(.b1, 12)]))).reg .b1 = 0 := by decide +kernel

/-- V32a. -/
theorem test_modexp :
    (stateOf (exec (.modexp .b3 .b1 .b2 .b0) (loaded [(.b1, 65), (.b2, 17), (.b0, 3233)]))).reg .b3 = 2790 := by decide +kernel

/-- V33b. -/
theorem test_modinv :
    (stateOf (exec (.modinv .b2 .b1 .b5) (loaded [(.b1, 3127), (.b5, 3120)]))).reg .b2 = 1783 := by decide +kernel

/-- V33g. -/
theorem test_modinv_none :
    (stateOf (exec (.modinv .b2 .b1 .b5) (loaded [(.b1, 6), (.b5, 9)]))).errInfo = 0x00000103#32 := by decide +kernel

/-- V23, V26. -/
theorem test_rngnext : (stateOf (exec .rngnext State.reset)).result = 1250496027#32 ∧
    (stateOf (exec .rngnext { State.reset with seed := 2147483647 })).seed = 1043980748#31 := by decide +kernel

/-- V30, V30b. -/
theorem test_mrwit : (stateOf (exec (.mrwit .b2 .b1) (loaded [(.b1, 341), (.b2, 2)]))).result = 0#32 ∧
    (stateOf (exec (.mrwit .b2 .b1) (loaded [(.b1, 341), (.b2, 4)]))).result = 1#32 := by decide +kernel

/-- 95_test_vectors.md S1 for 341, and V31f. -/
theorem test_mrtest : (stateOf (exec (.mrtest .b1) (loaded [(.b1, 341)]))).aux = 2#32 ∧
    (stateOf (exec (.mrtest .b1) (loaded [(.b1, 341)]))).seed = 1116302264#31 ∧
    (stateOf (exec (.mrtest .b1) (loaded [(.b1, 5)]))).seed = 529748450#31 := by decide +kernel

/-- V35. -/
theorem test_primecand : (stateOf (exec (.primecand .b3 16) State.reset)).reg .b3 = 36379 := by decide +kernel

/-- V36d. -/
theorem test_primegen : (stateOf (exec (.primegen .b3 8) State.reset)).reg .b3 = 239 ∧
    (stateOf (exec (.primegen .b3 8) State.reset)).seed = 562037703#31 := by decide +kernel

/-- V37. -/
theorem test_primegen_exhausted :
    (stateOf (exec (.primegen .b3 16) { State.reset with maxTry := 1 })).errInfo = 0x00000105#32 ∧
    (stateOf (exec (.primegen .b3 16) { State.reset with maxTry := 1 })).seed = 1116302264#31 := by decide +kernel

/-- V41 (44_rsa.md R171): `KEYGEN 16` from reset. -/
theorem test_keygen : (stateOf (exec (.keygen 16) State.reset)).b = ⟨65537, 39653, 53297, 239, 223, 52836, 0, 0⟩ ∧
    (stateOf (exec (.keygen 16) State.reset)).seed = 1205999894#31 := by decide +kernel

/-- 44_rsa.md R172: `0x07 0xFF` is shorter than the modulus, `0x08 0x00` is not. -/
theorem test_rsaenc :
    (stateOf (exec (.rsaenc .b3 .b1 .b0) (buffered (loaded [(.b0, 3233), (.b1, 17)]) [0x07, 0xFF]))).reg .b3 = 1217 ∧
    (stateOf (exec (.rsaenc .b3 .b1 .b0) (buffered (loaded [(.b0, 3233), (.b1, 17)]) [0x08, 0x00]))).errInfo =
      0x00000102#32 := by decide +kernel

/-- 44_rsa.md R173. -/
theorem test_rsadec :
    (stateOf (exec (.rsadec .b3 .b2 .b0) (buffered (loaded [(.b0, 3233), (.b2, 2753), (.b3, 2790)]) []))).mem = [(512, 0x41)] := by
  decide +kernel

/-- V53 and 45_lsb_codec.md R192: an empty payload embeds the terminator; `cap = 15` is too small. -/
theorem test_embed :
    (stateOf (exec .embed (framed 6 1 []))).readBytes 1024 18 =
      [1, 1, 1, 1, 1, 1, 1, 1, 1, 1, 1, 1, 1, 1, 1, 0, 0, 0] ∧
    (stateOf (exec .embed (framed 5 1 []))).errInfo = 0x00000202#32 := by decide +kernel

/-- V50 with V57: the payload `0x41` comes back. -/
theorem test_extract :
    (stateOf (exec .extract (stateOf (exec .embed (framed 4 2 [0x41]))))).readBytes 512 1 = [0x41] ∧
    (stateOf (exec .extract (stateOf (exec .embed (framed 4 2 [0x41]))))).status.t = true := by decide +kernel

/-- V62: `0x7F 0xFF 0x00` is cut short with one bit left over. -/
theorem test_extract_collision :
    (stateOf (exec .extract (stateOf (exec .embed (framed 4 4 [0x7F, 0xFF, 0x00]))))).aux = 1#32 ∧
    (stateOf (exec .extract (stateOf (exec .embed (framed 4 4 [0x7F, 0xFF, 0x00]))))).result = 0#32 := by decide +kernel

/-- 46_key_serializer.md R211, with fields of 4 bytes. -/
theorem test_ldf : (stateOf (exec (.ldf .b1) (narrow (buffered State.reset [0, 1, 0, 1])))).reg .b1 = 65537 := by decide +kernel

/-- 46_key_serializer.md R212, with fields of 4 bytes. -/
theorem test_stf :
    (stateOf (exec (.stf .b1) (narrow (buffered (loaded [(.b1, 3233)]) [])))).readBytes 512 4 = [0, 0, 0x0C, 0xA1] := by
  decide +kernel

/-- 46_key_serializer.md R213, with fields of 4 bytes. -/
theorem test_pack :
    (stateOf (exec (.pack .b0 .b2) (narrow (buffered (loaded [(.b0, 65537), (.b2, 3233)]) [])))).readBytes 512 8 =
      [0, 1, 0, 1, 0, 0, 0x0C, 0xA1] := by decide +kernel

/-- 46_key_serializer.md R214, with fields of 4 bytes. -/
theorem test_unpack :
    (stateOf (exec (.unpack .b1 .b2) (narrow (buffered State.reset [0, 1, 0, 1, 0, 0, 0x0C, 0xA1])))).reg .b2 = 3233 ∧
    (stateOf (exec (.unpack .b1 .b2) (narrow (buffered State.reset [0, 1, 0, 1, 0, 0, 0x0C])))).errInfo = 0x00000104#32 := by
  decide +kernel

/-- 46_key_serializer.md R215. -/
theorem test_ldm : (stateOf (exec (.ldm .b3) (buffered State.reset [1, 0, 1]))).reg .b3 = 65537 := by decide +kernel

/-- 46_key_serializer.md R216. -/
theorem test_stm :
    (stateOf (exec (.stm .b3) (buffered (loaded [(.b3, 2790)]) []))).readBytes 512 2 = [0x0A, 0xE6] ∧
    (stateOf (exec (.stm .b3) (buffered (loaded [(.b3, 2790)]) []))).result = 2#32 := by decide +kernel

/-- V29a: `SEED` drops bit 31. -/
theorem test_seed_port :
    ((State.reset.hostWrite 0x030#32 .four 0x8000002A#32).hostRead 0x030#32 .four).portData = 0x0000002A#32 := by decide +kernel

/-- 20_memory.md R67: little-endian lanes. -/
theorem test_aperture_lanes :
    (State.reset.hostWrite 0x80000010#32 .four 0x04030201#32).readBytes 16 4 = [1, 2, 3, 4] := by decide +kernel

/-- The example of 30_encoding.md R90, and `KEYGEN 1024`. -/
theorem test_written : Instr.written (.modexp .b3 .b1 .b2 .b0) = "MODEXP b3, b1, b2, b0" ∧
    Instr.written (.keygen 1024) = "KEYGEN 1024" := by decide +kernel

/-- 30_encoding.md R91: `SQR b1` is `MUL b1, b1`, `CLR b3` is `LDI b3, 0`, `LDE b2` is V11's word. -/
theorem test_pseudo : encode (Pseudo.command (.sqr .b1)) = 0x00004810#32 ∧ encode (Pseudo.command (.clr .b3)) = 0x00000302#32 ∧
    encode (Pseudo.command (.lde .b2)) = 0x10001202#32 := by decide +kernel

/-- 30_encoding.md R92: the turns of a command are the write to `CMD`, the completion and the read of `STATUS`. -/
theorem test_host_line : HostLine.turns (.cmd .rngnext) = [.write 0x00C#32 .four 0x00000020#32, .engine, .read 0x010#32 .four] ∧
    HostLine.turns (.memw 256 [7, 8]) = [.write 0x80000100#32 .one 7#32, .write 0x80000101#32 .one 8#32] := by decide +kernel

/-- The offsets are those at which the port finds the registers (10_state.md R24). -/
theorem test_offsets (c : Csr) : csrAt c.offset = some c := by cases c <;> rfl

/-! Witnesses: for each statement of Certificates/Slice0/Obligations.lean with hypotheses, data that meet them together, clause by
clause, at the boundaries of their ranges. -/

theorem test_witness_EncodeThenDecode : WellFormed (.ldi .b7 1048575) ∧ WellFormed (.modexp .b3 .b1 .b2 .b0) := by decide

/-- No command spells the word of NOP with bit 8 set (V3). -/
theorem nop_with_bit8_is_no_command (i : Instr) (_ : WellFormed i) : encode i ≠ 0x00000100#32 := by
  intro h
  have ho : opcodeField (encode i) = 0#8 := by rw [h]; rfl
  cases i <;> simp only [encode, opcodeField_wordR, opcodeField_wordI] at ho h <;>
    first
      | exact absurd ho (by decide)
      | exact absurd h (by decide)

theorem test_witness_EveryWordIsACommandOrAFault :
    Unassigned ((0x00000009#32 : Word).toNat % 256) ∧ Unassigned ((0xFFFFFFFF#32 : Word).toNat % 256) ∧
    decode 0x00000055#32 = .ok (.stm .b0) ∧ ¬ Unassigned ((0x00000100#32 : Word).toNat % 256) ∧
    ∀ i, WellFormed i → encode i ≠ 0x00000100#32 :=
  ⟨by unfold Unassigned; decide, by unfold Unassigned; decide, rfl, by unfold Unassigned; decide, nop_with_bit8_is_no_command⟩

/-- `MOV b4, b1` in flight, nothing scheduled. -/
def inFlight : State := State.reset.issue 0x00000C03#32

theorem test_witness_StepRunsTheDecodedCommand :
    inFlight.status.busy = true ∧ decode inFlight.cmd = .ok (.mov .b4 .b1) ∧ inFlight.schedule = [] ∧
    (inFlight.issueNow 0x00000C03#32).status.busy = true ∧
    decode (inFlight.issueNow 0x00000C03#32).cmd = .ok (.mov .b4 .b1) ∧
    (inFlight.issueNow 0x00000C03#32).schedule = [.engine] := ⟨rfl, rfl, rfl, rfl, rfl, rfl⟩

/-- The same with one turn scheduled. -/
def scheduled (a : Action) : State := { inFlight with schedule := [a] }

theorem test_witness_StepTakesTheScheduledTurn :
    inFlight.schedule = [] ∧ (scheduled .engine).schedule = .engine :: [] ∧
    (scheduled (.read 0x010#32 .four)).schedule = .read 0x010#32 .four :: [] ∧
    (scheduled (.write 0x010#32 .four 4)).schedule = .write 0x010#32 .four 4 :: [] ∧
    (scheduled .reset).schedule = .reset :: [] ∧ State.reset.status.busy = false := ⟨rfl, rfl, rfl, rfl, rfl, rfl⟩

theorem test_witness_IllegalOpcodeIsARecordedFault :
    State.reset.status.busy = false ∧ Unassigned ((0x00000056#32 : Word).toNat % 256) := ⟨rfl, by unfold Unassigned; decide⟩

theorem test_witness_ReservedFieldIsARecordedFault :
    (State.reset.issue 0x00000100#32).status.busy = true ∧ (State.reset.issue 0x00000100#32).cmd = 0x00000100#32 ∧
    ¬ Unassigned ((0x00000100#32 : Word).toNat % 256) ∧ ∀ i, WellFormed i → encode i ≠ 0x00000100#32 :=
  ⟨rfl, rfl, by unfold Unassigned; decide, nop_with_bit8_is_no_command⟩

theorem test_witness_IssueThenOneCompletion : State.reset.status.busy = false := rfl

/-- A state with a full register, a full accumulator and a byte at the top of `MEM`, on fields of 4 bytes. -/
def fullNarrow : State :=
  { narrow (buffered (loaded [(.b1, 2 ^ 32 - 1)]) [7]) with acc := 2 ^ 64 - 1, mem := [(256, 7), (65535, 1)], addr1 := 65520 }

theorem fullNarrow_inv : fullNarrow.Inv where
  w_low := by decide
  w_high := by decide
  mem_low := by decide
  mem_high := by decide
  regs_fit := by intro r; cases r <;> decide +kernel
  acc_fits := by decide +kernel
  mem_wf := by decide
  mem_inside := by decide
  info_known := Or.inl rfl
  err_known := fun h => absurd h (by decide)
  busy_not_done := by decide

theorem test_witness_EveryStepKeepsTheInvariant :
    ({ fullNarrow with status := { Status.clear with busy := true } } : State).Inv ∧
    ∃ t, step { fullNarrow with status := { Status.clear with busy := true } } = .next t :=
  ⟨⟨by decide, by decide, by decide, by decide, fullNarrow_inv.regs_fit, fullNarrow_inv.acc_fits, by decide, by decide,
    Or.inl rfl, fun h => absurd h (by decide), by decide⟩, _, rfl⟩

theorem test_witness_ByteStringsAreBigEndian : (255 < 256 ^ 1) ∧ (0 : Nat) < 255 := by decide

theorem test_witness_LdiAndMovComplete : Imm20 1048575 := by decide

theorem test_witness_CmpAndBitlenComplete : (loaded []).reg .b1 = 0 ∧ 0 < (loaded [(.b1, 1)]).reg .b1 := by decide

theorem test_witness_AddSubMovaAreExactOrFault :
    (loaded [(.b1, 2 ^ 2048 - 2), (.b2, 1)]).reg .b1 + (loaded [(.b1, 2 ^ 2048 - 2), (.b2, 1)]).reg .b2 <
      2 ^ (loaded [(.b1, 2 ^ 2048 - 2), (.b2, 1)]).k ∧
    2 ^ (loaded [(.b1, 2 ^ 2048 - 1), (.b2, 1)]).k ≤
      (loaded [(.b1, 2 ^ 2048 - 1), (.b2, 1)]).reg .b1 + (loaded [(.b1, 2 ^ 2048 - 1), (.b2, 1)]).reg .b2 ∧
    (loaded [(.b1, 5), (.b2, 5)]).reg .b2 ≤ (loaded [(.b1, 5), (.b2, 5)]).reg .b1 ∧
    (loaded [(.b1, 4), (.b2, 5)]).reg .b1 < (loaded [(.b1, 4), (.b2, 5)]).reg .b2 ∧
    ({ State.reset with acc := 2 ^ 2048 - 1 } : State).acc < 2 ^ ({ State.reset with acc := 2 ^ 2048 - 1 } : State).k ∧
    2 ^ ({ State.reset with acc := 2 ^ 2048 } : State).k ≤ ({ State.reset with acc := 2 ^ 2048 } : State).acc := by
  decide +kernel

theorem test_witness_MulRedModmulCompleteOrFault : 0 < (loaded [(.b0, 1)]).reg .b0 ∧ (loaded []).reg .b0 = 0 := by decide

theorem test_witness_ModexpIsTheResidueOfThePower : 0 < (loaded [(.b0, 1)]).reg .b0 ∧ (loaded []).reg .b0 = 0 := by decide

theorem test_witness_ModinvIsTheInverseOrFaults :
    (0 < (loaded [(.b1, 5), (.b5, 1)]).reg .b5 ∧
      Nat.gcd ((loaded [(.b1, 5), (.b5, 1)]).reg .b1 % (loaded [(.b1, 5), (.b5, 1)]).reg .b5)
        ((loaded [(.b1, 5), (.b5, 1)]).reg .b5) = 1) ∧
    (0 < (loaded [(.b1, 0), (.b5, 2)]).reg .b5 ∧
      Nat.gcd ((loaded [(.b1, 0), (.b5, 2)]).reg .b1 % (loaded [(.b1, 0), (.b5, 2)]).reg .b5)
        ((loaded [(.b1, 0), (.b5, 2)]).reg .b5) ≠ 1) ∧
    (loaded [(.b1, 3)]).reg .b5 = 0 := by decide

theorem test_witness_ModmulIsMulThenRed :
    0 < (loaded [(.b1, 7), (.b2, 2), (.b0, 10)]).reg .b0 ∧ (loaded [(.b1, 7), (.b2, 2), (.b0, 10)]).reg .b2 = 2 := by decide

/-- The boundaries of MRWIT: `n = 5` with the bases 2 and 4 (V30i), `n = 9` with base 2 (V30e), and each check that fails. -/
theorem test_witness_MrwitGivesTheRoundOrFaults :
    (3 < (loaded [(.b1, 5), (.b2, 4)]).reg .b1 ∧ (loaded [(.b1, 5), (.b2, 4)]).reg .b1 % 2 = 1 ∧
      2 ≤ (loaded [(.b1, 5), (.b2, 4)]).reg .b2 ∧
      (loaded [(.b1, 5), (.b2, 4)]).reg .b2 ≤ (loaded [(.b1, 5), (.b2, 4)]).reg .b1 - 1 ∧ StrongProbablePrime 5 4) ∧
    (3 < (loaded [(.b1, 9), (.b2, 2)]).reg .b1 ∧ (loaded [(.b1, 9), (.b2, 2)]).reg .b1 % 2 = 1 ∧
      2 ≤ (loaded [(.b1, 9), (.b2, 2)]).reg .b2 ∧
      (loaded [(.b1, 9), (.b2, 2)]).reg .b2 ≤ (loaded [(.b1, 9), (.b2, 2)]).reg .b1 - 1 ∧ ¬ StrongProbablePrime 9 2) ∧
    (loaded [(.b1, 3), (.b2, 2)]).reg .b1 ≤ 3 ∧ (loaded [(.b1, 4), (.b2, 2)]).reg .b1 % 2 = 0 ∧
    (loaded [(.b1, 341), (.b2, 1)]).reg .b2 < 2 ∧
    (loaded [(.b1, 341), (.b2, 341)]).reg .b1 - 1 < (loaded [(.b1, 341), (.b2, 341)]).reg .b2 := by
  refine ⟨⟨by decide, by decide, by decide, by decide, (roundPasses_iff 5 4 (by decide) rfl).1 (by decide)⟩,
    ⟨by decide, by decide, by decide, by decide, fun h => ?_⟩, by decide, by decide, by decide, by decide⟩
  exact absurd ((roundPasses_iff 9 2 (by decide) rfl).2 h) (by decide)

/-- One round a test. -/
def oneRound (l : List (Reg × Nat)) : State := { loaded l with rounds := 1 }

theorem test_witness_MrtestRunsTheRounds :
    ({ State.reset with rounds := 0 } : State).rounds = 0#32 ∧ (oneRound []).rounds ≠ 0#32 ∧
    ((oneRound [(.b1, 1)]).reg .b1 ≤ 1) ∧ ((oneRound [(.b1, 4)]).reg .b1 % 2 = 0 ∧ (oneRound [(.b1, 4)]).reg .b1 ≠ 2) ∧
    (oneRound [(.b1, 2)]).reg .b1 = 2 ∧ (oneRound [(.b1, 3)]).reg .b1 = 3 ∧
    (3 < (oneRound [(.b1, 5)]).reg .b1 ∧ (oneRound [(.b1, 5)]).reg .b1 % 2 = 1 ∧
      ∀ j, j < (oneRound [(.b1, 5)]).rounds.toNat →
        StrongProbablePrime ((oneRound [(.b1, 5)]).reg .b1)
          ((drawAfter (oneRound [(.b1, 5)]).seed (j + 1)).toNat % ((oneRound [(.b1, 5)]).reg .b1 - 2) + 2)) ∧
    (3 < (oneRound [(.b1, 9)]).reg .b1 ∧ (oneRound [(.b1, 9)]).reg .b1 % 2 = 1 ∧ 0 < (oneRound [(.b1, 9)]).rounds.toNat ∧
      ¬ StrongProbablePrime ((oneRound [(.b1, 9)]).reg .b1)
          ((drawAfter (oneRound [(.b1, 9)]).seed (0 + 1)).toNat % ((oneRound [(.b1, 9)]).reg .b1 - 2) + 2)) := by
  refine ⟨rfl, by decide, by decide, by decide, rfl, rfl, ⟨by decide, rfl, ?_⟩, ⟨by decide, rfl, by decide, ?_⟩⟩
  · intro j hj
    have h0 : j = 0 := by have : (oneRound [(.b1, 5)]).rounds.toNat = 1 := rfl; omega
    subst h0
    exact (roundPasses_iff 5 _ (by decide) rfl).1 (by decide +kernel)
  · exact fun h => absurd ((roundPasses_iff 9 _ (by decide) rfl).2 h) (by decide +kernel)

theorem test_witness_MrtestNeverRejectsAPrime : Nat.Prime ((loaded [(.b1, 61)]).reg .b1) ∧ (loaded [(.b1, 61)]).rounds ≠ 0#32 :=
  ⟨by have h : (loaded [(.b1, 61)]).reg .b1 = 61 := rfl
      rw [h]; norm_num, by decide⟩

theorem test_witness_PrimecandDrawsOneCandidate :
    Imm20 2048 ∧ (2 ≤ 2 ∧ 2 ≤ State.reset.k) ∧ (2 ≤ 2048 ∧ 2048 ≤ State.reset.k ∧ 31 < 2048) ∧ 1 < 2 ∧ State.reset.k < 2049 := by
  decide

/-- `MAXTRY` 1 from reset: the one candidate of 16 bits fails (V37). -/
def oneTry (seed : Seed) : State := { State.reset with seed := seed, maxTry := 1, rounds := 1 }

theorem test_witness_PrimegenFindsOrReportsExhaustion :
    Imm20 1048575 ∧ 2 ≤ 2 ∧ 2048 ≤ State.reset.k ∧ (oneTry 42).rounds ≠ 0#32 ∧
    SearchFinds (oneTry 42).tryLimit 2 (oneTry 42).rounds.toNat (oneTry 42).seed 3 1 1250496027#31 ∧
    SearchFails (oneTry 42).tryLimit 16 (oneTry 42).rounds.toNat (oneTry 42).seed 1116302264#31 ∧
    1 < 2 ∧ State.reset.k < 2049 ∧ ({ State.reset with rounds := 0 } : State).rounds = 0#32 :=
  ⟨by decide, by decide, by decide, by decide, SearchFinds.of_search (by decide +kernel),
    SearchFails.of_search (by decide +kernel), by decide, by decide, rfl⟩

theorem test_witness_PrimegenOfTwoOrThreeBits : 3 ≤ State.reset.k ∧ State.reset.rounds ≠ 0#32 := by decide

/-- The seeds make the first search, the second search or the inverse fail, and with seed 42 none of them. -/
theorem test_witness_KeygenDerivesTheKeyOrFaults :
    Imm20 1048575 ∧ 2 ≤ 4 / 2 ∧ 2048 / 2 ≤ State.reset.k / 2 ∧ (oneTry 42).rounds ≠ 0#32 ∧
    SearchFails (oneTry 42).tryLimit (32 / 2) (oneTry 42).rounds.toNat (oneTry 42).seed 1116302264#31 ∧
    (SearchFinds (oneTry 2).tryLimit (8 / 2) (oneTry 2).rounds.toNat (oneTry 2).seed 11 1 1495354192#31 ∧
      SearchFails (oneTry 2).tryLimit (8 / 2) (oneTry 2).rounds.toNat 1495354192#31 846338638#31) ∧
    (SearchFinds ({ oneTry 1491235182 with maxTry := 4 } : State).tryLimit (40 / 2) 1 1491235182#31 917519 1 613730460#31 ∧
      SearchFinds ({ oneTry 1491235182 with maxTry := 4 } : State).tryLimit (40 / 2) 1 613730460#31 778759 4 1907855156#31 ∧
      65537 ∣ 917519 - 1) ∧
    (SearchFinds (oneTry 42).tryLimit (5 / 2) (oneTry 42).rounds.toNat (oneTry 42).seed 3 1 1250496027#31 ∧
      SearchFinds (oneTry 42).tryLimit (5 / 2) (oneTry 42).rounds.toNat 1250496027#31 3 1 1116302264#31 ∧
      ¬ 65537 ∣ 3 - 1) ∧
    (SearchFinds (oneTry 550).tryLimit (68 / 2) (oneTry 550).rounds.toNat (oneTry 550).seed 9932942951 1 2100548628#31 ∧
      SearchFinds (oneTry 550).tryLimit (68 / 2) (oneTry 550).rounds.toNat 2100548628#31 9481721021 1 945429170#31 ∧
      ¬ 65537 ∣ 9932942951 - 1 ∧ ¬ 65537 ∣ 9481721021 - 1 ∧ 34 ≤ 68 / 2) ∧
    3 / 2 < 2 ∧ State.reset.k / 2 < 2050 / 2 ∧ ({ State.reset with rounds := 0 } : State).rounds = 0#32 :=
  ⟨by decide, by decide, by decide, by decide, SearchFails.of_search (by decide +kernel),
    ⟨SearchFinds.of_search (by decide +kernel), SearchFails.of_search (by decide +kernel)⟩,
    ⟨SearchFinds.of_search (by decide +kernel), SearchFinds.of_search (by decide +kernel), by decide⟩,
    ⟨SearchFinds.of_search (by decide +kernel), SearchFinds.of_search (by decide +kernel), by decide⟩,
    ⟨SearchFinds.of_search (by decide +kernel), SearchFinds.of_search (by decide +kernel), by decide, by decide, by decide⟩,
    by decide, by decide, rfl⟩

theorem test_witness_KeygenIsDeterminedByTheSeed :
    (loaded [(.b1, 5)]).inst.w = State.reset.inst.w ∧ (loaded [(.b1, 5)]).seed = State.reset.seed ∧
    (loaded [(.b1, 5)]).rounds = State.reset.rounds ∧ (loaded [(.b1, 5)]).maxTry = State.reset.maxTry := ⟨rfl, rfl, rfl, rfl⟩

/-- A message under the modulus 15 with exponents 3 and 3. -/
def toy (message : List Byte) : State := buffered (loaded [(.b0, 15), (.b1, 3), (.b2, 3)]) message

theorem test_witness_RsaencEncryptsOrFaults :
    ({ toy [7] with addr0 := 65536 } : State).inst.memSize <
      ({ toy [7] with addr0 := 65536 } : State).inAddr + ({ toy [7] with addr0 := 65536 } : State).inLen ∧
    ((toy [8]).inAddr + (toy [8]).inLen ≤ (toy [8]).inst.memSize ∧ bitlen ((toy [8]).reg .b0) ≤ bitlen (be (toy [8]).inBytes)) ∧
    ((toy [0, 7]).inAddr + (toy [0, 7]).inLen ≤ (toy [0, 7]).inst.memSize ∧
      bitlen (be (toy [0, 7]).inBytes) < bitlen ((toy [0, 7]).reg .b0)) := by decide +kernel

/-- The toy key with a cipher in `B3`, an output window of `len` bytes and a text predicate. -/
def toyCipher (c len : Nat) (p : TextPolicy) : State :=
  { toy [] with
    b := (loaded [(.b0, 32767), (.b2, 1), (.b3, c)]).b, len1 := BitVec.ofNat 32 len
    inst := { Instance.reference with text := p } }

theorem test_witness_RsadecDecryptsOrFaults :
    ({ toyCipher 7 1 .acceptAll with addr1 := 65536 } : State).inst.memSize <
      ({ toyCipher 7 1 .acceptAll with addr1 := 65536 } : State).outAddr +
        ({ toyCipher 7 1 .acceptAll with addr1 := 65536 } : State).outLen ∧
    (toyCipher 7 1 .acceptAll).outAddr + (toyCipher 7 1 .acceptAll).outLen ≤ (toyCipher 7 1 .acceptAll).inst.memSize ∧
    (toyCipher 32767 1 .acceptAll).reg .b0 ≤ (toyCipher 32767 1 .acceptAll).reg .b3 ∧
    ((toyCipher 32766 1 .acceptAll).reg .b3 < (toyCipher 32766 1 .acceptAll).reg .b0 ∧
      (toyCipher 32766 1 .acceptAll).outLen < (minbytes (32766 ^ 1 % 32767)).length) ∧
    ((toyCipher 128 1 .ascii).reg .b3 < (toyCipher 128 1 .ascii).reg .b0 ∧
      (minbytes (128 ^ 1 % 32767)).length ≤ (toyCipher 128 1 .ascii).outLen ∧
      (toyCipher 128 1 .ascii).inst.text.accepts (minbytes (128 ^ 1 % 32767)) = false) ∧
    ((toyCipher 127 1 .ascii).reg .b3 < (toyCipher 127 1 .ascii).reg .b0 ∧
      (minbytes (127 ^ 1 % 32767)).length ≤ (toyCipher 127 1 .ascii).outLen ∧
      (toyCipher 127 1 .ascii).inst.text.accepts (minbytes (127 ^ 1 % 32767)) = true) := by decide +kernel

theorem test_witness_DecryptAfterEncryptGivesTheMessage :
    (∀ x, x < (toy [7]).reg .b0 → x ^ ((toy [7]).reg .b1 * (toy [7]).reg .b2) % (toy [7]).reg .b0 = x) ∧
    (Reg.b3 ≠ Reg.b2 ∧ Reg.b3 ≠ Reg.b0) ∧
    (toy [7]).inAddr + (toy [7]).inLen ≤ (toy [7]).inst.memSize ∧
    bitlen (be (toy [7]).inBytes) < bitlen ((toy [7]).reg .b0) ∧
    (toy [7]).outAddr + (toy [7]).outLen ≤ (toy [7]).inst.memSize ∧
    (minbytes (be (toy [7]).inBytes)).length ≤ (toy [7]).outLen ∧
    (toy [7]).inst.text.accepts (minbytes (be (toy [7]).inBytes)) = true ∧ (toy [7]).inBytes.getD 0 0 ≠ 0 := by decide +kernel

/-- The same with a message whose first byte is 0, which is not the message RSADEC writes. -/
theorem test_witness_DecryptAfterEncryptGivesTheMessage_leading_zero :
    (∀ x, x < (toy [0, 7]).reg .b0 → x ^ ((toy [0, 7]).reg .b1 * (toy [0, 7]).reg .b2) % (toy [0, 7]).reg .b0 = x) ∧
    (Reg.b3 ≠ Reg.b2 ∧ Reg.b3 ≠ Reg.b0) ∧
    (toy [0, 7]).inAddr + (toy [0, 7]).inLen ≤ (toy [0, 7]).inst.memSize ∧
    bitlen (be (toy [0, 7]).inBytes) < bitlen ((toy [0, 7]).reg .b0) ∧
    (toy [0, 7]).outAddr + (toy [0, 7]).outLen ≤ (toy [0, 7]).inst.memSize ∧
    (minbytes (be (toy [0, 7]).inBytes)).length ≤ (toy [0, 7]).outLen ∧
    (toy [0, 7]).inst.text.accepts (minbytes (be (toy [0, 7]).inBytes)) = true ∧ (toy [0, 7]).inBytes.getD 0 0 = 0 ∧ minbytes (be (toy [0, 7]).inBytes) = [7] := by decide +kernel

theorem test_witness_EmbedWritesTheStreamOrFaults :
    ({ framed 4 2 [0x41] with fchan := 2 } : State).chan < 3 ∧ 3 ≤ (framed 4 2 [0x41]).chan ∧
    ({ framed 4 2 [0x41] with fbase := 65513 } : State).inst.memSize <
      ({ framed 4 2 [0x41] with fbase := 65513 } : State).frameAddr + ({ framed 4 2 [0x41] with fbase := 65513 } : State).frameLen ∧
    ({ framed 4 2 [0x41] with addr0 := 65536 } : State).inst.memSize <
      ({ framed 4 2 [0x41] with addr0 := 65536 } : State).inAddr + ({ framed 4 2 [0x41] with addr0 := 65536 } : State).inLen ∧
    (({ framed 4 2 [0x41] with addr0 := 1047 } : State).frameAddr + ({ framed 4 2 [0x41] with addr0 := 1047 } : State).frameLen ≤
        ({ framed 4 2 [0x41] with addr0 := 1047 } : State).inst.memSize ∧
      ({ framed 4 2 [0x41] with addr0 := 1047 } : State).inAddr + ({ framed 4 2 [0x41] with addr0 := 1047 } : State).inLen ≤
        ({ framed 4 2 [0x41] with addr0 := 1047 } : State).inst.memSize ∧
      Overlap ({ framed 4 2 [0x41] with addr0 := 1047 } : State).inAddr ({ framed 4 2 [0x41] with addr0 := 1047 } : State).inLen
        ({ framed 4 2 [0x41] with addr0 := 1047 } : State).frameAddr
        ({ framed 4 2 [0x41] with addr0 := 1047 } : State).frameLen) ∧
    ((framed 23 1 [0x41, 0x42, 0x43, 0x44, 0x45, 0x46, 0x47]).FrameReady 256 7 ∧
      (framed 23 1 [0x41, 0x42, 0x43, 0x44, 0x45, 0x46, 0x47]).cap <
        8 * (framed 23 1 [0x41, 0x42, 0x43, 0x44, 0x45, 0x46, 0x47]).inLen + 16) ∧
    ((framed 4 2 [0x41]).FrameReady (framed 4 2 [0x41]).inAddr (framed 4 2 [0x41]).inLen ∧
      8 * (framed 4 2 [0x41]).inLen + 16 ≤ (framed 4 2 [0x41]).cap) := by
  unfold State.FrameReady
  decide +kernel

/-- A frame of `w` pixels in one row whose LSBs are those of the bytes given, with an output window of `len` bytes. -/
def marked (w : Nat) (lsbs : List Byte) (len : Nat) : State :=
  { buffered (State.reset.writeBytes 1024 lsbs) [] with
    fbase := 1024, fwidth := BitVec.ofNat 32 w, fheight := 1, len1 := BitVec.ofNat 32 len }

/-- Eight 0s, then the terminator. -/
def oneZeroByte : List Byte := List.replicate 8 0 ++ (List.replicate 15 1 ++ [0])

theorem test_witness_ExtractReadsUpToTheTerminator :
    ({ marked 8 oneZeroByte 1 with fchan := 2 } : State).chan < 3 ∧ 3 ≤ (marked 8 oneZeroByte 1).chan ∧
    ({ marked 8 oneZeroByte 1 with fbase := 65513 } : State).inst.memSize <
      ({ marked 8 oneZeroByte 1 with fbase := 65513 } : State).frameAddr + ({ marked 8 oneZeroByte 1 with fbase := 65513 } : State).frameLen ∧
    ({ marked 8 oneZeroByte 1 with addr1 := 65536 } : State).inst.memSize <
      ({ marked 8 oneZeroByte 1 with addr1 := 65536 } : State).outAddr + ({ marked 8 oneZeroByte 1 with addr1 := 65536 } : State).outLen ∧
    (({ marked 8 oneZeroByte 1 with addr1 := 1024 } : State).frameAddr + ({ marked 8 oneZeroByte 1 with addr1 := 1024 } : State).frameLen ≤
        ({ marked 8 oneZeroByte 1 with addr1 := 1024 } : State).inst.memSize ∧
      ({ marked 8 oneZeroByte 1 with addr1 := 1024 } : State).outAddr + ({ marked 8 oneZeroByte 1 with addr1 := 1024 } : State).outLen ≤
        ({ marked 8 oneZeroByte 1 with addr1 := 1024 } : State).inst.memSize ∧
      Overlap ({ marked 8 oneZeroByte 1 with addr1 := 1024 } : State).outAddr ({ marked 8 oneZeroByte 1 with addr1 := 1024 } : State).outLen
        ({ marked 8 oneZeroByte 1 with addr1 := 1024 } : State).frameAddr
        ({ marked 8 oneZeroByte 1 with addr1 := 1024 } : State).frameLen) ∧
    ((marked 6 (List.replicate 18 1) 1).FrameReady 512 1 ∧
      ∀ i, i + 16 ≤ (marked 6 (List.replicate 18 1) 1).cap → ¬ TerminatorAt (marked 6 (List.replicate 18 1) 1).frameBit i) ∧
    ((marked 8 oneZeroByte 0).FrameReady 512 0 ∧ (marked 8 oneZeroByte 1).FrameReady 512 1 ∧
      8 + 16 ≤ (marked 8 oneZeroByte 1).cap ∧ TerminatorAt (marked 8 oneZeroByte 1).frameBit 8 ∧
      (∀ j, j < 8 → ¬ TerminatorAt (marked 8 oneZeroByte 1).frameBit j) ∧
      (marked 8 oneZeroByte 0).outLen < 8 / 8 ∧ 8 / 8 ≤ (marked 8 oneZeroByte 1).outLen) := by
  refine ⟨by decide, by decide, by decide, by decide, by decide, ⟨by unfold State.FrameReady; decide, ?_⟩,
    ⟨by unfold State.FrameReady; decide, by unfold State.FrameReady; decide, by decide, ?_, ?_, by decide, by decide⟩⟩
  · have h : ∀ i, i < 3 → ¬ TerminatorAt (marked 6 (List.replicate 18 1) 1).frameBit i := by
      unfold TerminatorAt; decide +kernel
    intro i hi
    have hc : (marked 6 (List.replicate 18 1) 1).cap = 18 := rfl
    exact h i (by omega)
  · unfold TerminatorAt; decide +kernel
  · unfold TerminatorAt; decide +kernel

theorem test_witness_ExtractAfterEmbedReturnsThePayload :
    (framed 4 2 [0x41]).FrameReady (framed 4 2 [0x41]).inAddr (framed 4 2 [0x41]).inLen ∧
    8 * (framed 4 2 [0x41]).inLen + 16 ≤ (framed 4 2 [0x41]).cap ∧
    (framed 4 2 [0x41]).FrameReady (framed 4 2 [0x41]).outAddr (framed 4 2 [0x41]).outLen ∧
    (framed 4 2 [0x41]).inLen ≤ (framed 4 2 [0x41]).outLen ∧
    TerminatorAt (streamBit (framed 4 2 [0x41]).readByte (framed 4 2 [0x41]).inAddr (framed 4 2 [0x41]).inLen) 8 ∧
    (∀ j, j < 8 → ¬ TerminatorAt (streamBit (framed 4 2 [0x41]).readByte (framed 4 2 [0x41]).inAddr (framed 4 2 [0x41]).inLen) j) := by
  unfold State.FrameReady TerminatorAt
  decide +kernel

/-- 45_lsb_codec.md R194: in `0xFF 0xFE` the first terminator stands at 0. -/
theorem test_witness_ExtractAfterEmbed_collision :
    (framed 4 4 [0xFF, 0xFE]).FrameReady (framed 4 4 [0xFF, 0xFE]).inAddr (framed 4 4 [0xFF, 0xFE]).inLen ∧
    8 * (framed 4 4 [0xFF, 0xFE]).inLen + 16 ≤ (framed 4 4 [0xFF, 0xFE]).cap ∧
    TerminatorAt (streamBit (framed 4 4 [0xFF, 0xFE]).readByte (framed 4 4 [0xFF, 0xFE]).inAddr (framed 4 4 [0xFF, 0xFE]).inLen) 0 := by
  unfold State.FrameReady TerminatorAt
  decide +kernel

/-- The state of the loads: fields of 4 bytes, an input window of the bytes given. -/
def field (bytes : List Byte) : State := narrow (buffered State.reset bytes)

theorem test_witness_LdfAndLdmLoadOrFault :
    ({ field [1] with addr0 := 65536 } : State).inst.memSize <
      ({ field [1] with addr0 := 65536 } : State).inAddr + ({ field [1] with addr0 := 65536 } : State).inLen ∧
    (field [1, 2, 3]).inAddr + (field [1, 2, 3]).inLen ≤ (field [1, 2, 3]).inst.memSize ∧
    (field [1, 2, 3]).inLen ≠ (field [1, 2, 3]).inst.w ∧ (field [1, 2, 3, 4]).inLen = (field [1, 2, 3, 4]).inst.w ∧
    2 ^ (field [1, 0, 0, 0, 0]).k ≤ be ((field [1, 0, 0, 0, 0]).readBytes (field [1, 0, 0, 0, 0]).inAddr (field [1, 0, 0, 0, 0]).inLen) ∧
    be ((field [0, 255, 255, 255, 255]).readBytes (field [0, 255, 255, 255, 255]).inAddr (field [0, 255, 255, 255, 255]).inLen) <
      2 ^ (field [0, 255, 255, 255, 255]).k := by decide +kernel

/-- Fields of 4 bytes, `B1` given, an output window of `len` bytes. -/
def storing (v len : Nat) : State := { narrow (buffered (loaded [(.b1, v)]) []) with len1 := BitVec.ofNat 32 len }

theorem test_witness_StfPackStmStoreOrFault :
    ({ storing 1 1 with addr1 := 65536 } : State).inst.memSize <
      ({ storing 1 1 with addr1 := 65536 } : State).outAddr + ({ storing 1 1 with addr1 := 65536 } : State).outLen ∧
    (storing 1 3).outAddr + (storing 1 3).outLen ≤ (storing 1 3).inst.memSize ∧
    (storing 1 3).outLen < (storing 1 3).inst.w ∧ (storing 1 4).inst.w ≤ (storing 1 4).outLen ∧
    (storing 1 7).outLen < 2 * (storing 1 7).inst.w ∧ 2 * (storing 1 8).inst.w ≤ (storing 1 8).outLen ∧
    (storing 256 1).outLen < (minbytes ((storing 256 1).reg .b1)).length ∧
    (minbytes ((storing 255 1).reg .b1)).length ≤ (storing 255 1).outLen := by decide +kernel

theorem test_witness_UnpackLoadsTwoFieldsOrFaults :
    (Reg.b1 = Reg.b1) ∧ Reg.b1 ≠ Reg.b2 ∧
    ({ field [1] with addr0 := 65536 } : State).inst.memSize <
      ({ field [1] with addr0 := 65536 } : State).inAddr + ({ field [1] with addr0 := 65536 } : State).inLen ∧
    (field [1, 2, 3, 4, 5, 6, 7]).inAddr + (field [1, 2, 3, 4, 5, 6, 7]).inLen ≤ (field [1, 2, 3, 4, 5, 6, 7]).inst.memSize ∧
    (field [1, 2, 3, 4, 5, 6, 7]).inLen ≠ 2 * (field [1, 2, 3, 4, 5, 6, 7]).inst.w ∧
    (field [1, 2, 3, 4, 5, 6, 7, 8]).inLen = 2 * (field [1, 2, 3, 4, 5, 6, 7, 8]).inst.w := by decide +kernel

theorem test_witness_UnpackAfterPackRestoresBoth :
    fullNarrow.Inv ∧ Reg.b2 ≠ Reg.b3 ∧ fullNarrow.outAddr + fullNarrow.outLen ≤ fullNarrow.inst.memSize ∧
    2 * fullNarrow.inst.w ≤ fullNarrow.outLen := ⟨fullNarrow_inv, by decide, by decide, by decide⟩

theorem test_witness_LdmAfterStmRestoresTheValue :
    fullNarrow.Inv ∧ fullNarrow.outAddr + fullNarrow.outLen ≤ fullNarrow.inst.memSize ∧
    (minbytes (fullNarrow.reg .b1)).length ≤ fullNarrow.outLen := ⟨fullNarrow_inv, by decide, by decide +kernel⟩

theorem test_witness_AFaultRecordsItsCodeAndRetires :
    ((Cause.text, 0x00000204#32) : Cause × Word) ∈ [(Cause.illegalOpcode, 0x00000101#32), (.reservedField, 0x00000201#32), (.param, 0x00000301#32),
      (.addr, 0x00000401#32), (.overlap, 0x00000501#32), (.modulusZero, 0x00000601#32),
      (.overflow, 0x00000701#32), (.underflow, 0x00000801#32), (.cipherRange, 0x00000901#32),
      (.outBuf, 0x00000A01#32), (.msgTooLong, 0x00000102#32), (.frameTooSmall, 0x00000202#32),
      (.noInverse, 0x00000103#32), (.keyBufLen, 0x00000104#32), (.text, 0x00000204#32),
      (.primeSearch, 0x00000105#32)] ∧ State.reset.status.err = false ∧
    (State.reset.record .text).status.err = true := by decide

theorem test_witness_OnlyTheListedCommandsWriteEachRegister :
    (∃ t, exec .nop State.reset = .next t) ∧ Reg.b1 ∉ (writesOf .nop).regs ∧ (writesOf .nop).acc = false ∧
    (writesOf .nop).seed = false ∧ (writesOf .nop).t = false ∧ (writesOf .nop).result = false ∧ (writesOf .nop).aux = false :=
  ⟨⟨_, rfl⟩, by decide, rfl, rfl, rfl, rfl, rfl⟩

/-- STF writes the byte 255 over the byte 0 at 512. -/
theorem test_witness_CommandsStoreOnlyInTheirWindows :
    (∃ t, exec (.stf .b1) ((storing (2 ^ 32 - 1) 4).writeBytes 512 [0]) = .next t ∧
      t.readByte 512 ≠ ((storing (2 ^ 32 - 1) 4).writeBytes 512 [0]).readByte 512) :=
  ⟨stateOf (exec (.stf .b1) ((storing (2 ^ 32 - 1) 4).writeBytes 512 [0])), rfl, by decide +kernel⟩

theorem test_witness_CsrReadsGiveTheRegisters : (0x7FFFFFFF#32 : Word).getLsbD 31 = false ∧ 6 ≤ 6 ∧ 2 ≤ 2 := by decide

theorem test_witness_NoRegisterReadsZeroAndIgnoresWrites :
    ((0x000#32 : Word).getLsbD 31 = false ∧ Size.two ≠ Size.four) ∧
    ((0x001#32 : Word).getLsbD 31 = false ∧ (0x001#32 : Word).toNat % 4 ≠ 0) ∧
    ((0x060#32 : Word).getLsbD 31 = false ∧ 0x05C < (0x060#32 : Word).toNat) ∧
    ((0x7FFFFFFC#32 : Word).getLsbD 31 = false ∧ 0x05C < (0x7FFFFFFC#32 : Word).toNat) ∧
    (0x02C#32 : Word).toNat = 0x02C ∧ (0x03C#32 : Word).toNat = 0x03C := by decide

theorem test_witness_IdleWritesReachTheWritableBits : State.reset.status.busy = false := rfl

theorem test_witness_BusyAccessesAreRefused : inFlight.status.busy = true ∧ (0x80000000#32 : Word).getLsbD 31 = true := by decide

theorem test_witness_IdleApertureMovesLittleEndianLanes :
    State.reset.status.busy = false ∧
    (65535 < 2 ^ 31 ∧ 65535 % Size.one.bytes = 0 ∧ 65535 + Size.one.bytes ≤ State.reset.inst.memSize) ∧
    (65532 < 2 ^ 31 ∧ 65532 % Size.four.bytes = 0 ∧ 65532 + Size.four.bytes ≤ State.reset.inst.memSize) ∧
    (1 < 2 ^ 31 ∧ ¬ (1 % Size.two.bytes = 0 ∧ 1 + Size.two.bytes ≤ State.reset.inst.memSize)) ∧
    (65536 < 2 ^ 31 ∧ ¬ (65536 % Size.one.bytes = 0 ∧ 65536 + Size.one.bytes ≤ State.reset.inst.memSize)) := by decide

theorem test_witness_HostAccessesDoNotDisturbTheCommandInFlight : inFlight.status.busy = true := rfl

end Sys2Proof.Tests
end

/-! The statements of 00_scope.md: the turn a step takes, the byte strings of R9 to R11, and the engine's invariant at reset and along every step. -/

namespace Sys2Proof.Machine

/-! The turn a step takes. -/

/-- With nothing scheduled the engine has its turn (70_reset_and_hazards.md R276). -/
theorem step_of_schedule_nil {s : State} (h : s.schedule = []) : step s = engineTurn s := by
  simp [step, nextAct, h]

/-- A scheduled turn is taken on the state without it (20_memory.md R72). -/
theorem step_of_schedule_cons {s : State} {a : Action} {rest : List Action} (h : s.schedule = a :: rest) :
    step s = act a { s with schedule := rest } := by
  simp [step, nextAct, h]

/-- The engine owes nothing while idle (00_scope.md R4). -/
theorem engineTurn_of_idle {s : State} (h : s.status.busy = false) : engineTurn s = .next s := by
  simp [engineTurn, h]

/-- While BUSY the engine's turn is the completion of the command in flight (10_state.md R44). -/
theorem engineTurn_of_busy {s : State} (h : s.status.busy = true) : engineTurn s = completion s := by
  simp [engineTurn, h]

/-- Settles O4, by the shape of the schedule. -/
theorem stepTakesTheScheduledTurn : Obligations.StepTakesTheScheduledTurn := fun _ =>
  ⟨step_of_schedule_nil, fun _ => step_of_schedule_cons, fun _ _ _ => step_of_schedule_cons,
    fun _ _ _ _ => step_of_schedule_cons, fun _ => step_of_schedule_cons, engineTurn_of_idle⟩

/-! Byte strings. -/

/-- A byte string's value is the sum of 00_scope.md R10. -/
theorem be_eq_sum (l : List Byte) :
    be l = ∑ k ∈ Finset.range l.length, (l.getD k 0).toNat * 256 ^ (l.length - 1 - k) := by
  induction l with
  | nil => rfl
  | cons x rest ih =>
    rw [be_cons, ih, List.length_cons, Nat.add_sub_cancel, Finset.sum_range_succ', Nat.add_comm]
    simp only [Nat.sub_sub, Nat.add_comm 1, List.getD_cons_succ, List.getD_cons_zero, Nat.sub_zero]

/-- A leading zero byte adds nothing (00_scope.md R10). -/
@[simp] theorem be_zero_cons (l : List Byte) : be (0 :: l) = be l := by simp [be_cons]

/-- The lower bound of 00_scope.md R9. -/
theorem two_pow_bitlen_pred_le {v : Nat} (h : 0 < v) : 2 ^ (bitlen v - 1) ≤ v := by
  have hpos : 0 < bitlen v := (lt_bitlen_iff v 0).2 h
  exact (lt_bitlen_iff v _).1 (by omega)

@[simp] theorem minbytes_zero : minbytes 0 = [] := rfl

/-- The minimal string of a positive number has no leading zero byte (00_scope.md R11): with `n + 1` bytes the number is at
least `256^n`, or `n` bytes would do. -/
theorem minbytes_head_ne_zero {v : Nat} (h : 0 < v) : (minbytes v).getD 0 0 ≠ 0 := by
  cases hn : minLen v with
  | zero =>
    have : v < 256 ^ 0 := (minLen_le_iff v 0).1 hn.le
    omega
  | succ n =>
    have hlow : 256 ^ n ≤ v := by
      have := minLen_le_iff v n
      omega
    have hhigh : v < 256 ^ n * 256 := by
      rw [← pow_succ]; exact (minLen_le_iff v _).1 hn.le
    have hq : 0 < v / 256 ^ n := Nat.div_pos hlow (by positivity)
    have hq' : v / 256 ^ n < 256 := Nat.div_lt_of_lt_mul hhigh
    rw [minbytes, hn, beBytes, List.getD_cons_zero]
    intro h0
    have : (BitVec.ofNat 8 (v / 256 ^ n)).toNat = 0 := by rw [h0]; rfl
    rw [BitVec.toNat_ofNat, Nat.mod_eq_of_lt hq'] at this
    omega

/-- Settles O13. -/
theorem byteStringsAreBigEndian : Obligations.ByteStringsAreBigEndian :=
  ⟨be_eq_sum, be_zero_cons, fun n v h => ⟨beBytes_length n v, be_beBytes_of_lt n v h⟩, rfl,
    fun v h => ⟨two_pow_bitlen_pred_le h, lt_two_pow_bitlen v⟩, minbytes_zero,
    fun v => ⟨minbytes_length v, be_minbytes v, minbytes_head_ne_zero⟩⟩

/-! The invariant: what each update of the state needs to keep it. -/

/-- A state with its parameters in range and the rest as reset leaves it meets the invariant (10_state.md R49). -/
theorem State.Inv.of_cleared {t : State} (hw : 4 ≤ t.inst.w ∧ t.inst.w ≤ 65535)
    (hm : 1 ≤ t.inst.memSize ∧ t.inst.memSize ≤ 2 ^ 31) (hb : t.b = RegFile.zero) (hacc : t.acc = 0)
    (hmem : t.mem = []) (hinfo : t.errInfo = 0) (hst : t.status = Status.clear) : t.Inv where
  w_low := hw.1
  w_high := hw.2
  mem_low := hm.1
  mem_high := hm.2
  regs_fit r := by simp [State.reg, hb]
  acc_fits := by simp [hacc]
  mem_wf := by rw [hmem]; rfl
  mem_inside := by simp [hmem]
  info_known := .inl hinfo
  err_known := by simp [hst, Status.clear]
  busy_not_done := by simp [hst, Status.clear]

/-- Settles O10. -/
theorem invariantHoldsAfterReset : Obligations.InvariantHoldsAfterReset :=
  .of_cleared (by decide) (by decide) rfl rfl rfl rfl rfl

/-- The `W` bytes of a field hold exactly the values of a register (00_scope.md R5). -/
theorem State.bytes_w_eq_two_pow_k (s : State) : 256 ^ s.inst.w = 2 ^ s.k := by
  rw [State.k, pow_mul]; norm_num

namespace State.Inv

variable {s : State}

/-- A register is at least 32 bits wide (00_scope.md R5). -/
theorem k_ge (h : s.Inv) : 32 ≤ s.k := by
  have := h.w_low
  unfold State.k; omega

theorem reg_lt (h : s.Inv) (r : Reg) : s.reg r < 2 ^ s.k := h.regs_fit r

/-- A number of at most 32 bits fits a register. -/
theorem lt_two_pow_k (h : s.Inv) {v : Nat} (hv : v < 2 ^ 32) : v < 2 ^ s.k :=
  hv.trans_le (Nat.pow_le_pow_right (by norm_num) h.k_ge)

theorem hardReset (h : s.Inv) : s.hardReset.Inv :=
  .of_cleared ⟨h.w_low, h.w_high⟩ ⟨h.mem_low, h.mem_high⟩ rfl rfl rfl rfl rfl

theorem setReg (h : s.Inv) {v : Nat} (r : Reg) (hv : v < 2 ^ s.k) : (s.setReg r v).Inv :=
  { h with
    regs_fit := fun q => by
      rw [State.setReg_reg]
      split
      · exact hv
      · exact h.regs_fit q }

/-- A residue modulo a register's value fits a register. -/
theorem setReg_mod (h : s.Inv) {m : Reg} (hm : s.reg m ≠ 0) (r : Reg) (x : Nat) : (s.setReg r (x % s.reg m)).Inv :=
  h.setReg r ((Nat.mod_lt x (Nat.pos_of_ne_zero hm)).trans (h.reg_lt m))

/-- The product of two registers fits the accumulator (41_multiplier_reducer.md R120). -/
theorem setAcc_mul (h : s.Inv) (q r : Reg) : (s.setAcc (s.reg q * s.reg r)).Inv :=
  { h with
    acc_fits := by
      rw [two_mul, pow_add]
      exact Nat.mul_lt_mul'' (h.regs_fit q) (h.regs_fit r) }

theorem setSeed (h : s.Inv) (v : Seed) : (s.setSeed v).Inv := { h with }

theorem setResult (h : s.Inv) (v : Nat) : (s.setResult v).Inv := { h with }

theorem setAux (h : s.Inv) (v : Nat) : (s.setAux v).Inv := { h with }

theorem setT (h : s.Inv) (v : Bool) : (s.setT v).Inv := { h with }

theorem setVerdict (h : s.Inv) (v : Bool) : (s.setVerdict v).Inv := (h.setT v).setResult _

theorem setHaz (h : s.Inv) : s.setHaz.Inv := { h with }

/-- `MEM` may become any canonical list whose bytes are old or inside `MEMSIZE`. -/
theorem setMem (h : s.Inv) {m : Memory} (hwf : Memory.wf m = true)
    (hin : ∀ c ∈ m, c.1 < s.inst.memSize ∨ c ∈ s.mem) : ({ s with mem := m } : State).Inv :=
  { h with
    mem_wf := hwf
    mem_inside := fun c hc => (hin c hc).elim id (h.mem_inside c) }

theorem writeBytes (h : s.Inv) {a : Nat} {l : List Byte} (hl : a + l.length ≤ s.inst.memSize) :
    (s.writeBytes a l).Inv :=
  h.setMem (Memory.wf_putBytes _ a l h.mem_wf) fun c hc =>
    (Memory.mem_putBytes _ a l c hc).imp_left fun hin => by omega

/-- A store into the output window (10_state.md R40). -/
theorem writeOut (h : s.Inv) {l : List Byte} (hin : s.InsideMem s.outAddr s.outLen) (hl : l.length ≤ s.outLen) :
    (s.writeBytes s.outAddr l).Inv :=
  h.writeBytes ((Nat.add_le_add_left hl _).trans hin)

/-- The stream's writes stay in the frame window (45_lsb_codec.md R191, R192). -/
theorem embedStream (h : s.Inv) {bits : List Bool} (hc : 3 ≤ s.chan) (hin : s.InsideMem s.frameAddr s.frameLen)
    (hcap : bits.length ≤ s.cap) : (s.embedStream bits).Inv :=
  h.setMem (s.embedMem_wf bits _ 0 h.mem_wf) fun c hmem =>
    (s.embedMem_mem bits _ 0 c hmem).imp_left fun ⟨j, hj, he⟩ => by
      have := (s.slot_in_frame hc (0 + j) (by omega)).2
      omega

/-- A recorded fault leaves a code of the table in `ERRINFO` (60_exceptions.md R233). -/
theorem record (h : s.Inv) (c : Cause) : (s.record c).Inv := by
  unfold State.record
  split
  · exact { h with }
  · exact { h with info_known := .inr ⟨c, rfl⟩, err_known := fun _ => ⟨c, rfl⟩ }

theorem retire (h : s.Inv) : s.retire.Inv := { h with busy_not_done := nofun }

theorem issue (h : s.Inv) (v : Word) : (s.issue v).Inv := { h with busy_not_done := fun _ => rfl }

/-- A write to `STATUS` sets no bit, so it neither raises `ERR` without a code nor sets `DONE` while BUSY. -/
theorem clearStatus (h : s.Inv) (v : Word) : (s.clearStatus v).Inv :=
  { h with
    err_known := fun he => h.err_known (Bool.and_elim_left he)
    busy_not_done := fun hb => by
      have hd : s.status.done = false := h.busy_not_done hb
      simp [State.clearStatus, hd] }

end State.Inv

/-! Every command's completion keeps the invariant. -/

/-- Every next state the answer gives meets the invariant. -/
def AnswersInv (r : Result) : Prop := ∀ t, r = .next t → t.Inv

namespace AnswersInv

theorem next {s : State} (h : s.Inv) : AnswersInv (.next s) := by
  rintro t ⟨⟩; exact h

/-- A success keeps the invariant when the written state meets it. -/
theorem complete {u : State} (h : u.Inv) : AnswersInv (complete u) := .next h.retire

theorem raise {s : State} (c : Cause) (h : s.Inv) : AnswersInv (raise c s) := .next (h.record c).retire

/-- A check of a command: where it fails the fault keeps the invariant, so only the rest is to be looked at. -/
theorem check {s : State} {c : Cause} {p : Prop} [Decidable p] {r : Result} (h : s.Inv)
    (hr : ¬ p → AnswersInv r) : AnswersInv (if p then Machine.raise c s else r) := by
  split
  · exact .raise c h
  · exact hr ‹_›

end AnswersInv

/-- A search's result has the bit length asked for (43_primality.md R158, R160). -/
theorem search_found_bounds {limit b k c t : Nat} {seed sd : Seed} (hb : 2 ≤ b)
    (h : search limit b k 0 seed = .found c t sd) : 2 ^ (b - 1) ≤ c ∧ c < 2 ^ b := by
  obtain ⟨-, -, -, -, rfl, -⟩ := SearchFinds.of_search h
  exact (candidateOf_spec b _ hb).2

section commands

variable {s : State} (h : s.Inv)
include h

theorem execZeroize_answersInv : AnswersInv (execZeroize s) := by
  have hz : (({ s with b := RegFile.zero } : State).setAcc 0).Inv :=
    { h with
      regs_fit := fun r => by simp [State.reg]
      acc_fits := by simp }
  exact .complete (((hz.setResult 0).setAux 0).setT false)

theorem execLdi_answersInv (rd : Reg) {v : Nat} (hv : Imm20 v) : AnswersInv (execLdi rd v s) :=
  .complete (h.setReg rd (h.lt_two_pow_k (hv.trans (by norm_num))))

theorem execAdd_answersInv (rd ra rb : Reg) : AnswersInv (execAdd rd ra rb s) :=
  .check h fun hfit => .complete (h.setReg rd (not_le.1 hfit))

theorem execSub_answersInv (rd ra rb : Reg) : AnswersInv (execSub rd ra rb s) :=
  .check h fun _ => .complete (h.setReg rd ((Nat.sub_le _ _).trans_lt (h.reg_lt ra)))

theorem execMova_answersInv (rd : Reg) : AnswersInv (execMova rd s) :=
  .check h fun hfit => .complete (h.setReg rd (not_le.1 hfit))

theorem execRed_answersInv (rd rm : Reg) : AnswersInv (execRed rd rm s) :=
  .check h fun hm => .complete (h.setReg_mod hm rd _)

theorem execModmul_answersInv (rd ra rb rm : Reg) : AnswersInv (execModmul rd ra rb rm s) :=
  .check h fun hm => .complete ((h.setAcc_mul ra rb).setReg_mod (m := rm) hm rd _)

theorem execModexp_answersInv (rd ra rb rm : Reg) : AnswersInv (execModexp rd ra rb rm s) :=
  .check h fun hm => .complete (by rw [powMod_eq]; exact h.setReg_mod hm rd _)

theorem execModinv_answersInv (rd ra rm : Reg) : AnswersInv (execModinv rd ra rm s) :=
  .check h fun hm => by
    cases hd : invMod (s.reg ra) (s.reg rm) with
    | none => exact .raise _ h
    | some d =>
      have hlt : d < s.reg rm := (invMod_some _ _ d (Nat.pos_of_ne_zero hm) hd).1
      exact .complete (h.setReg rd (hlt.trans (h.reg_lt rm)))

theorem execMrwit_answersInv (ra rm : Reg) : AnswersInv (execMrwit ra rm s) :=
  .check h fun _ => .check h fun _ => .complete (h.setVerdict _)

theorem execMrtest_answersInv (rm : Reg) : AnswersInv (execMrtest rm s) :=
  .check h fun _ => .complete (((h.setSeed _).setVerdict _).setAux _)

theorem execPrimecand_answersInv (rd : Reg) (b : Nat) : AnswersInv (execPrimecand rd b s) :=
  .check h fun hb => by
    have hc : candidateOf b (lcgNext s.seed) < 2 ^ b := (candidateOf_spec b _ (by omega)).2.2
    have hk : 2 ^ b ≤ 2 ^ s.k := Nat.pow_le_pow_right (by norm_num) (by omega)
    exact .complete (((h.setSeed (lcgNext s.seed)).setReg rd (hc.trans_le hk)).setResult _)

theorem execPrimegen_answersInv (rd : Reg) (b : Nat) : AnswersInv (execPrimegen rd b s) :=
  .check h fun hb => .check h fun _ => by
    cases hs : search s.tryLimit b s.roundCount 0 s.seed with
    | exhausted sd => exact .raise _ (h.setSeed sd)
    | found c t sd =>
      have hc : c < 2 ^ b := (search_found_bounds (by omega) hs).2
      have hk : 2 ^ b ≤ 2 ^ s.k := Nat.pow_le_pow_right (by norm_num) (by omega)
      exact .complete (((h.setSeed sd).setReg rd (hc.trans_le hk)).setResult t)

/-- The key registers fit when the primes have at most half a register's bits (44_rsa.md R171). -/
theorem State.Inv.writeKey {d p q : Nat} (tp tq : Nat) (hp : p < 2 ^ (s.k / 2)) (hq : q < 2 ^ (s.k / 2))
    (hd : d < (p - 1) * (q - 1)) : (s.writeKey d p tp q tq).Inv := by
  have hn : p * q < 2 ^ s.k :=
    calc p * q < 2 ^ (s.k / 2) * 2 ^ (s.k / 2) := Nat.mul_lt_mul'' hp hq
      _ = 2 ^ (s.k / 2 + s.k / 2) := (pow_add 2 _ _).symm
      _ ≤ 2 ^ s.k := Nat.pow_le_pow_right (by norm_num) (by omega)
  have hphi : (p - 1) * (q - 1) < 2 ^ s.k :=
    (Nat.mul_le_mul (Nat.sub_le _ _) (Nat.sub_le _ _)).trans_lt hn
  have hhalf : 2 ^ (s.k / 2) ≤ 2 ^ s.k := Nat.pow_le_pow_right (by norm_num) (Nat.div_le_self _ _)
  have h0 := h.setReg .b0 (v := Config.eFixed) (h.lt_two_pow_k (by decide))
  have h1 := h0.setReg .b1 (v := d) (hd.trans hphi)
  have h2 := h1.setReg .b2 (v := p * q) hn
  have h3 := h2.setReg .b3 (v := p) (hp.trans_le hhalf)
  have h4 := h3.setReg .b4 (v := q) (hq.trans_le hhalf)
  exact ((h4.setReg .b5 hphi).setResult tp).setAux tq

theorem execKeygen_answersInv (b : Nat) : AnswersInv (execKeygen b s) :=
  .check h fun hb => .check h fun _ => by
    have hk : 2 ^ (b / 2) ≤ 2 ^ (s.k / 2) := Nat.pow_le_pow_right (by norm_num) (by omega)
    have htwo : 2 ≤ 2 ^ (b / 2 - 1) := Nat.le_self_pow (by omega) 2
    cases hsp : search s.tryLimit (b / 2) s.roundCount 0 s.seed with
    | exhausted sd => exact .raise _ (h.setSeed sd)
    | found p tp sdp =>
      simp only
      obtain ⟨hp, hp'⟩ := search_found_bounds (by omega) hsp
      cases hsq : search s.tryLimit (b / 2) s.roundCount 0 sdp with
      | exhausted sd => exact .raise _ (h.setSeed sd)
      | found q tq sdq =>
        simp only
        obtain ⟨hq, hq'⟩ := search_found_bounds (by omega) hsq
        cases hd : invMod Config.eFixed ((p - 1) * (q - 1)) with
        | none => exact .raise _ (h.setSeed sdq)
        | some d =>
          have hphi : 0 < (p - 1) * (q - 1) := Nat.mul_pos (by omega) (by omega)
          have hlt : d < (p - 1) * (q - 1) := (invMod_some _ _ d hphi hd).1
          exact .complete ((h.setSeed sdq).writeKey tp tq (hp'.trans_le hk) (hq'.trans_le hk) hlt)

theorem execRsaenc_answersInv (rd rb rm : Reg) : AnswersInv (execRsaenc rd rb rm s) :=
  .check h fun _ => .check h fun hlen => by
    have hm : s.reg rm ≠ 0 := (Nat.zero_le _).trans_lt (lt_of_bitlen_lt _ _ (not_not.1 hlen)) |>.ne'
    rw [powMod_eq]
    exact .complete (h.setReg_mod hm rd _)

theorem execRsadec_answersInv (ra rb rm : Reg) : AnswersInv (execRsadec ra rb rm s) :=
  .check h fun hin => .check h fun _ => .check h fun hfit => .check h fun _ =>
    .complete ((h.writeOut (not_not.1 hin) (not_lt.1 hfit)).setResult _)

theorem execEmbed_answersInv : AnswersInv (execEmbed s) :=
  .check h fun hc => .check h fun hin => .check h fun _ => .check h fun _ => .check h fun hcap => by
    have hlen : (bitstream s.inBytes).length ≤ s.cap := by
      simpa [State.inBytes] using hcap
    exact .complete ((h.embedStream (not_lt.1 hc) (not_not.1 hin) hlen).setResult _)

theorem execExtract_answersInv : AnswersInv (execExtract s) :=
  .check h fun _ => .check h fun _ => .check h fun hin => .check h fun _ => by
    simp only
    cases findTerminator (s.lsbFrom 0 s.cap) 0 with
    | none => exact .complete (((h.setT false).setResult 0).setAux 0)
    | some nb =>
      refine .check h fun hfit => ?_
      have hlen : (bytesOf ((s.lsbFrom 0 s.cap).take nb)).length ≤ s.outLen := by
        rw [bytesOf_length]
        exact (Nat.div_le_div_right (List.length_take_le _ _)).trans (not_lt.1 hfit)
      exact .complete ((((h.writeOut (not_not.1 hin) hlen).setT true).setResult _).setAux _)

/-- A string of `W` bytes fits a register (46_key_serializer.md R211, R214). -/
theorem State.Inv.setReg_field (r : Reg) {l : List Byte} (hl : l.length = s.inst.w) : (s.setReg r (be l)).Inv :=
  h.setReg r (by rw [← s.bytes_w_eq_two_pow_k, ← hl]; exact be_lt l)

theorem execLdf_answersInv (rd : Reg) : AnswersInv (execLdf rd s) :=
  .check h fun _ => .check h fun _ => .complete (h.setReg_field rd (s.readBytes_length _ _))

theorem execUnpack_answersInv (rd rb : Reg) : AnswersInv (execUnpack rd rb s) :=
  .check h fun _ => .check h fun _ => .check h fun _ =>
    .complete ((h.setReg_field rd (s.readBytes_length _ _)).setReg_field rb (s.readBytes_length _ _))

theorem execLdm_answersInv (rd : Reg) : AnswersInv (execLdm rd s) :=
  .check h fun _ => .check h fun hfit => .complete (h.setReg rd (not_le.1 hfit))

theorem execStf_answersInv (ra : Reg) : AnswersInv (execStf ra s) :=
  .check h fun hin => .check h fun hfit =>
    .complete ((h.writeOut (not_not.1 hin) (by rw [beBytes_length]; exact not_lt.1 hfit)).setResult _)

theorem execPack_answersInv (ra rb : Reg) : AnswersInv (execPack ra rb s) :=
  .check h fun hin => .check h fun hfit => by
    have hlen : (beBytes s.inst.w (s.reg ra) ++ beBytes s.inst.w (s.reg rb)).length ≤ s.outLen := by
      rw [List.length_append, beBytes_length, beBytes_length]; omega
    exact .complete ((h.writeOut (not_not.1 hin) hlen).setResult _)

theorem execStm_answersInv (ra : Reg) : AnswersInv (execStm ra s) :=
  .check h fun hin => .check h fun hfit =>
    .complete ((h.writeOut (not_not.1 hin) (not_lt.1 hfit)).setResult _)

/-- Every command a word can spell keeps the invariant (40_control_alu.md R109, 20_memory.md R61, 60_exceptions.md R233). -/
theorem exec_answersInv {i : Instr} (hi : WellFormed i) : AnswersInv (exec i s) := by
  cases i with
  | nop => exact .complete h
  | zeroize => exact execZeroize_answersInv h
  | ldi rd v => exact execLdi_answersInv h rd hi
  | mov rd ra => exact .complete (h.setReg rd (h.reg_lt ra))
  | cmp ra rb => exact .complete ((h.setT _).setResult _)
  | bitlen ra => exact .complete (h.setResult _)
  | add rd ra rb => exact execAdd_answersInv h rd ra rb
  | sub rd ra rb => exact execSub_answersInv h rd ra rb
  | mova rd => exact execMova_answersInv h rd
  | mul ra rb => exact .complete (h.setAcc_mul ra rb)
  | red rd rm => exact execRed_answersInv h rd rm
  | modmul rd ra rb rm => exact execModmul_answersInv h rd ra rb rm
  | modexp rd ra rb rm => exact execModexp_answersInv h rd ra rb rm
  | modinv rd ra rm => exact execModinv_answersInv h rd ra rm
  | rngnext => exact .complete ((h.setSeed _).setResult _)
  | mrwit ra rm => exact execMrwit_answersInv h ra rm
  | mrtest rm => exact execMrtest_answersInv h rm
  | primecand rd b => exact execPrimecand_answersInv h rd b
  | primegen rd b => exact execPrimegen_answersInv h rd b
  | keygen b => exact execKeygen_answersInv h b
  | rsaenc rd rb rm => exact execRsaenc_answersInv h rd rb rm
  | rsadec ra rb rm => exact execRsadec_answersInv h ra rb rm
  | embed => exact execEmbed_answersInv h
  | extract => exact execExtract_answersInv h
  | ldf rd => exact execLdf_answersInv h rd
  | stf ra => exact execStf_answersInv h ra
  | pack ra rb => exact execPack_answersInv h ra rb
  | unpack rd rb => exact execUnpack_answersInv h rd rb
  | ldm rd => exact execLdm_answersInv h rd
  | stm ra => exact execStm_answersInv h ra

end commands

/-! Every agent's turn keeps the invariant. -/

/-- The immediate field has 20 bits (30_encoding.md R83). -/
theorem immField_imm20 (w : Word) : Imm20 (immField w) := (w.extractLsb' 12 20).isLt

/-- Every row of the opcode map builds well-formed commands (30_encoding.md R84). -/
theorem build_wellFormed (w : Word) : ∀ r ∈ opTable, WellFormed (r.build w) := by
  simp [opTable, WellFormed, immField_imm20]

/-- What the decoder answers is well formed (30_encoding.md R85). -/
theorem wellFormed_of_decode {w : Word} {i : Instr} (h : decode w = .ok i) : WellFormed i := by
  unfold decode at h
  split at h
  · cases h
  · next r hr =>
    split at h
    · cases h
      exact build_wellFormed w r (List.mem_of_find?_eq_some hr)
    · cases h

section turns

variable {s : State} (h : s.Inv)
include h

theorem completion_answersInv : AnswersInv (completion s) := by
  unfold completion
  split
  · next i hi => exact exec_answersInv h (wellFormed_of_decode hi)
  · exact .raise _ h
  · exact .raise _ h

theorem engineTurn_answersInv : AnswersInv (engineTurn s) := by
  cases hb : s.status.busy with
  | true => rw [engineTurn_of_busy hb]; exact completion_answersInv h
  | false => rw [engineTurn_of_idle hb]; exact .next h

/-- The value a read returns is no part of the invariant (log 5). -/
theorem State.Inv.setPortData (v : Word) : ({ s with portData := v } : State).Inv := { h with }

theorem State.Inv.hostRead (o : Word) (z : Size) : (s.hostRead o z).Inv := by
  unfold State.hostRead State.apertureRead
  split
  · split
    · exact { h with }
    · split
      · exact h.setPortData _
      · exact h.setPortData _
  · exact h.setPortData _

theorem State.Inv.csrStore (c : Csr) (v : Word) : (s.csrStore c v).Inv := by
  cases c with
  | cmd => exact h.issue v
  | status => exact h.clearStatus v
  | _ => exact { h with }

theorem State.Inv.csrWrite (c : Csr) (v : Word) : (s.csrWrite c v).Inv := by
  unfold State.csrWrite
  split
  · exact h.setHaz
  · exact h.csrStore c v

theorem State.Inv.apertureWrite (a : Nat) (z : Size) (v : Word) : (s.apertureWrite a z v).Inv := by
  unfold State.apertureWrite
  split
  · exact h.setHaz
  · split
    · next hlegal => exact h.writeBytes (by rw [lanesOf_length]; exact hlegal.2)
    · exact h

theorem State.Inv.hostWrite (o : Word) (z : Size) (v : Word) : (s.hostWrite o z v).Inv := by
  unfold State.hostWrite
  split
  · exact h.apertureWrite _ z v
  · split
    · exact h.csrWrite _ v
    all_goals exact h

theorem act_answersInv (a : Action) : AnswersInv (act a s) := by
  cases a with
  | engine => exact engineTurn_answersInv h
  | read o z => exact .next (h.hostRead o z)
  | write o z v => exact .next (h.hostWrite o z v)
  | reset => exact .next h.hardReset

theorem step_answersInv : AnswersInv (step s) := by
  cases hs : s.schedule with
  | nil => rw [step_of_schedule_nil hs]; exact engineTurn_answersInv h
  | cons a rest =>
    rw [step_of_schedule_cons hs]
    exact act_answersInv (s := { s with schedule := rest }) { h with } a

end turns

/-- Settles O11: by the turn taken, then by the command completed or the access made, each update of the state keeping the
invariant under the check that guards it. -/
theorem everyStepKeepsTheInvariant : Obligations.EveryStepKeepsTheInvariant :=
  fun _ t hs => step_answersInv hs t

end Sys2Proof.Machine

/-! The statements of 10_state.md: what a command may write, the word in `CMD` and its completion, reset, and the registers at the port. -/

namespace Sys2Proof.Machine

-- As in the tests: each thread that waits for the kernel reserves memory of its own.
set_option Elab.async false

/-! What a command may write. -/

/-- A state `u` that command `i`, issued in `s`, may have written before it retires: it differs from `s` in what
`writesOf` lists, at the bytes `State.MayStore` admits, and in the error record. -/
structure State.WithinWrites (s : State) (i : Instr) (u : State) : Prop where
  regs : ∀ r, r ∉ (writesOf i).regs → u.reg r = s.reg r
  acc : (writesOf i).acc = false → u.acc = s.acc
  seed : (writesOf i).seed = false → u.seed = s.seed
  t : (writesOf i).t = false → u.status.t = s.status.t
  result : (writesOf i).result = false → u.result = s.result
  aux : (writesOf i).aux = false → u.aux = s.aux
  bytes : ∀ a, u.readByte a ≠ s.readByte a → s.MayStore i a
  haz : u.status.haz = s.status.haz
  cmdSeq : u.cmdSeq = s.cmdSeq
  hostSide : s.HostSideKept u

@[simp] theorem State.hostSideKept_refl (s : State) : s.HostSideKept s := by
  simp [State.HostSideKept]

namespace State.WithinWrites

variable {s u : State} {i : Instr}

theorem refl (s : State) (i : Instr) : s.WithinWrites i s where
  regs _ _ := rfl
  acc _ := rfl
  seed _ := rfl
  t _ := rfl
  result _ := rfl
  aux _ := rfl
  bytes _ hne := absurd rfl hne
  haz := rfl
  cmdSeq := rfl
  hostSide := s.hostSideKept_refl

/-! The writes of a command: each is admitted when `writesOf` lists it, which computes for a given command. -/

theorem setReg (h : s.WithinWrites i u) (r : Reg) (v : Nat)
    (hw : r ∈ (writesOf i).regs := by simp [writesOf, Writes.only]) : s.WithinWrites i (u.setReg r v) :=
  { h with
    regs := fun q hq => by
      have hne : q ≠ r := fun he => hq (he ▸ hw)
      rw [State.setReg_reg, if_neg hne, h.regs q hq] }

theorem setAcc (h : s.WithinWrites i u) (v : Nat) (hw : (writesOf i).acc = true := by rfl) :
    s.WithinWrites i (u.setAcc v) :=
  { h with acc := fun hf => absurd hw (by simp [hf]) }

theorem setSeed (h : s.WithinWrites i u) (v : Seed) (hw : (writesOf i).seed = true := by rfl) :
    s.WithinWrites i (u.setSeed v) :=
  { h with seed := fun hf => absurd hw (by simp [hf]) }

theorem setT (h : s.WithinWrites i u) (v : Bool) (hw : (writesOf i).t = true := by rfl) :
    s.WithinWrites i (u.setT v) :=
  { h with t := fun hf => absurd hw (by simp [hf]) }

theorem setResult (h : s.WithinWrites i u) (v : Nat) (hw : (writesOf i).result = true := by rfl) :
    s.WithinWrites i (u.setResult v) :=
  { h with result := fun hf => absurd hw (by simp [hf]) }

theorem setAux (h : s.WithinWrites i u) (v : Nat) (hw : (writesOf i).aux = true := by rfl) :
    s.WithinWrites i (u.setAux v) :=
  { h with aux := fun hf => absurd hw (by simp [hf]) }

/-- Clearing every register is a write to all eight (40_control_alu.md R101). -/
theorem clearRegs (h : s.WithinWrites i u) (hw : ∀ r, r ∈ (writesOf i).regs) :
    s.WithinWrites i { u with b := RegFile.zero } :=
  { h with regs := fun r hr => absurd (hw r) hr }

/-- A store at the output window that is no longer than the window, for a command that may write there
(10_state.md R40). -/
theorem writeOut (h : s.WithinWrites i u) {l : List Byte} (hl : l.length ≤ s.outLen)
    (hw : ∀ a, s.outAddr ≤ a ∧ a < s.outAddr + s.outLen → s.MayStore i a := by exact fun _ => id) :
    s.WithinWrites i (u.writeBytes s.outAddr l) :=
  { h with
    bytes := fun a hne => by
      rw [State.readByte_writeBytes] at hne
      split at hne
      · exact hw a (by omega)
      · exact h.bytes a hne }

/-- The stream of EMBED stays in the frame window when it has at most `cap` bits (45_lsb_codec.md R190 to R192). -/
theorem embedStream {bits : List Bool} (hc : 3 ≤ s.chan) (hcap : bits.length ≤ s.cap) :
    s.WithinWrites .embed (s.embedStream bits) :=
  { refl s .embed with
    bytes := fun a hne => by
      by_contra hout
      refine hne (s.readByte_embedStream_other hc bits a fun j hj he => hout ?_)
      rw [he]
      exact s.slot_in_frame hc j (hj.trans_le hcap) }

/-- The error record is outside what `WithinWrites` fixes (60_exceptions.md R233). -/
theorem record (h : s.WithinWrites i u) (c : Cause) : s.WithinWrites i (u.record c) := by
  unfold State.record
  split
  · exact { h with }
  · exact { h with }

/-- The end of a completion (30_encoding.md R86). -/
theorem retired (h : s.WithinWrites i u) : s.Retired u.retire :=
  ⟨rfl, rfl, congrArg (· + 1) h.cmdSeq, h.haz⟩

end State.WithinWrites

/-- The answer retires a state that command `i` may have written. -/
def AnswersWithin (s : State) (i : Instr) (r : Result) : Prop := ∃ u, r = .next u.retire ∧ s.WithinWrites i u

namespace AnswersWithin

variable {s u : State} {i : Instr}

theorem complete (h : s.WithinWrites i u) : AnswersWithin s i (complete u) := ⟨u, complete_next u, h⟩

theorem raise (c : Cause) (h : s.WithinWrites i u) : AnswersWithin s i (raise c u) :=
  ⟨u.record c, raise_next c u, h.record c⟩

/-- A check of a command: where it fails, the fault writes nothing but its record. -/
theorem check {c : Cause} {p : Prop} [Decidable p] {r : Result} (hr : ¬ p → AnswersWithin s i r) :
    AnswersWithin s i (if p then Machine.raise c s else r) := by
  split
  · exact .raise c (.refl s i)
  · exact hr ‹_›

end AnswersWithin

section commands

variable (s : State)

theorem execZeroize_answersWithin : AnswersWithin s .zeroize (execZeroize s) :=
  have hall : ∀ r, r ∈ (writesOf .zeroize).regs := by intro r; cases r <;> decide
  .complete (((((State.WithinWrites.refl s .zeroize).clearRegs hall).setAcc 0).setResult 0).setAux 0 |>.setT false)

theorem execModinv_answersWithin (rd ra rm : Reg) : AnswersWithin s (.modinv rd ra rm) (execModinv rd ra rm s) :=
  .check fun _ => by
    cases invMod (s.reg ra) (s.reg rm) with
    | none => exact .raise _ (.refl s _)
    | some d => exact .complete ((State.WithinWrites.refl s _).setReg rd d)

/-- A search that finds nothing keeps its draws, and PRIMEGEN is a writer of `SEED` (42_rng.md R143). -/
theorem execPrimegen_answersWithin (rd : Reg) (b : Nat) : AnswersWithin s (.primegen rd b) (execPrimegen rd b s) :=
  .check fun _ => .check fun _ => by
    have h0 := State.WithinWrites.refl s (.primegen rd b)
    cases search s.tryLimit b s.roundCount 0 s.seed with
    | exhausted sd => exact .raise _ (h0.setSeed sd)
    | found c t sd => exact .complete (((h0.setSeed sd).setReg rd c).setResult t)

/-- The six registers and two counts are KEYGEN's to write (44_rsa.md R171). -/
theorem State.WithinWrites.writeKey {s u : State} {b : Nat} (h : s.WithinWrites (.keygen b) u) (d p tp q tq : Nat) :
    s.WithinWrites (.keygen b) (u.writeKey d p tp q tq) :=
  ((((((((h.setReg .b0 _).setReg .b1 d).setReg .b2 _).setReg .b3 p).setReg .b4 q).setReg .b5 _).setResult tp).setAux tq)

theorem execKeygen_answersWithin (b : Nat) : AnswersWithin s (.keygen b) (execKeygen b s) :=
  .check fun _ => .check fun _ => by
    have h0 := State.WithinWrites.refl s (.keygen b)
    cases search s.tryLimit (b / 2) s.roundCount 0 s.seed with
    | exhausted sd => exact .raise _ (h0.setSeed sd)
    | found p tp sdp =>
      simp only
      cases search s.tryLimit (b / 2) s.roundCount 0 sdp with
      | exhausted sd => exact .raise _ (h0.setSeed sd)
      | found q tq sdq =>
        simp only
        cases invMod Config.eFixed ((p - 1) * (q - 1)) with
        | none => exact .raise _ (h0.setSeed sdq)
        | some d => exact .complete ((h0.setSeed sdq).writeKey d p tp q tq)

theorem execRsadec_answersWithin (ra rb rm : Reg) : AnswersWithin s (.rsadec ra rb rm) (execRsadec ra rb rm s) :=
  .check fun _ => .check fun _ => .check fun hfit => .check fun _ =>
    .complete (((State.WithinWrites.refl s _).writeOut (not_lt.1 hfit)).setResult _)

theorem execEmbed_answersWithin : AnswersWithin s .embed (execEmbed s) :=
  .check fun hc => .check fun _ => .check fun _ => .check fun _ => .check fun hcap => by
    have hlen : (bitstream s.inBytes).length ≤ s.cap := by
      simpa [State.inBytes] using hcap
    exact .complete ((State.WithinWrites.embedStream (not_lt.1 hc) hlen).setResult _)

theorem execExtract_answersWithin : AnswersWithin s .extract (execExtract s) :=
  .check fun _ => .check fun _ => .check fun _ => .check fun _ => by
    have h0 := State.WithinWrites.refl s .extract
    simp only
    cases findTerminator (s.lsbFrom 0 s.cap) 0 with
    | none => exact .complete (((h0.setT false).setResult 0).setAux 0)
    | some nb =>
      refine .check fun hfit => ?_
      have hlen : (bytesOf ((s.lsbFrom 0 s.cap).take nb)).length ≤ s.outLen := by
        rw [bytesOf_length]
        exact (Nat.div_le_div_right (List.length_take_le _ _)).trans (not_lt.1 hfit)
      exact .complete ((((h0.writeOut hlen).setT true).setResult _).setAux _)

theorem execStf_answersWithin (ra : Reg) : AnswersWithin s (.stf ra) (execStf ra s) :=
  .check fun _ => .check fun hfit => by
    have hlen : (beBytes s.inst.w (s.reg ra)).length ≤ s.outLen := by
      rw [beBytes_length]; exact not_lt.1 hfit
    exact .complete (((State.WithinWrites.refl s _).writeOut hlen).setResult _)

theorem execPack_answersWithin (ra rb : Reg) : AnswersWithin s (.pack ra rb) (execPack ra rb s) :=
  .check fun _ => .check fun hfit => by
    have hlen : (beBytes s.inst.w (s.reg ra) ++ beBytes s.inst.w (s.reg rb)).length ≤ s.outLen := by
      rw [List.length_append, beBytes_length, beBytes_length]; omega
    exact .complete (((State.WithinWrites.refl s _).writeOut hlen).setResult _)

theorem execStm_answersWithin (ra : Reg) : AnswersWithin s (.stm ra) (execStm ra s) :=
  .check fun _ => .check fun hfit =>
    .complete (((State.WithinWrites.refl s _).writeOut (not_lt.1 hfit)).setResult _)

/-- What a command can do, said once: it answers a next state, retired, and has written only what the rules list it as a
writer of (10_state.md R20 to R23, R31, R32, R40). -/
theorem exec_answersWithin (i : Instr) : AnswersWithin s i (exec i s) := by
  have h0 : s.WithinWrites i s := .refl s i
  cases i with
  | nop => exact .complete h0
  | zeroize => exact execZeroize_answersWithin s
  | ldi rd v => exact .complete (h0.setReg rd v)
  | mov rd ra => exact .complete (h0.setReg rd _)
  | cmp ra rb => exact .complete ((h0.setT _).setResult _)
  | bitlen ra => exact .complete (h0.setResult _)
  | add rd ra rb => exact .check fun _ => .complete (h0.setReg rd _)
  | sub rd ra rb => exact .check fun _ => .complete (h0.setReg rd _)
  | mova rd => exact .check fun _ => .complete (h0.setReg rd _)
  | mul ra rb => exact .complete (h0.setAcc _)
  | red rd rm => exact .check fun _ => .complete (h0.setReg rd _)
  | modmul rd ra rb rm => exact .check fun _ => .complete ((h0.setAcc _).setReg rd _)
  | modexp rd ra rb rm => exact .check fun _ => .complete (h0.setReg rd _)
  | modinv rd ra rm => exact execModinv_answersWithin s rd ra rm
  | rngnext => exact .complete ((h0.setSeed _).setResult _)
  | mrwit ra rm => exact .check fun _ => .check fun _ => .complete ((h0.setT _).setResult _)
  | mrtest rm => exact .check fun _ => .complete ((((h0.setSeed _).setT _).setResult _).setAux _)
  | primecand rd b => exact .check fun _ => .complete (((h0.setSeed _).setReg rd _).setResult _)
  | primegen rd b => exact execPrimegen_answersWithin s rd b
  | keygen b => exact execKeygen_answersWithin s b
  | rsaenc rd rb rm => exact .check fun _ => .check fun _ => .complete (h0.setReg rd _)
  | rsadec ra rb rm => exact execRsadec_answersWithin s ra rb rm
  | embed => exact execEmbed_answersWithin s
  | extract => exact execExtract_answersWithin s
  | ldf rd => exact .check fun _ => .check fun _ => .complete (h0.setReg rd _)
  | stf ra => exact execStf_answersWithin s ra
  | pack ra rb => exact execPack_answersWithin s ra rb
  | unpack rd rb =>
    exact .check fun _ => .check fun _ => .check fun _ => .complete ((h0.setReg rd _).setReg rb _)
  | ldm rd => exact .check fun _ => .check fun _ => .complete (h0.setReg rd _)
  | stm ra => exact execStm_answersWithin s ra

end commands

/-- The next state of a command is a state it may have written, retired (30_encoding.md R86). -/
theorem withinWrites_of_exec {i : Instr} {s t : State} (h : exec i s = .next t) :
    ∃ u, t = u.retire ∧ s.WithinWrites i u := by
  obtain ⟨u, hu, hw⟩ := exec_answersWithin s i
  rw [hu] at h
  cases h
  exact ⟨u, rfl, hw⟩

/-- Settles O46: a command answers a state within its writes. -/
theorem commandsStoreOnlyInTheirWindows : Obligations.CommandsStoreOnlyInTheirWindows := by
  intro i s t a ht hne
  obtain ⟨u, rfl, hw⟩ := withinWrites_of_exec ht
  exact hw.bytes a hne

/-- Settles O45: a command answers a state within its writes. -/
theorem onlyTheListedCommandsWriteEachRegister : Obligations.OnlyTheListedCommandsWriteEachRegister := by
  intro i s t ht
  obtain ⟨u, rfl, hw⟩ := withinWrites_of_exec ht
  exact ⟨hw.regs, hw.acc, hw.seed, hw.t, hw.result, hw.aux⟩

/-! The word in `CMD` and its completion. -/

/-- The completion of a word that decodes (30_encoding.md R86). -/
theorem completion_of_decode {s : State} {i : Instr} (h : decode s.cmd = .ok i) : completion s = exec i s := by
  simp [completion, h]

/-- While BUSY the engine's turn runs the decoded command (10_state.md R48). -/
theorem engineTurn_of_decode {s : State} {i : Instr} (hb : s.status.busy = true) (hi : decode s.cmd = .ok i) :
    engineTurn s = exec i s :=
  (engineTurn_of_busy hb).trans (completion_of_decode hi)

/-- Settles O5, by the shape of the schedule. -/
theorem stepRunsTheDecodedCommand : Obligations.StepRunsTheDecodedCommand := fun s _ hb hi =>
  ⟨fun hs => (step_of_schedule_nil hs).trans (engineTurn_of_decode hb hi),
    fun rest hs => (step_of_schedule_cons hs).trans (engineTurn_of_decode (s := { s with schedule := rest }) hb hi)⟩

/-- Every word's completion retires and keeps the host's side (30_encoding.md R86 to R88). -/
theorem completion_retires (s : State) : ∃ t, completion s = .next t ∧ s.Retired t ∧ s.HostSideKept t := by
  have hfault : ∀ c, ∃ t, raise c s = .next t ∧ s.Retired t ∧ s.HostSideKept t := fun c =>
    have ⟨hretired, hhost, _⟩ := s.record_faulted c
    ⟨_, raise_next c s, hretired, hhost⟩
  unfold completion
  split
  · next i _ =>
    obtain ⟨u, hu, hw⟩ := exec_answersWithin s i
    exact ⟨_, hu, hw.retired, hw.hostSide⟩
  · exact hfault _
  · exact hfault _

/-! Reset. -/

/-- Settles O8, row by row of 10_state.md R49. -/
theorem resetStateHasTheValuesOfTheTable : Obligations.ResetStateHasTheValuesOfTheTable where
  regs := RegFile.zero_get
  acc := rfl
  seed := rfl
  rounds := rfl
  maxTry := rfl
  windows := ⟨rfl, rfl, rfl, rfl⟩
  frame := ⟨rfl, rfl, rfl⟩
  fchan := rfl
  cmd := rfl
  status := ⟨rfl, rfl, rfl, rfl, rfl, rfl⟩
  ie := ⟨rfl, rfl⟩
  results := ⟨rfl, rfl, rfl, rfl, rfl⟩
  id := rfl
  cfg := rfl
  memSize := rfl
  irq := rfl

/-! The registers at the port. -/

/-- The port finds each register at its offset, outside the aperture (10_state.md R24). -/
theorem csrAt_offset (c : Csr) : csrAt c.offset = some c ∧ inAperture c.offset = false := by
  cases c <;> exact ⟨rfl, rfl⟩

/-- No offset but a register's own finds it (20_memory.md R66). -/
theorem eq_offset_of_csrAt {o : Word} {c : Csr} (h : csrAt o = some c) : o = c.offset := by
  apply BitVec.eq_of_toNat_eq
  unfold csrAt at h
  split at h <;> cases h <;> assumption

/-- The offsets of the registers are multiples of 4 up to 0x05C, without 0x02C and 0x03C (10_state.md R24). -/
theorem offset_in_table (c : Csr) :
    c.offset.toNat % 4 = 0 ∧ c.offset.toNat ≤ 0x05C ∧ c.offset.toNat ≠ 0x02C ∧ c.offset.toNat ≠ 0x03C := by
  cases c <;> decide

section port

variable (s : State)

/-- A read in the CSR region changes nothing but the value returned (10_state.md R43). -/
theorem State.hostRead_csr {o : Word} (h : inAperture o = false) (z : Size) :
    s.hostRead o z = { s with portData := s.csrAccessValue o z } := by
  simp [State.hostRead, h]

/-- A 32-bit read at a register's offset returns what it reads as. -/
theorem State.hostRead_offset (c : Csr) : s.hostRead c.offset .four = { s with portData := s.csrValue c } := by
  obtain ⟨hat, hcsr⟩ := csrAt_offset c
  simp [s.hostRead_csr hcsr, State.csrAccessValue, hat]

theorem State.portData_hostRead_offset (c : Csr) : (s.hostRead c.offset .four).portData = s.csrValue c := by
  rw [s.hostRead_offset]

/-- A 32-bit write at a register's offset is a write to that register. -/
theorem State.hostWrite_offset (c : Csr) (v : Word) : s.hostWrite c.offset .four v = s.csrWrite c v := by
  obtain ⟨hat, hcsr⟩ := csrAt_offset c
  simp [State.hostWrite, hat, hcsr]

/-- An access that is not 32 bits wide at a register reads 0 (10_state.md R43). -/
theorem State.csrAccessValue_of_no_register {o : Word} {z : Size} (h : z = .four → csrAt o = none) :
    s.csrAccessValue o z = 0 := by
  unfold State.csrAccessValue
  split
  · next hat => rw [h rfl] at hat; cases hat
  all_goals rfl

/-- An access that is not 32 bits wide at a register writes nothing (10_state.md R43). -/
theorem State.hostWrite_of_no_register {o : Word} {z : Size} (hcsr : inAperture o = false)
    (h : z = .four → csrAt o = none) (v : Word) : s.hostWrite o z v = s := by
  simp only [State.hostWrite, hcsr, Bool.false_eq_true, ↓reduceIte]
  split
  · next hat => rw [h rfl] at hat; cases hat
  all_goals rfl

variable {s}

/-- While idle a write reaches its register (10_state.md R43). -/
theorem State.hostWrite_offset_of_idle (h : s.status.busy = false) (c : Csr) (v : Word) :
    s.hostWrite c.offset .four v = s.csrStore c v := by
  simp [s.hostWrite_offset, State.csrWrite, h]

/-- While BUSY a write to any register but `STATUS` and `IE` is refused (20_memory.md R68). -/
theorem State.hostWrite_offset_of_busy (h : s.status.busy = true) {c : Csr} (hc : c ≠ .status ∧ c ≠ .ie) (v : Word) :
    s.hostWrite c.offset .four v = s.setHaz := by
  rw [s.hostWrite_offset, State.csrWrite, if_pos ⟨h, hc⟩]

/-- `STATUS` and `IE` are written BUSY or not (10_state.md R29, R30). -/
theorem State.hostWrite_offset_of_exempt {c : Csr} (hc : c = .status ∨ c = .ie) (v : Word) :
    s.hostWrite c.offset .four v = s.csrStore c v := by
  rw [s.hostWrite_offset, State.csrWrite, if_neg]
  rintro ⟨-, hstatus, hie⟩
  exact hc.elim hstatus hie

/-- While BUSY a write to the aperture is refused (20_memory.md R68). -/
theorem State.hostWrite_aperture_of_busy (h : s.status.busy = true) {o : Word} (ho : inAperture o = true) (z : Size)
    (v : Word) : s.hostWrite o z v = s.setHaz := by
  simp [State.hostWrite, State.apertureWrite, ho, h]

/-- While BUSY a read of the aperture returns the next free value, cut to the access (20_memory.md R68, log 6). -/
theorem State.hostRead_aperture_of_busy (h : s.status.busy = true) {o : Word} (ho : inAperture o = true) (z : Size) :
    s.hostRead o z =
      { s.setHaz with
        portData := BitVec.ofNat 32 ((Config.busyRead s.freeReads).toNat % 256 ^ z.bytes)
        freeReads := s.freeReads + 1 } := by
  simp [State.hostRead, State.apertureRead, ho, h]

end port

/-- Settles O12: the issue is a write to `CMD`, the completion is `completion_retires`. -/
theorem issueThenOneCompletion : Obligations.IssueThenOneCompletion := by
  intro s w hidle
  obtain ⟨t, ht, hretired, hhost⟩ := completion_retires (s.issue w)
  exact ⟨s.issue w, t, State.hostWrite_offset_of_idle hidle .cmd w, rfl, (engineTurn_of_busy rfl).trans ht,
    hretired, hhost⟩

/-! What the registers read as. -/

/-- A word below `2^n` reads 0 from bit `n` up. -/
theorem getLsbD_eq_false_of_toNat_lt {w : Word} {n : Nat} (h : w.toNat < 2 ^ n) (k : Nat) (hk : n ≤ k) :
    w.getLsbD k = false :=
  Nat.testBit_lt_two_pow (h.trans_le (Nat.pow_le_pow_right (by norm_num) hk))

/-- The fields of `STATUS` stand at their bits (10_state.md R29). -/
theorem Status.word_bits (f : Status) :
    f.word.getLsbD 0 = f.busy ∧ f.word.getLsbD 1 = f.done ∧ f.word.getLsbD 2 = f.err ∧
    f.word.getLsbD 3 = f.errOvf ∧ f.word.getLsbD 4 = f.haz ∧ f.word.getLsbD 5 = f.t ∧ f.word.toNat < 2 ^ 6 := by
  obtain ⟨busy, done, err, errOvf, haz, t⟩ := f
  revert busy done err errOvf haz t
  decide

/-- The fields of `IE` stand at their bits (10_state.md R30). -/
theorem IntEnable.word_bits (f : IntEnable) :
    f.word.getLsbD 0 = f.done ∧ f.word.getLsbD 1 = f.err ∧ f.word.toNat < 2 ^ 2 := by
  obtain ⟨done, err⟩ := f
  revert done err
  decide

/-- Settles O47: the value returned is `csrValue` of the register at the offset. -/
theorem csrReadsGiveTheRegisters : Obligations.CsrReadsGiveTheRegisters := by
  intro s
  have hread := s.portData_hostRead_offset
  obtain ⟨hbusy, hdone, herr, herrOvf, hhaz, ht, hstatus⟩ := s.status.word_bits
  obtain ⟨hieDone, hieErr, hie⟩ := s.ie.word_bits
  refine ⟨fun o z ho => ?_, hread .id, hread .cfg, hread .memSize, hread .cmd, ?_, ?_, hread .result, hread .aux,
    hread .errInfo, hread .errCmd, hread .cmdSeq, ?_, hread .rounds, hread .maxTry, hread .addr0, hread .len0,
    hread .addr1, hread .len1, hread .fbase, hread .fwidth, hread .fheight, ?_⟩
  · rw [s.hostRead_csr ho]
  · rw [show (s.hostRead 0x010#32 .four).portData = s.status.word from hread .status]
    exact ⟨hbusy, hdone, herr, herrOvf, hhaz, ht, getLsbD_eq_false_of_toNat_lt hstatus⟩
  · rw [show (s.hostRead 0x014#32 .four).portData = s.ie.word from hread .ie]
    exact ⟨hieDone, hieErr, getLsbD_eq_false_of_toNat_lt hie⟩
  · rw [show (s.hostRead 0x030#32 .four).portData = s.seed.setWidth 32 from hread .seed]
    exact BitVec.toNat_setWidth_of_le (by norm_num)
  · rw [show (s.hostRead 0x05C#32 .four).portData = s.fchan.setWidth 32 from hread .fchan]
    exact BitVec.toNat_setWidth_of_le (by norm_num)

/-- Settles O48: a register is found only at its own offset, and every such offset is in the table. -/
theorem noRegisterReadsZeroAndIgnoresWrites : Obligations.NoRegisterReadsZeroAndIgnoresWrites := by
  intro s o v z ho hnone
  have hcsr : z = .four → csrAt o = none := by
    rintro rfl
    by_contra hsome
    obtain ⟨c, hc⟩ := Option.ne_none_iff_exists'.1 hsome
    have htable := offset_in_table c
    rw [← eq_offset_of_csrAt hc] at htable
    rcases hnone with hsize | hplace
    · exact hsize rfl
    · omega
  refine ⟨?_, s.hostWrite_of_no_register ho hcsr v⟩
  rw [s.hostRead_csr ho, s.csrAccessValue_of_no_register hcsr]
  rfl

/-! What a write reaches. -/

/-- The registers that ignore writes (10_state.md R25 to R27, R31 to R35). -/
def readOnlyCsrs : List Csr := [.id, .cfg, .memSize, .result, .aux, .errInfo, .errCmd, .cmdSeq]

theorem State.csrStore_readOnly (s : State) {c : Csr} (hc : c ∈ readOnlyCsrs) (v : Word) : s.csrStore c v = s := by
  simp only [readOnlyCsrs, List.mem_cons, List.not_mem_nil, or_false] at hc
  rcases hc with rfl | rfl | rfl | rfl | rfl | rfl | rfl | rfl <;> rfl

/-- Settles O49: while idle a write is `csrStore` of the register at the offset. -/
theorem idleWritesReachTheWritableBits : Obligations.IdleWritesReachTheWritableBits := by
  intro s v hidle
  have hwrite := fun c => State.hostWrite_offset_of_idle hidle c v
  refine ⟨fun o ho => ?_, hwrite .status, hwrite .ie, ⟨v.setWidth 31, BitVec.toNat_setWidth _ _, hwrite .seed⟩,
    hwrite .rounds, hwrite .maxTry, hwrite .addr0, hwrite .len0, hwrite .addr1, hwrite .len1, hwrite .fbase,
    hwrite .fwidth, hwrite .fheight, ⟨v.setWidth 8, BitVec.toNat_setWidth _ _, hwrite .fchan⟩⟩
  obtain ⟨c, hc, rfl⟩ := List.mem_map.1 (show o ∈ readOnlyCsrs.map Csr.offset from ho)
  rw [hwrite c, s.csrStore_readOnly hc]

/-- The registers a write to is refused while BUSY: all but `STATUS` and `IE` (10_state.md R43, log 8). -/
def refusedCsrs : List Csr :=
  [.id, .cfg, .memSize, .cmd, .result, .aux, .errInfo, .errCmd, .cmdSeq, .seed, .rounds, .maxTry, .addr0, .len0,
    .addr1, .len1, .fbase, .fwidth, .fheight, .fchan]

theorem not_exempt_of_mem_refusedCsrs : ∀ c ∈ refusedCsrs, c ≠ .status ∧ c ≠ .ie := by decide

/-- Settles O50: by where the access goes. -/
theorem busyAccessesAreRefused : Obligations.BusyAccessesAreRefused := by
  intro s v z hbusy
  refine ⟨fun o ho => ?_, fun o ho => ⟨State.hostWrite_aperture_of_busy hbusy ho z v, _, ?_,
      State.hostRead_aperture_of_busy hbusy ho z⟩,
    State.hostWrite_offset_of_exempt (.inl rfl) v, State.hostWrite_offset_of_exempt (.inr rfl) v⟩
  · obtain ⟨c, hc, rfl⟩ := List.mem_map.1 (show o ∈ refusedCsrs.map Csr.offset from ho)
    exact State.hostWrite_offset_of_busy hbusy (not_exempt_of_mem_refusedCsrs c hc) v
  · rw [BitVec.toNat_ofNat]
    exact (Nat.mod_le _ _).trans_lt (Nat.mod_lt _ (by positivity))

end Sys2Proof.Machine

/-! The statements of 20_memory.md: what the host may do while a command is in flight, and the MEM aperture while idle. -/

namespace Sys2Proof.Machine

/-! What a host access may touch while BUSY, and that no command's writes depend on it. -/

/-- What host accesses may change while BUSY, directly or, once `ERR` is cleared, through the fault the command then
records: the flags of `STATUS` but `T`, `IE`, the error record and the port's own fields (10_state.md R29, R30, R43;
60_exceptions.md R233). -/
structure Aside where
  busy : Bool
  done : Bool
  err : Bool
  errOvf : Bool
  haz : Bool
  ie : IntEnable
  errInfo : Word
  errCmd : Word
  freeReads : Nat
  portData : Word

/-- The aside of a state. -/
def State.aside (s : State) : Aside where
  busy := s.status.busy
  done := s.status.done
  err := s.status.err
  errOvf := s.status.errOvf
  haz := s.status.haz
  ie := s.ie
  errInfo := s.errInfo
  errCmd := s.errCmd
  freeReads := s.freeReads
  portData := s.portData

/-- The state with another aside, everything else as before. -/
def State.withAside (s : State) (x : Aside) : State :=
  { s with
    status := { busy := x.busy, done := x.done, err := x.err, errOvf := x.errOvf, haz := x.haz, t := s.status.t }
    ie := x.ie
    errInfo := x.errInfo
    errCmd := x.errCmd
    freeReads := x.freeReads
    portData := x.portData }

section aside

variable (s : State) (x : Aside)

@[simp] theorem State.withAside_aside : s.withAside s.aside = s := rfl

@[simp] theorem State.withAside_view : (s.withAside x).view = s.view := rfl

@[simp] theorem State.withAside_cmdSeq : (s.withAside x).cmdSeq = s.cmdSeq := rfl

@[simp] theorem State.withAside_cmd : (s.withAside x).cmd = s.cmd := rfl

/-! The operands a command takes. -/

@[simp] theorem State.withAside_reg (r : Reg) : (s.withAside x).reg r = s.reg r := rfl

@[simp] theorem State.withAside_seed : (s.withAside x).seed = s.seed := rfl

@[simp] theorem State.withAside_roundCount : (s.withAside x).roundCount = s.roundCount := rfl

@[simp] theorem State.withAside_tryLimit : (s.withAside x).tryLimit = s.tryLimit := rfl

@[simp] theorem State.withAside_cap : (s.withAside x).cap = s.cap := rfl

@[simp] theorem State.withAside_readBytes (a n : Nat) : (s.withAside x).readBytes a n = s.readBytes a n :=
  s.readBytes_congr (s.withAside x) a n fun _ _ => rfl

@[simp] theorem State.withAside_inBytes : (s.withAside x).inBytes = s.inBytes :=
  s.withAside_readBytes x s.inAddr s.inLen

@[simp] theorem State.withAside_lsbFrom (i n : Nat) : (s.withAside x).lsbFrom i n = s.lsbFrom i n := by
  induction n generalizing i with
  | zero => rfl
  | succ k ih => exact congrArg ((s.readByte (s.slot i)).getLsbD 0 :: ·) (ih (i + 1))

/-! The writes a command makes. -/

@[simp] theorem State.withAside_embedMem (m : Memory) (i : Nat) (bits : List Bool) :
    (s.withAside x).embedMem m i bits = s.embedMem m i bits := by
  induction bits generalizing m i with
  | nil => rfl
  | cons v rest ih => exact ih _ _

theorem State.withAside_embedStream (bits : List Bool) :
    (s.withAside x).embedStream bits = (s.embedStream bits).withAside x := by
  simp only [State.embedStream, State.withAside_embedMem]
  rfl

/-- Recording a fault and retiring changes, beside the aside, `CMDSEQ` alone (30_encoding.md R86,
60_exceptions.md R233). -/
theorem State.withAside_record_retire (c : Cause) :
    ∃ y, ((s.withAside x).record c).retire = ((s.record c).retire).withAside y := by
  refine ⟨((s.withAside x).record c).retire.aside, ?_⟩
  unfold State.record
  split <;> split <;> rfl

end aside

/-- Two answers that differ in the aside alone. -/
def AnswersAlike (r q : Result) : Prop := ∃ t y, r = .next t ∧ q = .next (t.withAside y)

namespace AnswersAlike

variable (x : Aside)

theorem complete (u : State) : AnswersAlike (complete u) (complete (u.withAside x)) :=
  ⟨u.retire, { x with busy := false, done := true }, complete_next u, rfl⟩

theorem raise (c : Cause) (u : State) : AnswersAlike (raise c u) (raise c (u.withAside x)) :=
  have ⟨y, hy⟩ := u.withAside_record_retire x c
  ⟨(u.record c).retire, y, raise_next c u, by rw [raise_next, hy]⟩

variable {x}

/-- A check of a command: where it fails, both answers are the same fault. -/
theorem check {s : State} {c : Cause} {p : Prop} [Decidable p] {r q : Result} (h : ¬ p → AnswersAlike r q) :
    AnswersAlike (if p then Machine.raise c s else r) (if p then Machine.raise c (s.withAside x) else q) := by
  split
  · exact .raise x c s
  · exact h ‹_›

end AnswersAlike

section commands

variable (s : State) (x : Aside)

theorem execModinv_answersAlike (rd ra rm : Reg) :
    AnswersAlike (execModinv rd ra rm s) (execModinv rd ra rm (s.withAside x)) :=
  .check fun _ => by
    rw [State.withAside_reg, State.withAside_reg]
    cases invMod (s.reg ra) (s.reg rm) with
    | none => exact .raise x _ s
    | some d => exact .complete x (s.setReg rd d)

/-- A search takes its operands from outside the aside (43_primality.md R160). -/
theorem execPrimegen_answersAlike (rd : Reg) (b : Nat) :
    AnswersAlike (execPrimegen rd b s) (execPrimegen rd b (s.withAside x)) :=
  .check fun _ => .check fun _ => by
    rw [State.withAside_tryLimit, State.withAside_roundCount, State.withAside_seed]
    cases search s.tryLimit b s.roundCount 0 s.seed with
    | exhausted sd => exact .raise x _ (s.setSeed sd)
    | found c t sd => exact .complete x (((s.setSeed sd).setReg rd c).setResult t)

theorem execKeygen_answersAlike (b : Nat) : AnswersAlike (execKeygen b s) (execKeygen b (s.withAside x)) :=
  .check fun _ => .check fun _ => by
    rw [State.withAside_tryLimit, State.withAside_roundCount, State.withAside_seed]
    cases search s.tryLimit (b / 2) s.roundCount 0 s.seed with
    | exhausted sd => exact .raise x _ (s.setSeed sd)
    | found p tp sdp =>
      simp only
      cases search s.tryLimit (b / 2) s.roundCount 0 sdp with
      | exhausted sd => exact .raise x _ (s.setSeed sd)
      | found q tq sdq =>
        simp only
        cases invMod Config.eFixed ((p - 1) * (q - 1)) with
        | none => exact .raise x _ (s.setSeed sdq)
        | some d => exact .complete x ((s.setSeed sdq).writeKey d p tp q tq)

theorem execRsaenc_answersAlike (rd rb rm : Reg) :
    AnswersAlike (execRsaenc rd rb rm s) (execRsaenc rd rb rm (s.withAside x)) :=
  .check fun _ => by
    rw [State.withAside_inBytes]
    exact .check fun _ => .complete x (s.setReg rd _)

theorem execEmbed_answersAlike : AnswersAlike (execEmbed s) (execEmbed (s.withAside x)) :=
  .check fun _ => .check fun _ => .check fun _ => .check fun _ => .check fun _ => by
    rw [State.withAside_inBytes, State.withAside_embedStream]
    exact .complete x ((s.embedStream (bitstream s.inBytes)).setResult _)

theorem execExtract_answersAlike : AnswersAlike (execExtract s) (execExtract (s.withAside x)) :=
  .check fun _ => .check fun _ => .check fun _ => .check fun _ => by
    simp only [State.withAside_lsbFrom, State.withAside_cap]
    cases findTerminator (s.lsbFrom 0 s.cap) 0 with
    | none => exact .complete x (((s.setT false).setResult 0).setAux 0)
    | some nb => exact .check fun _ => .complete x ((((s.writeBytes s.outAddr _).setT true).setResult _).setAux _)

theorem execLdf_answersAlike (rd : Reg) : AnswersAlike (execLdf rd s) (execLdf rd (s.withAside x)) :=
  .check fun _ => .check fun _ => by
    rw [State.withAside_readBytes]
    exact .complete x (s.setReg rd _)

theorem execUnpack_answersAlike (rd rb : Reg) : AnswersAlike (execUnpack rd rb s) (execUnpack rd rb (s.withAside x)) :=
  .check fun _ => .check fun _ => .check fun _ => by
    rw [State.withAside_readBytes, State.withAside_readBytes]
    exact .complete x ((s.setReg rd _).setReg rb _)

theorem execLdm_answersAlike (rd : Reg) : AnswersAlike (execLdm rd s) (execLdm rd (s.withAside x)) :=
  .check fun _ => by
    rw [State.withAside_inBytes]
    exact .check fun _ => .complete x (s.setReg rd _)

/-- What a command does beside the aside does not depend on the aside. -/
theorem exec_answersAlike (i : Instr) : AnswersAlike (exec i s) (exec i (s.withAside x)) := by
  cases i with
  | nop => exact .complete x s
  | zeroize => exact .complete x _
  | ldi rd v => exact .complete x _
  | mov rd ra => exact .complete x _
  | cmp ra rb => exact .complete x _
  | bitlen ra => exact .complete x _
  | add rd ra rb => exact .check fun _ => .complete x _
  | sub rd ra rb => exact .check fun _ => .complete x _
  | mova rd => exact .check fun _ => .complete x _
  | mul ra rb => exact .complete x _
  | red rd rm => exact .check fun _ => .complete x _
  | modmul rd ra rb rm => exact .check fun _ => .complete x _
  | modexp rd ra rb rm => exact .check fun _ => .complete x _
  | modinv rd ra rm => exact execModinv_answersAlike s x rd ra rm
  | rngnext => exact .complete x _
  | mrwit ra rm => exact .check fun _ => .check fun _ => .complete x _
  | mrtest rm => exact .check fun _ => .complete x _
  | primecand rd b => exact .check fun _ => .complete x _
  | primegen rd b => exact execPrimegen_answersAlike s x rd b
  | keygen b => exact execKeygen_answersAlike s x b
  | rsaenc rd rb rm => exact execRsaenc_answersAlike s x rd rb rm
  | rsadec ra rb rm => exact .check fun _ => .check fun _ => .check fun _ => .check fun _ => .complete x _
  | embed => exact execEmbed_answersAlike s x
  | extract => exact execExtract_answersAlike s x
  | ldf rd => exact execLdf_answersAlike s x rd
  | stf ra => exact .check fun _ => .check fun _ => .complete x _
  | pack ra rb => exact .check fun _ => .check fun _ => .complete x _
  | unpack rd rb => exact execUnpack_answersAlike s x rd rb
  | ldm rd => exact execLdm_answersAlike s x rd
  | stm ra => exact .check fun _ => .check fun _ => .complete x _

/-- The same of every word's completion (30_encoding.md R86 to R88). -/
theorem completion_answersAlike : AnswersAlike (completion s) (completion (s.withAside x)) := by
  rw [completion, completion, State.withAside_cmd]
  split
  · exact exec_answersAlike s x _
  · exact .raise x _ s
  · exact .raise x _ s

end commands

/-! The host's accesses while BUSY. -/

/-- `u` is `s` but for the aside, and is BUSY when `s` is: what a host access makes of a BUSY engine. -/
def State.OnlyAside (s u : State) : Prop := ∃ x, u = s.withAside x ∧ x.busy = s.status.busy

namespace State.OnlyAside

variable (s : State)

theorem refl : s.OnlyAside s := ⟨s.aside, s.withAside_aside.symm, rfl⟩

theorem setHaz : s.OnlyAside s.setHaz := ⟨s.setHaz.aside, rfl, rfl⟩

theorem clearStatus (v : Word) : s.OnlyAside (s.clearStatus v) := ⟨(s.clearStatus v).aside, rfl, rfl⟩

theorem setIe (f : IntEnable) : s.OnlyAside { s with ie := f } := ⟨{ s.aside with ie := f }, rfl, rfl⟩

theorem setPortData (v : Word) : s.OnlyAside { s with portData := v } := ⟨{ s.aside with portData := v }, rfl, rfl⟩

variable {s}

/-- A read of the aperture sets `HAZ` and draws a free value; a read of a register has no side effect (10_state.md R43,
20_memory.md R68). -/
theorem hostRead (h : s.status.busy = true) (o : Word) (z : Size) : s.OnlyAside (s.hostRead o z) := by
  cases ho : inAperture o with
  | false => rw [s.hostRead_csr ho]; exact setPortData s _
  | true =>
    rw [State.hostRead_aperture_of_busy h ho]
    exact ⟨{ s.setHaz.aside with portData := _, freeReads := s.freeReads + 1 }, rfl, rfl⟩

/-- A write to `STATUS` clears flags, one to `IE` sets it, one to any other register sets `HAZ` (10_state.md R29, R30,
R43). -/
theorem csrWrite (h : s.status.busy = true) (c : Csr) (v : Word) : s.OnlyAside (s.csrWrite c v) := by
  rw [← s.hostWrite_offset]
  by_cases hs : c = .status
  · rw [State.hostWrite_offset_of_exempt (.inl hs), hs]; exact clearStatus s v
  by_cases hi : c = .ie
  · rw [State.hostWrite_offset_of_exempt (.inr hi), hi]; exact setIe s _
  · rw [State.hostWrite_offset_of_busy h ⟨hs, hi⟩]; exact setHaz s

theorem hostWrite (h : s.status.busy = true) (o : Word) (z : Size) (v : Word) : s.OnlyAside (s.hostWrite o z v) := by
  cases ho : inAperture o with
  | true => rw [State.hostWrite_aperture_of_busy h ho]; exact setHaz s
  | false =>
    by_cases hreg : z = .four → csrAt o = none
    · rw [s.hostWrite_of_no_register ho hreg]; exact refl s
    · push Not at hreg
      obtain ⟨rfl, hne⟩ := hreg
      obtain ⟨c, hc⟩ := Option.ne_none_iff_exists'.1 hne
      rw [eq_offset_of_csrAt hc, s.hostWrite_offset]
      exact csrWrite h c v

/-- The completion after such an access is the one without it, beside the aside (20_memory.md R68, R72). -/
theorem engineTurn_alike {u : State} (h : s.OnlyAside u) (hb : s.status.busy = true) :
    AnswersAlike (engineTurn s) (engineTurn u) := by
  obtain ⟨x, rfl, hx⟩ := h
  have hbusy : (s.withAside x).status.busy = true := hx.trans hb
  rw [engineTurn_of_busy hb, engineTurn_of_busy hbusy]
  exact completion_answersAlike s x

end State.OnlyAside

/-- Settles O53: a host access while BUSY changes the aside alone, and the completion does not depend on it. -/
theorem hostAccessesDoNotDisturbTheCommandInFlight : Obligations.HostAccessesDoNotDisturbTheCommandInFlight := by
  intro s o v z hbusy
  obtain ⟨t, y, ht, hu⟩ := (State.OnlyAside.hostWrite hbusy o z v).engineTurn_alike hbusy
  obtain ⟨t', y', ht', hw⟩ := (State.OnlyAside.hostRead hbusy o z).engineTurn_alike hbusy
  obtain rfl : t = t' := by simpa [ht] using ht'
  exact ⟨t, t.withAside y, t.withAside y', ht, hu, hw, t.withAside_view y, t.withAside_view y', t.withAside_cmdSeq y,
    t.withAside_cmdSeq y'⟩

/-! The MEM aperture while idle. -/

section aperture

variable {s : State} {a : Nat}

theorem State.hostRead_apertureOffset (ha : a < 2 ^ 31) (z : Size) :
    s.hostRead (BitVec.ofNat 32 (2 ^ 31 + a)) z = s.apertureRead a z := by
  obtain ⟨hin, haddr⟩ := aperture_offset a ha
  rw [State.hostRead, if_pos hin, haddr]

theorem State.hostWrite_apertureOffset (ha : a < 2 ^ 31) (z : Size) (v : Word) :
    s.hostWrite (BitVec.ofNat 32 (2 ^ 31 + a)) z v = s.apertureWrite a z v := by
  obtain ⟨hin, haddr⟩ := aperture_offset a ha
  simp only [State.hostWrite, hin, haddr, ↓reduceIte]

theorem State.lanesValue_readBytes_lt (s : State) (a : Nat) (z : Size) :
    lanesValue (s.readBytes a z.bytes) < 256 ^ z.bytes := by
  simpa using lanesValue_lt (s.readBytes a z.bytes)

/-- The lanes of an access fit the value that carries them (20_memory.md R66). -/
theorem Size.lanes_le_word (z : Size) : 256 ^ z.bytes ≤ 2 ^ 32 := by cases z <;> decide

/-- A legal read returns the lanes' value whole (20_memory.md R67). -/
theorem State.apertureRead_of_legal (hidle : s.status.busy = false) {z : Size} (hlegal : s.LegalAccess a z) :
    ∃ x : Word, s.apertureRead a z = { s with portData := x } ∧ x.toNat = lanesValue (s.readBytes a z.bytes) :=
  ⟨BitVec.ofNat 32 (lanesValue (s.readBytes a z.bytes)), by simp [State.apertureRead, hidle, hlegal],
    Nat.mod_eq_of_lt ((s.lanesValue_readBytes_lt a z).trans_le z.lanes_le_word)⟩

/-- A byte of the window a legal read covers is its lane (20_memory.md R67). -/
theorem State.lanesValue_readBytes_lane (s : State) (a n : Nat) {k : Nat} (hk : k < n) :
    lanesValue (s.readBytes a n) / 256 ^ k % 256 = (s.readByte (a + k)).toNat := by
  have hlen : k < (s.readBytes a n).length := by simpa using hk
  rw [lanesValue_lane _ _ hlen, List.getD_eq_getElem _ _ hlen, State.readBytes_getElem]

theorem State.apertureWrite_of_legal (hidle : s.status.busy = false) {z : Size} (hlegal : s.LegalAccess a z)
    (v : Word) : s.apertureWrite a z v = s.writeBytes a (lanesOf z.bytes v.toNat) := by
  simp [State.apertureWrite, hidle, hlegal]

theorem State.apertureRead_of_not_legal (hidle : s.status.busy = false) {z : Size} (h : ¬ s.LegalAccess a z) :
    s.apertureRead a z = { s with portData := 0 } := by
  rw [State.apertureRead, if_neg (by simp [hidle]), if_neg h]

theorem State.apertureWrite_of_not_legal (hidle : s.status.busy = false) {z : Size} (h : ¬ s.LegalAccess a z)
    (v : Word) : s.apertureWrite a z v = s := by
  rw [State.apertureWrite, if_neg (by simp [hidle]), if_neg h]

/-- The bytes after storing the low lanes of a value (20_memory.md R67). -/
theorem State.readByte_writeLanes (s : State) (a n v x : Nat) :
    (s.writeBytes a (lanesOf n v)).readByte x =
      if a ≤ x ∧ x < a + n then BitVec.ofNat 8 (v / 256 ^ (x - a)) else s.readByte x := by
  rw [State.readByte_writeBytes, lanesOf_length]
  split
  · exact lanesOf_getD _ _ _ (by omega)
  · rfl

end aperture

/-- Settles O51: by whether the access is legal. -/
theorem idleApertureMovesLittleEndianLanes : Obligations.IdleApertureMovesLittleEndianLanes := by
  intro s a v z hidle ha
  rw [State.hostRead_apertureOffset ha, State.hostWrite_apertureOffset ha]
  refine ⟨fun halign hin => ?_, fun hnot => ?_⟩
  · have hlegal : s.LegalAccess a z := ⟨halign, hin⟩
    obtain ⟨x, hread, hx⟩ := State.apertureRead_of_legal hidle hlegal
    rw [State.apertureWrite_of_legal hidle hlegal]
    refine ⟨⟨x, hread, ?_, fun k hk => ?_⟩, _, rfl, fun k hk => ?_, fun y hy => ?_⟩
    · rw [hx]; exact s.lanesValue_readBytes_lt a z
    · rw [hx]; exact s.lanesValue_readBytes_lane a _ hk
    · rw [State.readByte_writeLanes, if_pos (by omega), Nat.add_sub_cancel_left]
    · rw [State.readByte_writeLanes, if_neg (by omega)]
  · exact ⟨State.apertureRead_of_not_legal hidle hnot, State.apertureWrite_of_not_legal hidle hnot v⟩

end Sys2Proof.Machine

/-! The statements of 30_encoding.md: the decoder and the encoder undo each other, and the words that are no command complete
with a recorded fault. -/

namespace Sys2Proof.Machine

/-! Decoding undoes encoding. -/

/-- Every well-formed command's word stands in its row of the opcode map and gives its operands back (30_encoding.md R84, R85). -/
theorem encodes (i : Instr) : Laws.Encodes.Statement i :=
  match i with
  | .nop => Laws.Encodes.nop
  | .zeroize => Laws.Encodes.zeroize
  | .ldi rd v => Laws.Encodes.ldi rd v
  | .mov rd ra => Laws.Encodes.mov rd ra
  | .cmp ra rb => Laws.Encodes.cmp ra rb
  | .bitlen ra => Laws.Encodes.bitlen ra
  | .add rd ra rb => Laws.Encodes.add rd ra rb
  | .sub rd ra rb => Laws.Encodes.sub rd ra rb
  | .mova rd => Laws.Encodes.mova rd
  | .mul ra rb => Laws.Encodes.mul ra rb
  | .red rd rm => Laws.Encodes.red rd rm
  | .modmul rd ra rb rm => Laws.Encodes.modmul rd ra rb rm
  | .modexp rd ra rb rm => Laws.Encodes.modexp rd ra rb rm
  | .modinv rd ra rm => Laws.Encodes.modinv rd ra rm
  | .rngnext => Laws.Encodes.rngnext
  | .mrwit ra rm => Laws.Encodes.mrwit ra rm
  | .mrtest rm => Laws.Encodes.mrtest rm
  | .primecand rd v => Laws.Encodes.primecand rd v
  | .primegen rd v => Laws.Encodes.primegen rd v
  | .keygen v => Laws.Encodes.keygen v
  | .rsaenc rd rb rm => Laws.Encodes.rsaenc rd rb rm
  | .rsadec ra rb rm => Laws.Encodes.rsadec ra rb rm
  | .embed => Laws.Encodes.embed
  | .extract => Laws.Encodes.extract
  | .ldf rd => Laws.Encodes.ldf rd
  | .stf ra => Laws.Encodes.stf ra
  | .pack ra rb => Laws.Encodes.pack ra rb
  | .unpack rd rb => Laws.Encodes.unpack rd rb
  | .ldm rd => Laws.Encodes.ldm rd
  | .stm ra => Laws.Encodes.stm ra

/-- Settles O1: the command's word decodes by its own row, which builds the command again. -/
theorem encodeThenDecode : Obligations.EncodeThenDecode := by
  intro i hi
  obtain ⟨r, hrow, hmask, hbuild⟩ := encodes i hi
  rw [decode_of_row _ r hrow hmask, hbuild]

/-! Encoding undoes decoding. A field a command uses puts back the bits it was read from, and the mask covers every other bit
(30_encoding.md R85), so the parts of the encoded word are the parts of the word decoded. -/

section parts

variable (w : Word)

/-- A field moved back to its place is the word masked to that place. -/
theorem shiftLeft_extractLsb' (a n : Nat) :
    (w.extractLsb' a n).setWidth 32 <<< a = w &&& ((BitVec.allOnes n).setWidth 32 <<< a) := by
  apply BitVec.eq_of_getLsbD_eq
  intro i hi
  simp only [BitVec.getLsbD_shiftLeft, BitVec.getLsbD_setWidth, BitVec.getLsbD_extractLsb', BitVec.getLsbD_and,
    BitVec.getLsbD_allOnes, hi, decide_true, Bool.true_and]
  by_cases h : i < a
  · simp [h]
  · simp [h, Nat.add_sub_cancel' (Nat.le_of_not_lt h), Bool.and_comm, (Nat.sub_le i a).trans_lt hi]

/-! Each field of R82 and R83 and the bits it stands in. -/

theorem rdField_part : (rdField w).bits.setWidth 32 <<< 8 = w &&& 0x00000700#32 := by
  rw [rdField, Reg.bits_ofBits, shiftLeft_extractLsb']; rfl

theorem raField_part : (raField w).bits.setWidth 32 <<< 11 = w &&& 0x00003800#32 := by
  rw [raField, Reg.bits_ofBits, shiftLeft_extractLsb']; rfl

theorem rbField_part : (rbField w).bits.setWidth 32 <<< 14 = w &&& 0x0001C000#32 := by
  rw [rbField, Reg.bits_ofBits, shiftLeft_extractLsb']; rfl

theorem rmField_part : (rmField w).bits.setWidth 32 <<< 17 = w &&& 0x000E0000#32 := by
  rw [rmField, Reg.bits_ofBits, shiftLeft_extractLsb']; rfl

theorem immField_part : BitVec.ofNat 32 (immField w) <<< 12 = w &&& 0xFFFFF000#32 := by
  rw [immField, BitVec.ofNat_toNat, shiftLeft_extractLsb']; rfl

/-- A field the command does not use is `b0` and puts back nothing (30_encoding.md R82). -/
theorem unused_part (a : Nat) : Reg.b0.bits.setWidth 32 <<< a = w &&& 0#32 := by
  simp [Reg.bits]

end parts

section respell

variable {w m op kd ka kb km : Word} (h : w &&& m = op)
include h

/-- Format N has no field: its mask covers the whole word (30_encoding.md R81). -/
theorem word_of_full_mask (hm : m = BitVec.allOnes 32 := by decide) : op = w := by
  rw [← h, hm, BitVec.and_allOnes]

/-- A word of format R whose parts are those of `w`, with every bit in the mask or in a field in use, is `w`. -/
theorem wordR_of_parts {rd ra rb rm : Reg} (hd : rd.bits.setWidth 32 <<< 8 = w &&& kd)
    (ha : ra.bits.setWidth 32 <<< 11 = w &&& ka) (hb : rb.bits.setWidth 32 <<< 14 = w &&& kb)
    (hm : rm.bits.setWidth 32 <<< 17 = w &&& km)
    (hcover : m ||| kd ||| ka ||| kb ||| km = BitVec.allOnes 32 := by decide) : wordR op rd ra rb rm = w := by
  simp only [wordR, ← h, hd, ha, hb, hm, ← BitVec.and_or_distrib_left, hcover, BitVec.and_allOnes]

/-- The same for format I, whose immediate stands in bits 31:12 whole (30_encoding.md R83). -/
theorem wordI_of_parts {rd : Reg} (hd : rd.bits.setWidth 32 <<< 8 = w &&& kd)
    (hcover : m ||| kd ||| 0xFFFFF000#32 = BitVec.allOnes 32 := by decide) : wordI op rd (immField w) = w := by
  simp only [wordI, ← h, hd, immField_part, ← BitVec.and_or_distrib_left, hcover, BitVec.and_allOnes]

end respell

/-- The command a row reads from a word it matches is spelled by that word, no bit dropped (30_encoding.md R84, R85): each line
names the fields the row uses. -/
theorem encode_build (w : Word) : ∀ r ∈ opTable, w &&& r.mask = r.value → encode (r.build w) = w := by
  have rd := rdField_part w
  have ra := raField_part w
  have rb := rbField_part w
  have rm := rmField_part w
  have unused := unused_part w
  simp only [opTable, List.forall_mem_cons, encode]
  exact ⟨
    fun h => word_of_full_mask h, -- NOP
    fun h => word_of_full_mask h, -- ZEROIZE
    fun h => wordI_of_parts h rd, -- LDI
    fun h => wordR_of_parts h rd ra (unused 14) (unused 17), -- MOV
    fun h => wordR_of_parts h (unused 8) ra rb (unused 17), -- CMP
    fun h => wordR_of_parts h (unused 8) ra (unused 14) (unused 17), -- BITLEN
    fun h => wordR_of_parts h rd ra rb (unused 17), -- ADD
    fun h => wordR_of_parts h rd ra rb (unused 17), -- SUB
    fun h => wordR_of_parts h rd (unused 11) (unused 14) (unused 17), -- MOVA
    fun h => wordR_of_parts h (unused 8) ra rb (unused 17), -- MUL
    fun h => wordR_of_parts h rd (unused 11) (unused 14) rm, -- RED
    fun h => wordR_of_parts h rd ra rb rm, -- MODMUL
    fun h => wordR_of_parts h rd ra rb rm, -- MODEXP
    fun h => wordR_of_parts h rd ra (unused 14) rm, -- MODINV
    fun h => word_of_full_mask h, -- RNGNEXT
    fun h => wordR_of_parts h (unused 8) ra (unused 14) rm, -- MRWIT
    fun h => wordR_of_parts h (unused 8) (unused 11) (unused 14) rm, -- MRTEST
    fun h => wordI_of_parts h rd, -- PRIMECAND
    fun h => wordI_of_parts h rd, -- PRIMEGEN
    fun h => wordI_of_parts h (unused 8), -- KEYGEN
    fun h => wordR_of_parts h rd (unused 11) rb rm, -- RSAENC
    fun h => wordR_of_parts h (unused 8) ra rb rm, -- RSADEC
    fun h => word_of_full_mask h, -- EMBED
    fun h => word_of_full_mask h, -- EXTRACT
    fun h => wordR_of_parts h rd (unused 11) (unused 14) (unused 17), -- LDF
    fun h => wordR_of_parts h (unused 8) ra (unused 14) (unused 17), -- STF
    fun h => wordR_of_parts h (unused 8) ra rb (unused 17), -- PACK
    fun h => wordR_of_parts h rd (unused 11) rb (unused 17), -- UNPACK
    fun h => wordR_of_parts h rd (unused 11) (unused 14) (unused 17), -- LDM
    fun h => wordR_of_parts h (unused 8) ra (unused 14) (unused 17), -- STM
    List.forall_mem_nil _⟩

/-! What the decoder answers. -/

/-- The opcode of a word is the number in bits 7:0 (30_encoding.md R80). -/
theorem opcodeField_toNat (w : Word) : (opcodeField w).toNat = w.toNat % 256 := by
  simp [opcodeField]

/-- The opcodes without a row are those 30_encoding.md R87 lists. -/
theorem find_row_eq_none_iff (c : Byte) : opTable.find? (fun r => r.code == c) = none ↔ Unassigned c.toNat := by
  have hc : c.toNat < 256 := c.isLt
  simp only [List.find?_eq_none, opTable, List.forall_mem_cons, List.not_mem_nil, false_imp_iff, implies_true,
    and_true, beq_iff_eq, BitVec.toNat_eq, BitVec.toNat_ofNat, Unassigned]
  omega

/-- A word finds no row exactly when its opcode is not assigned (30_encoding.md R87). -/
theorem opRow_eq_none_iff (w : Word) : opRow w = none ↔ Unassigned (w.toNat % 256) := by
  rw [← opcodeField_toNat]
  exact find_row_eq_none_iff _

/-- The decoder refuses a word's opcode exactly when it is not assigned (30_encoding.md R85, R87). -/
theorem unassigned_iff_illegalOpcode (w : Word) :
    Unassigned (w.toNat % 256) ↔ decode w = .error .illegalOpcode := by
  rw [← opRow_eq_none_iff]
  unfold decode
  split
  · next hrow => simp [hrow]
  · next r hrow => split <;> simp [hrow]

/-- A word decodes only by a row it finds and matches (30_encoding.md R85). -/
theorem row_of_decode {w : Word} {i : Instr} (h : decode w = .ok i) :
    ∃ r, opRow w = some r ∧ w &&& r.mask = r.value ∧ r.build w = i := by
  unfold decode at h
  split at h
  · cases h
  · next r hrow =>
    split at h
    · next hmask =>
      cases h
      exact ⟨r, hrow, hmask, rfl⟩
    · cases h

/-- Encoding undoes decoding (30_encoding.md R85). -/
theorem encode_of_decode {w : Word} {i : Instr} (h : decode w = .ok i) : encode i = w := by
  obtain ⟨r, hrow, hmask, rfl⟩ := row_of_decode h
  exact encode_build w r (List.mem_of_find?_eq_some hrow) hmask

/-- A word with an assigned opcode that no command spells has a reserved field set (30_encoding.md R88). -/
theorem decode_of_unspelled {w : Word} (hop : ¬ Unassigned (w.toNat % 256))
    (hno : ∀ i, WellFormed i → encode i ≠ w) : decode w = .error .reservedField := by
  cases hdec : decode w with
  | ok i => exact absurd (encode_of_decode hdec) (hno i (wellFormed_of_decode hdec))
  | error e =>
    cases e with
    | illegalOpcode => exact absurd ((unassigned_iff_illegalOpcode w).mpr hdec) hop
    | reservedField => rfl

/-- Settles O2: an opcode is refused when it has no row, and a word that decodes is the one word of its command, so the words
left over are those no command spells. -/
theorem everyWordIsACommandOrAFault : Obligations.EveryWordIsACommandOrAFault := by
  intro w
  refine ⟨unassigned_iff_illegalOpcode w, fun i hi => ⟨wellFormed_of_decode hi, encode_of_decode hi⟩,
    fun hreserved => ⟨?_, ?_⟩, fun ⟨hop, hno⟩ => decode_of_unspelled hop hno⟩
  · rw [unassigned_iff_illegalOpcode, hreserved]; simp
  · rintro i hi rfl
    rw [encodeThenDecode i hi] at hreserved
    cases hreserved

/-! The completion of a word that is no command. -/

/-- While BUSY a turn whose completion is a fault records it and changes nothing else (60_exceptions.md R233). -/
theorem engineTurn_of_raise {s : State} {c : Cause} (hb : s.status.busy = true) (hc : completion s = raise c s) :
    ∃ t, engineTurn s = .next t ∧ s.Faulted c.info t ∧ t.view = s.view := by
  rw [engineTurn_of_busy hb, hc]
  exact raise_spec c s

/-- The completion of a word the decoder refuses (30_encoding.md R86). -/
theorem completion_of_illegalOpcode {s : State} (h : decode s.cmd = .error .illegalOpcode) :
    completion s = raise .illegalOpcode s := by
  simp [completion, h]

theorem completion_of_reservedField {s : State} (h : decode s.cmd = .error .reservedField) :
    completion s = raise .reservedField s := by
  simp [completion, h]

/-- Settles O6: the write to `CMD` issues the word, and the engine's turn records the refused opcode. -/
theorem illegalOpcodeIsARecordedFault : Obligations.IllegalOpcodeIsARecordedFault := by
  intro s w hidle hop
  obtain ⟨t, hturn, hfault, hview⟩ := engineTurn_of_raise (s := s.issue w) rfl
    (completion_of_illegalOpcode ((unassigned_iff_illegalOpcode w).mp hop))
  exact ⟨s.issue w, t, State.hostWrite_offset_of_idle hidle .cmd w, rfl, hturn, hfault, hview⟩

/-- Settles O7: the word in `CMD` is refused for a reserved field. -/
theorem reservedFieldIsARecordedFault : Obligations.ReservedFieldIsARecordedFault := by
  rintro s _ hb rfl hop hno
  exact engineTurn_of_raise hb (completion_of_reservedField (decode_of_unspelled hop hno))

/-- Settles O3, word by word. -/
theorem printedWordsDecode : Obligations.PrintedWordsDecode :=
  ⟨rfl, rfl, rfl, rfl, rfl, rfl, rfl, rfl, rfl⟩

end Sys2Proof.Machine

/-! The statements of 40_control_alu.md: the housekeeping commands and the plain arithmetic on the registers. -/

namespace Sys2Proof.Machine

/-! The word of a command. -/

/-- A well-formed command meets the mask and the match of its opcode's row, and decodes (30_encoding.md R84, R85). -/
theorem spells_of_opcode {i : Instr} {c : Byte} {m v : Word} (hi : WellFormed i) (hc : opcodeField (encode i) = c)
    (hrow : (opTable.find? fun r => r.code == c).map (fun r => (r.mask, r.value)) = some (m, v) := by rfl) :
    Spells i m v := by
  obtain ⟨r, hfind, hmask, -⟩ := encodes i hi
  rw [opRow_of_opcode _ c hc] at hfind
  rw [hfind] at hrow
  cases hrow
  exact ⟨hmask, encodeThenDecode i hi⟩

/-! How a command ends, from the equation that says what its meaning answers. -/

section endings

variable {s : State} {r : Result}

theorem completed_of_eq {u : State} {v : View} (h : r = complete u) (hout : s.SameOutsideView u) (hv : u.view = v) :
    ∃ t, r = .next t ∧ s.Completed t ∧ t.view = v := by
  rw [h]
  exact complete_view s u v hout hv

/-- A command that writes one register. -/
theorem completed_of_eq_setReg {rd : Reg} {x : Nat} (h : r = complete (s.setReg rd x)) :
    ∃ t, r = .next t ∧ s.Completed t ∧ t.view = s.view.put rd x :=
  completed_of_eq h (by simp) (s.setReg_view rd x)

theorem faulted_of_eq {c : Cause} (h : r = raise c s) :
    ∃ t, r = .next t ∧ s.Faulted c.info t ∧ t.view = s.view := by
  rw [h]
  exact raise_spec c s

end endings

/-! What ADD, SUB and MOVA answer: an equation per case (40_control_alu.md R106 to R108). -/

section commands

variable {s : State} {ra rb : Reg} (rd : Reg)

theorem exec_add_of_lt (h : s.reg ra + s.reg rb < 2 ^ s.k) :
    exec (.add rd ra rb) s = complete (s.setReg rd (s.reg ra + s.reg rb)) :=
  if_neg (not_le.2 h)

theorem exec_add_of_le (h : 2 ^ s.k ≤ s.reg ra + s.reg rb) : exec (.add rd ra rb) s = raise .overflow s :=
  if_pos h

theorem exec_sub_of_le (h : s.reg rb ≤ s.reg ra) :
    exec (.sub rd ra rb) s = complete (s.setReg rd (s.reg ra - s.reg rb)) :=
  if_neg (not_lt.2 h)

theorem exec_sub_of_lt (h : s.reg ra < s.reg rb) : exec (.sub rd ra rb) s = raise .underflow s :=
  if_pos h

theorem exec_mova_of_lt (h : s.acc < 2 ^ s.k) : exec (.mova rd) s = complete (s.setReg rd s.acc) :=
  if_neg (not_le.2 h)

theorem exec_mova_of_le (h : 2 ^ s.k ≤ s.acc) : exec (.mova rd) s = raise .overflow s :=
  if_pos h

end commands

/-! The writes of ZEROIZE and CMP, as the view sees them. -/

/-- Clearing every register (40_control_alu.md R101). -/
@[simp] theorem State.clearRegs_view (s : State) :
    ({ s with b := RegFile.zero } : State).view = { s.view with regs := fun _ => 0 } := by
  have hregs : ({ s with b := RegFile.zero } : State).reg = fun _ => 0 := funext RegFile.zero_get
  simp only [State.view, hregs]
  rfl

@[simp] theorem State.SameOutsideView.clearRegs (s u : State) :
    s.SameOutsideView { u with b := RegFile.zero } ↔ s.SameOutsideView u := Iff.rfl

/-- `RESULT` of CMP as a word (40_control_alu.md R104). -/
theorem ofNat_cmpCode (x y : Nat) :
    BitVec.ofNat 32 (cmpCode x y) = if x = y then 0#32 else if x < y then 1#32 else 2#32 := by
  unfold cmpCode
  split
  · rfl
  · split <;> rfl

/-! The obligations. -/

/-- Settles O14: NOP completes with nothing written, ZEROIZE with five writes. -/
theorem nopAndZeroizeComplete : Obligations.NopAndZeroizeComplete :=
  ⟨spells_of_opcode trivial rfl, spells_of_opcode trivial rfl, fun s =>
    ⟨complete_spec s s (.rfl s), completed_of_eq (r := exec .zeroize s) rfl (by simp) (by simp)⟩⟩

/-- Settles O15: each command writes one register. -/
theorem ldiAndMovComplete : Obligations.LdiAndMovComplete := fun rd ra imm20 s =>
  have hldi : exec (.ldi rd imm20) s = complete (s.setReg rd imm20) := rfl
  have hmov : exec (.mov rd ra) s = complete (s.setReg rd (s.reg ra)) := rfl
  ⟨fun himm =>
      ⟨spells_of_opcode himm (opcodeField_wordI _ _ _), completed_of_eq_setReg hldi⟩,
    spells_of_opcode trivial (opcodeField_wordR _ _ _ _ _), completed_of_eq_setReg hmov⟩

/-- Settles O16: CMP writes `T` and `RESULT`; BITLEN writes the length that `bitlen` bounds on both sides. -/
theorem cmpAndBitlenComplete : Obligations.CmpAndBitlenComplete := by
  intro ra rb s
  have hcmp : exec (.cmp ra rb) s =
      complete ((s.setT (cmpFlag (s.reg ra) (s.reg rb))).setResult (cmpCode (s.reg ra) (s.reg rb))) := rfl
  have hlen : exec (.bitlen ra) s = complete (s.setResult (bitlen (s.reg ra))) := rfl
  refine ⟨spells_of_opcode trivial (opcodeField_wordR _ _ _ _ _),
    spells_of_opcode trivial (opcodeField_wordR _ _ _ _ _),
    completed_of_eq hcmp (by simp) ?_, ?_⟩
  · rw [State.setResult_view, State.setT_view, ofNat_cmpCode, cmpFlag]
  · obtain ⟨t, hnext, hcompleted, hview⟩ :=
      completed_of_eq hlen (by simp : s.SameOutsideView _) (s.setResult_view _)
    exact ⟨t, bitlen (s.reg ra), hnext, hcompleted, hview, fun h0 => by rw [h0]; rfl,
      fun hpos => ⟨two_pow_bitlen_pred_le hpos, lt_two_pow_bitlen _⟩⟩

/-- Settles O17: each command's one check decides between the write of one register and the fault. -/
theorem addSubMovaAreExactOrFault : Obligations.AddSubMovaAreExactOrFault := fun rd _ _ _ =>
  ⟨spells_of_opcode trivial (opcodeField_wordR _ _ _ _ _),
    spells_of_opcode trivial (opcodeField_wordR _ _ _ _ _),
    spells_of_opcode trivial (opcodeField_wordR _ _ _ _ _),
    fun h => completed_of_eq_setReg (exec_add_of_lt rd h), fun h => faulted_of_eq (exec_add_of_le rd h),
    fun h => completed_of_eq_setReg (exec_sub_of_le rd h), fun h => faulted_of_eq (exec_sub_of_lt rd h),
    fun h => completed_of_eq_setReg (exec_mova_of_lt rd h), fun h => faulted_of_eq (exec_mova_of_le rd h)⟩

end Sys2Proof.Machine

/-! The statements of 41_multiplier_reducer.md: the full product, the residue, the modular power and inverse. -/

namespace Sys2Proof.Machine

/-! What the five commands answer: an equation per case (41_multiplier_reducer.md R120 to R125). -/

section commands

variable {s : State} {rm : Reg} (rd ra rb : Reg)

theorem exec_mul : exec (.mul ra rb) s = complete (s.setAcc (s.reg ra * s.reg rb)) := rfl

theorem exec_red_of_pos (hm : 0 < s.reg rm) :
    exec (.red rd rm) s = complete (s.setReg rd (s.acc % s.reg rm)) :=
  if_neg hm.ne'

theorem exec_red_of_zero (hm : s.reg rm = 0) : exec (.red rd rm) s = raise .modulusZero s :=
  if_pos hm

theorem exec_modmul_of_pos (hm : 0 < s.reg rm) :
    exec (.modmul rd ra rb rm) s =
      complete ((s.setAcc (s.reg ra * s.reg rb)).setReg rd (s.reg ra * s.reg rb % s.reg rm)) :=
  if_neg hm.ne'

theorem exec_modmul_of_zero (hm : s.reg rm = 0) : exec (.modmul rd ra rb rm) s = raise .modulusZero s :=
  if_pos hm

/-- The loop of R124 is the exact power of R123. -/
theorem exec_modexp_of_pos (hm : 0 < s.reg rm) :
    exec (.modexp rd ra rb rm) s = complete (s.setReg rd (s.reg ra ^ s.reg rb % s.reg rm)) := by
  rw [← powMod_eq]
  exact if_neg hm.ne'

theorem exec_modexp_of_zero (hm : s.reg rm = 0) : exec (.modexp rd ra rb rm) s = raise .modulusZero s :=
  if_pos hm

theorem exec_modinv_of_some {d : Nat} (hm : 0 < s.reg rm) (hd : invMod (s.reg ra) (s.reg rm) = some d) :
    exec (.modinv rd ra rm) s = complete (s.setReg rd d) := by
  refine (if_neg hm.ne').trans ?_
  rw [hd]

theorem exec_modinv_of_none (hm : 0 < s.reg rm) (hnone : invMod (s.reg ra) (s.reg rm) = none) :
    exec (.modinv rd ra rm) s = raise .noInverse s := by
  refine (if_neg hm.ne').trans ?_
  rw [hnone]

theorem exec_modinv_of_zero (hm : s.reg rm = 0) : exec (.modinv rd ra rm) s = raise .modulusZero s :=
  if_pos hm

end commands

/-! The inverse that the extended Euclid of R126 ends with. -/

/-- `invMod_none_iff` with the value reduced first, as 41_multiplier_reducer.md R125 takes the gcd. -/
theorem invMod_eq_none_iff_gcd_mod (a m : Nat) : invMod a m = none ↔ Nat.gcd (a % m) m ≠ 1 := by
  rw [invMod_none_iff, ← Nat.gcd_rec, Nat.gcd_comm]

/-- A value whose residue is prime to the modulus has an inverse, below the modulus (41_multiplier_reducer.md R125). -/
theorem exists_invMod_of_gcd_mod {a m : Nat} (hm : 0 < m) (h : Nat.gcd (a % m) m = 1) :
    ∃ d, invMod a m = some d ∧ d < m ∧ a % m * d % m = 1 % m := by
  have hne : invMod a m ≠ none := fun hnone => (invMod_eq_none_iff_gcd_mod a m).1 hnone h
  obtain ⟨d, hd⟩ := Option.ne_none_iff_exists'.1 hne
  obtain ⟨hlt, hmul⟩ := invMod_some a m d hm hd
  exact ⟨d, hd, hlt, by rwa [Nat.mod_mul_mod]⟩

/-- Two inverses of one value, both below the modulus, are the same: the value cancels. -/
theorem eq_of_mul_mod_eq_one_mod {a m x y : Nat} (h : Nat.gcd a m = 1) (hx : x < m) (hy : y < m)
    (hax : a * x % m = 1 % m) (hay : a * y % m = 1 % m) : x = y :=
  have hmul : a * x ≡ a * y [MOD m] := hax.trans hay.symm
  (hmul.cancel_left_of_coprime (Nat.gcd_comm a m ▸ h)).eq_of_lt_of_lt hx hy

/-! The registers of a view. -/

/-- The registers after a write, whatever else the view holds. -/
theorem View.put_regs (v : View) (r : Reg) (x : Nat) : (v.put r x).regs = Function.update v.regs r x :=
  funext fun q => (Function.update_apply v.regs r x q).symm

/-! The obligations. The last argument of `spells_of_opcode` is written out: its default is a tactic of this same text,
and each use of it holds a thread of the compile until all the text above is checked. -/

/-- Settles O18: MUL writes `ACC`; RED and MODMUL check the modulus, then write the residue. -/
theorem mulRedModmulCompleteOrFault : Obligations.MulRedModmulCompleteOrFault := fun rd ra rb _ s =>
  ⟨spells_of_opcode trivial (opcodeField_wordR _ _ _ _ _) rfl,
    spells_of_opcode trivial (opcodeField_wordR _ _ _ _ _) rfl,
    spells_of_opcode trivial (opcodeField_wordR _ _ _ _ _) rfl,
    completed_of_eq (exec_mul ra rb) (by simp) (State.setAcc_view s _),
    fun hm => ⟨completed_of_eq_setReg (exec_red_of_pos rd hm),
      completed_of_eq (exec_modmul_of_pos rd ra rb hm) (by simp) (State.setReg_view _ rd _)⟩,
    fun hm => ⟨faulted_of_eq (exec_red_of_zero rd hm), faulted_of_eq (exec_modmul_of_zero rd ra rb hm)⟩⟩

/-- Settles O19: what the loop computes is the residue of the power (`powMod_eq`). -/
theorem modexpIsTheResidueOfThePower : Obligations.ModexpIsTheResidueOfThePower := fun rd ra rb _ _ =>
  ⟨spells_of_opcode trivial (opcodeField_wordR _ _ _ _ _) rfl,
    fun hm => completed_of_eq_setReg (exec_modexp_of_pos rd ra rb hm),
    fun hm => faulted_of_eq (exec_modexp_of_zero rd ra rb hm)⟩

/-- Settles O20: the extended Euclid finds an inverse exactly when the gcd is 1, and cancellation makes it the
only one. -/
theorem modinvIsTheInverseOrFaults : Obligations.ModinvIsTheInverseOrFaults := by
  intro rd ra rm s
  refine ⟨spells_of_opcode trivial (opcodeField_wordR _ _ _ _ _) rfl, fun hm hgcd => ?_,
    fun hm hgcd => faulted_of_eq (exec_modinv_of_none rd ra hm ((invMod_eq_none_iff_gcd_mod _ _).2 hgcd)),
    fun hm => faulted_of_eq (exec_modinv_of_zero rd ra hm)⟩
  obtain ⟨d, hd, hlt, hinv⟩ := exists_invMod_of_gcd_mod hm hgcd
  obtain ⟨t, hnext, hcompleted, hview⟩ := completed_of_eq_setReg (exec_modinv_of_some rd ra hm hd)
  exact ⟨t, d, hnext, hcompleted, hview, hlt, hinv,
    fun x hx hxinv => eq_of_mul_mod_eq_one_mod hgcd hx hlt hxinv hinv⟩

/-- Settles O21: MUL retires with the product in `ACC` and the registers as they were, so RED reduces that product; and a
square is a power. -/
theorem modmulIsMulThenRed : Obligations.ModmulIsMulThenRed := by
  intro rd ra rb rm s hm
  refine ⟨⟨_, _, _, exec_modmul_of_pos rd ra rb hm, exec_mul ra rb, exec_red_of_pos rd hm, ?_⟩,
    fun h2 => ⟨_, _, exec_modexp_of_pos rd ra rb hm, exec_modmul_of_pos rd ra ra hm, ?_⟩⟩
  · simp
  · simp [h2, pow_two, View.put_regs]

end Sys2Proof.Machine

/-! The statements of 42_rng.md: one draw, the cycle of the generator, and what a fault of any command leaves of the state. -/

namespace Sys2Proof.Machine

/-! One draw. -/

/-- A draw as a number (42_rng.md R140). -/
theorem lcgNext_toNat (x : Seed) : (lcgNext x).toNat = (x.toNat * 1103515245 + 12345) % 2 ^ 31 := by
  simp only [lcgNext, Config.lcgA, Config.lcgC, Config.lcgM, BitVec.toNat_ofNat]
  omega

/-- Settles O22: RNGNEXT writes the one draw, as `lcgNext_toNat` gives it. The last argument of `spells_of_opcode` is
written out, as for O18. -/
theorem rngnextDrawsOnce : Obligations.RngnextDrawsOnce := by
  refine ⟨spells_of_opcode trivial rfl rfl, fun s => ?_⟩
  have hexec : exec .rngnext s = complete ((s.setSeed (lcgNext s.seed)).setResult (lcgNext s.seed).toNat) := rfl
  have hkept : s.SameOutsideView ((s.setSeed (lcgNext s.seed)).setResult (lcgNext s.seed).toNat) := by simp
  obtain ⟨t, hnext, hcompleted, hview⟩ := completed_of_eq hexec hkept rfl
  exact ⟨t, (lcgNext s.seed).toNat, lcgNext_toNat s.seed, hnext, hcompleted, by simpa using hview⟩

/-! The cycle of the generator. With `S j` the sum of the first `j` powers of the multiplier `a` and `c` the increment,
`j` draws move the state `x` by `S j * ((a - 1) * x + c)` modulo `2^31`. The second factor is odd, and as 4 divides `a - 1`
the sum `S j` holds as many factors of two as `j` does. -/

/-- A power of two divides the sum of the first `j` powers of `a` exactly when it divides `j`, for `a` other than 1 that
leaves 1 modulo 4: lifting the exponent in `a^j - 1`, which is the sum times `a - 1`. -/
theorem two_pow_dvd_geom_sum_iff {a : ℤ} (ha : 4 ∣ a - 1) (ha1 : a ≠ 1) (k j : ℕ) :
    2 ^ k ∣ ∑ i ∈ Finset.range j, a ^ i ↔ (2 : ℤ) ^ k ∣ j := by
  have hodd : ¬ (2 : ℤ) ∣ a := by omega
  have hfin : FiniteMultiplicity 2 (a - 1) := Int.finiteMultiplicity_iff.2 ⟨by decide, sub_ne_zero.2 ha1⟩
  have hsum : emultiplicity 2 (∑ i ∈ Finset.range j, a ^ i) = emultiplicity (2 : ℤ) j := by
    have hlift := Int.two_pow_sub_pow' (y := 1) j ha hodd
    rw [one_pow, ← geom_sum_mul, emultiplicity_mul Int.prime_two, add_comm] at hlift
    exact ENat.add_right_injective_of_ne_top (finiteMultiplicity_iff_emultiplicity_ne_top.1 hfin) hlift
  rw [pow_dvd_iff_le_emultiplicity, hsum, pow_dvd_iff_le_emultiplicity]

/-- How far `j` draws move the state `x`. -/
def drawOffset (x : Seed) (j : ℕ) : ℤ :=
  (∑ i ∈ Finset.range j, 1103515245 ^ i) * (1103515244 * x.toNat + 12345)

/-- One draw more takes the moved state to the next one. -/
theorem drawOffset_succ (x : Seed) (j : ℕ) :
    x.toNat + drawOffset x (j + 1) = (x.toNat + drawOffset x j) * 1103515245 + 12345 := by
  rw [drawOffset, drawOffset, geom_sum_succ]
  ring

/-- `j` draws move the state by the offset (42_rng.md R140). -/
theorem drawAfter_modEq (x : Seed) (j : ℕ) :
    ((drawAfter x j).toNat : ℤ) ≡ x.toNat + drawOffset x j [ZMOD 2 ^ 31] := by
  induction j with
  | zero => simp [drawAfter, drawOffset]
  | succ j ih =>
    have hdraw : ((drawAfter x (j + 1)).toNat : ℤ) ≡ (drawAfter x j).toNat * 1103515245 + 12345 [ZMOD 2 ^ 31] := by
      rw [drawAfter, lcgNext_toNat]
      push_cast
      exact Int.mod_modEq _ _
    rw [drawOffset_succ]
    exact hdraw.trans ((ih.mul_right _).add_right _)

/-- The second factor of the offset is odd, so the sum alone decides. -/
theorem two_pow_dvd_drawOffset_iff (x : Seed) (j : ℕ) : 2 ^ 31 ∣ drawOffset x j ↔ (2 : ℤ) ^ 31 ∣ j := by
  have hodd : Odd (1103515244 * (x.toNat : ℤ) + 12345) := by rw [Int.odd_iff]; omega
  have hcop : IsCoprime ((2 : ℤ) ^ 31) (1103515244 * x.toNat + 12345) :=
    (Int.isCoprime_two_left.2 hodd).pow_left
  rw [← two_pow_dvd_geom_sum_iff (a := 1103515245) (by norm_num) (by norm_num)]
  exact ⟨hcop.dvd_of_dvd_mul_right, fun h => h.mul_right _⟩

/-- Two states of the generator are the same when they are so modulo `2^31`. -/
theorem seed_eq_iff_modEq (x y : Seed) : x = y ↔ (x.toNat : ℤ) ≡ y.toNat [ZMOD 2 ^ 31] := by
  have hx := x.isLt
  have hy := y.isLt
  rw [← BitVec.toNat_inj, Int.ModEq]
  omega

/-- Settles O23: the state returns when the offset is 0 modulo `2^31`. -/
theorem drawsRunThroughOneFullCycle : Obligations.DrawsRunThroughOneFullCycle := by
  intro x j
  have hafter := drawAfter_modEq x j
  calc drawAfter x j = x ↔ ((drawAfter x j).toNat : ℤ) ≡ x.toNat [ZMOD 2 ^ 31] := seed_eq_iff_modEq _ _
    _ ↔ x.toNat + drawOffset x j ≡ x.toNat [ZMOD 2 ^ 31] := ⟨hafter.symm.trans, hafter.trans⟩
    _ ↔ 2 ^ 31 ∣ drawOffset x j := Int.add_modEq_left_iff
    _ ↔ (2 : ℤ) ^ 31 ∣ j := two_pow_dvd_drawOffset_iff x j
    _ ↔ 2 ^ 31 ∣ j := by norm_cast

/-! What a fault of any command leaves of the state. -/

/-- The faults after draws, which `SEED` keeps (42_rng.md R143, 60_exceptions.md R235). -/
def FaultKeepsDraws (i : Instr) (c : Cause) : Prop :=
  c = .primeSearch ∧ ((∃ rd b, i = .primegen rd b) ∨ ∃ bits, i = .keygen bits) ∨
  c = .noInverse ∧ ∃ bits, i = .keygen bits

/-- The ways a command ends: with writes inside the view, with a fault on the state of its issue, or with a fault that
keeps the draws made (30_encoding.md R86, 60_exceptions.md R233, R235). -/
inductive EndsPrecisely (s : State) (i : Instr) : Result → Prop
  | complete {u : State} (h : s.SameOutsideView u) : EndsPrecisely s i (complete u)
  | raise (c : Cause) : EndsPrecisely s i (raise c s)
  | raiseAfterDraws {c : Cause} (sd : Seed) (h : FaultKeepsDraws i c) : EndsPrecisely s i (raise c (s.setSeed sd))

namespace EndsPrecisely

variable {s : State} {i : Instr}

/-- A check of a command: where it fails the fault leaves the state of the issue, so only the rest is to be looked at. -/
theorem check {c : Cause} {p : Prop} [Decidable p] {r : Result} (hr : ¬ p → EndsPrecisely s i r) :
    EndsPrecisely s i (if p then Machine.raise c s else r) := by
  split
  · exact .raise c
  · exact hr ‹_›

/-- What such an end answers, in the terms of the statements. -/
theorem spec {r : Result} (h : EndsPrecisely s i r) :
    ∃ t, r = .next t ∧
      (s.Completed t ∨
        ∃ c : Cause, s.Faulted c.info t ∧ t.view = { s.view with seed := t.seed } ∧
          (t.seed = s.seed ∨ FaultKeepsDraws i c)) := by
  cases h with
  | complete h =>
    obtain ⟨t, hnext, hcompleted, -⟩ := complete_spec s _ h
    exact ⟨t, hnext, .inl hcompleted⟩
  | raise c =>
    obtain ⟨t, hnext, hfaulted, hview⟩ := raise_spec c s
    have hseed : t.seed = s.seed := congrArg View.seed hview
    exact ⟨t, hnext, .inr ⟨c, hfaulted, by rw [hview, hseed]; rfl, .inl hseed⟩⟩
  | raiseAfterDraws sd h =>
    obtain ⟨t, hnext, hfaulted, hview⟩ := raise_seed_spec _ s sd
    have hseed : t.seed = sd := congrArg View.seed hview
    exact ⟨t, hnext, .inr ⟨_, hfaulted, by rw [hview, hseed], .inr h⟩⟩

end EndsPrecisely

/-! The writes of EMBED and KEYGEN stay inside the view. -/

@[simp] theorem State.SameOutsideView.embedStream (s : State) (bits : List Bool) :
    s.SameOutsideView (s.embedStream bits) := State.SameOutsideView.rfl s

@[simp] theorem State.SameOutsideView.writeKey (s u : State) (d p tp q tq : Nat) :
    s.SameOutsideView (u.writeKey d p tp q tq) ↔ s.SameOutsideView u := by
  simp [State.writeKey]

section commands

variable (s : State)

theorem execModinv_endsPrecisely (rd ra rm : Reg) : EndsPrecisely s (.modinv rd ra rm) (execModinv rd ra rm s) :=
  .check fun _ => by
    cases invMod (s.reg ra) (s.reg rm) with
    | none => exact .raise _
    | some d => exact .complete (by simp)

/-- A search that finds nothing is PRIMEGEN's one fault after a draw (43_primality.md R161). -/
theorem execPrimegen_endsPrecisely (rd : Reg) (b : Nat) : EndsPrecisely s (.primegen rd b) (execPrimegen rd b s) :=
  .check fun _ => .check fun _ => by
    cases search s.tryLimit b s.roundCount 0 s.seed with
    | exhausted sd => exact .raiseAfterDraws sd (.inl ⟨rfl, .inl ⟨rd, b, rfl⟩⟩)
    | found c t sd => exact .complete (by simp)

/-- Either search or the inverse of the exponent may fail after draws (44_rsa.md R171). -/
theorem execKeygen_endsPrecisely (b : Nat) : EndsPrecisely s (.keygen b) (execKeygen b s) :=
  have hsearch : FaultKeepsDraws (.keygen b) .primeSearch := .inl ⟨rfl, .inr ⟨b, rfl⟩⟩
  have hinverse : FaultKeepsDraws (.keygen b) .noInverse := .inr ⟨rfl, b, rfl⟩
  .check fun _ => .check fun _ => by
    cases search s.tryLimit (b / 2) s.roundCount 0 s.seed with
    | exhausted sd => exact .raiseAfterDraws sd hsearch
    | found p tp sdp =>
      simp only
      cases search s.tryLimit (b / 2) s.roundCount 0 sdp with
      | exhausted sd => exact .raiseAfterDraws sd hsearch
      | found q tq sdq =>
        simp only
        cases invMod Config.eFixed ((p - 1) * (q - 1)) with
        | none => exact .raiseAfterDraws sdq hinverse
        | some d => exact .complete (by simp)

theorem execExtract_endsPrecisely : EndsPrecisely s .extract (execExtract s) :=
  .check fun _ => .check fun _ => .check fun _ => .check fun _ => by
    simp only
    cases findTerminator (s.lsbFrom 0 s.cap) 0 with
    | none => exact .complete (by simp)
    | some nb => exact .check fun _ => .complete (by simp)

/-- How a command ends, said once: through its checks in turn, then with its writes. That the writes
stay inside the view is the `simp` set of `State.SameOutsideView`. -/
theorem exec_endsPrecisely (i : Instr) : EndsPrecisely s i (exec i s) := by
  cases i with
  | nop => exact .complete (by simp)
  | zeroize => exact .complete (by simp)
  | ldi rd v => exact .complete (by simp)
  | mov rd ra => exact .complete (by simp)
  | cmp ra rb => exact .complete (by simp)
  | bitlen ra => exact .complete (by simp)
  | add rd ra rb => exact .check fun _ => .complete (by simp)
  | sub rd ra rb => exact .check fun _ => .complete (by simp)
  | mova rd => exact .check fun _ => .complete (by simp)
  | mul ra rb => exact .complete (by simp)
  | red rd rm => exact .check fun _ => .complete (by simp)
  | modmul rd ra rb rm => exact .check fun _ => .complete (by simp)
  | modexp rd ra rb rm => exact .check fun _ => .complete (by simp)
  | modinv rd ra rm => exact execModinv_endsPrecisely s rd ra rm
  | rngnext => exact .complete (by simp)
  | mrwit ra rm => exact .check fun _ => .check fun _ => .complete (by simp)
  | mrtest rm => exact .check fun _ => .complete (by simp)
  | primecand rd b => exact .check fun _ => .complete (by simp)
  | primegen rd b => exact execPrimegen_endsPrecisely s rd b
  | keygen b => exact execKeygen_endsPrecisely s b
  | rsaenc rd rb rm => exact .check fun _ => .check fun _ => .complete (by simp)
  | rsadec ra rb rm => exact .check fun _ => .check fun _ => .check fun _ => .check fun _ => .complete (by simp)
  | embed => exact .check fun _ => .check fun _ => .check fun _ => .check fun _ => .check fun _ => .complete (by simp)
  | extract => exact execExtract_endsPrecisely s
  | ldf rd => exact .check fun _ => .check fun _ => .complete (by simp)
  | stf ra => exact .check fun _ => .check fun _ => .complete (by simp)
  | pack ra rb => exact .check fun _ => .check fun _ => .complete (by simp)
  | unpack rd rb => exact .check fun _ => .check fun _ => .check fun _ => .complete (by simp)
  | ldm rd => exact .check fun _ => .check fun _ => .complete (by simp)
  | stm ra => exact .check fun _ => .check fun _ => .complete (by simp)

end commands

/-- Settles O44: every command ends in one of the three ways. -/
theorem faultsArePrecise : Obligations.FaultsArePrecise := fun i s => (exec_endsPrecisely s i).spec

end Sys2Proof.Machine

/-! The statements of 43_primality.md: one Miller-Rabin round, the test, the candidate and the prime search. -/

namespace Sys2Proof.Machine

/-- The round count is 0 exactly when the register `ROUNDS` is (10_state.md R37). -/
theorem State.roundCount_eq_zero_iff (s : State) : s.roundCount = 0 ↔ s.rounds = 0#32 :=
  BitVec.toNat_inj (y := 0#32)

/-! The test: an equation per case of 43_primality.md R151 to R155. -/

section test

variable {k n : Nat} {seed : Seed}

/-- A small or even number that is no prime fails without a draw (43_primality.md R151). -/
theorem millerRabin_of_le_one_or_even (h : n ≤ 1 ∨ n % 2 = 0 ∧ n ≠ 2) :
    millerRabin k n seed = { prime := false, draws := 0, seed := seed } := by
  unfold millerRabin
  split
  · rfl
  · rw [if_neg (by omega), if_pos (by omega)]

/-- The two small primes pass without a draw (43_primality.md R151). -/
theorem millerRabin_of_two_or_three (h : n = 2 ∨ n = 3) :
    millerRabin k n seed = { prime := true, draws := 0, seed := seed } := by
  unfold millerRabin
  rw [if_neg (by omega), if_pos h]

/-- Any other number goes through the rounds (43_primality.md R155). -/
theorem millerRabin_of_odd (h3 : 3 < n) (hodd : n % 2 = 1) : millerRabin k n seed = runRounds k n 0 seed := by
  unfold millerRabin
  rw [if_neg (by omega), if_neg (by omega), if_neg (by omega)]

/-- Every round passes: the verdict is prime after all the draws (43_primality.md R155). -/
theorem millerRabin_of_rounds_pass (h3 : 3 < n) (hodd : n % 2 = 1)
    (h : ∀ j, j < k → StrongProbablePrime n (witnessOf n (drawAfter seed (j + 1)))) :
    millerRabin k n seed = { prime := true, draws := k, seed := drawAfter seed k } := by
  rw [millerRabin_of_odd h3 hodd, runRounds_pass k n 0 seed fun j hj => (roundPasses_iff n _ h3 hodd).2 (h j hj),
    Nat.zero_add]

/-- Round `j + 1` is the first that fails: the test ends there (43_primality.md R155). -/
theorem millerRabin_of_first_failure {j : Nat} (h3 : 3 < n) (hodd : n % 2 = 1) (hj : j < k)
    (hpass : ∀ i, i < j → StrongProbablePrime n (witnessOf n (drawAfter seed (i + 1))))
    (hfail : ¬ StrongProbablePrime n (witnessOf n (drawAfter seed (j + 1)))) :
    millerRabin k n seed = { prime := false, draws := j + 1, seed := drawAfter seed (j + 1) } := by
  rw [← roundPasses_iff n _ h3 hodd] at hfail
  rw [millerRabin_of_odd h3 hodd,
    runRounds_fail k n 0 seed j hj (fun i hi => (roundPasses_iff n _ h3 hodd).2 (hpass i hi)) hfail, Nat.zero_add]

/-- A prime above 3 passes every round (43_primality.md R162 c). -/
theorem millerRabin_of_prime (hp : n.Prime) (h3 : 3 < n) :
    millerRabin k n seed = { prime := true, draws := k, seed := drawAfter seed k } := by
  have hodd : n % 2 = 1 := hp.eq_two_or_odd.resolve_left (by omega)
  refine millerRabin_of_rounds_pass h3 hodd fun j _ => ?_
  obtain ⟨hlow, hhigh⟩ := witnessOf_range n (drawAfter seed (j + 1)) h3
  exact strongProbablePrime_of_prime n _ hp h3 hlow hhigh

end test

/-! The candidate (43_primality.md R158). -/

/-- Above 31 bits the draw stands below the top bit unreduced. -/
theorem candidateOf_of_gt_31 {b : Nat} (hb : 31 < b) (x : Seed) :
    candidateOf b x = 2 ^ (b - 1) + (x.toNat ||| 1) := by
  have hlow : x.toNat ||| 1 < 2 ^ (b - 1) :=
    calc x.toNat ||| 1 < 2 ^ 31 := Nat.or_lt_two_pow x.isLt (by norm_num)
      _ ≤ 2 ^ (b - 1) := Nat.pow_le_pow_right (by norm_num) (by omega)
  have hmod : x.toNat % 2 ^ b = x.toNat :=
    Nat.mod_eq_of_lt (x.isLt.trans (Nat.pow_lt_pow_right (by norm_num) hb))
  calc candidateOf b x = 2 ^ (b - 1) ||| (x.toNat ||| 1) := by
        rw [candidateOf, hmod, Nat.or_comm x.toNat, Nat.or_assoc]
    _ = 2 ^ (b - 1) + (x.toNat ||| 1) := by
        simpa using (Nat.two_pow_add_eq_or_of_lt hlow 1).symm

/-- Two bits, the top one and the low one set. -/
theorem candidateOf_two (x : Seed) : candidateOf 2 x = 3 := by
  obtain ⟨hodd, hlow, hhigh⟩ := candidateOf_spec 2 x (by norm_num)
  omega

/-- Three bits, the top one and the low one set. -/
theorem candidateOf_three (x : Seed) : candidateOf 3 x = 5 ∨ candidateOf 3 x = 7 := by
  obtain ⟨hodd, hlow, hhigh⟩ := candidateOf_spec 3 x (by norm_num)
  omega

/-! The search (43_primality.md R160). -/

section search

variable {limit b k : Nat} {seed : Seed}

/-- What a search finds has the bit length asked for and is odd. -/
theorem SearchFinds.candidate_spec {c t : Nat} {sd : Seed} (h : SearchFinds limit b k seed c t sd) (hb : 2 ≤ b) :
    2 ^ (b - 1) ≤ c ∧ c < 2 ^ b ∧ c % 2 = 1 := by
  obtain ⟨-, -, -, -, rfl, -⟩ := h
  obtain ⟨hodd, hlow, hhigh⟩ := candidateOf_spec b (lcgNext (seedAfterAttempts b k seed (t - 1))) hb
  exact ⟨hlow, hhigh, hodd⟩

/-- A search whose first candidate is a prime ends with it, since the test rejects no prime (43_primality.md R162 c). -/
theorem searchFinds_of_first_prime (hlimit : 1 ≤ limit) (hp : (candidateOf b (lcgNext seed)).Prime) :
    SearchFinds limit b k seed (candidateOf b (lcgNext seed)) 1 (seedAfterAttempt b k seed) :=
  ⟨le_rfl, hlimit, fun _ hj => absurd hj (Nat.not_lt_zero _), millerRabin_prime k _ _ hp, rfl, rfl⟩

/-- The ceiling admits at least one attempt. -/
theorem State.one_le_tryLimit (s : State) : 1 ≤ s.tryLimit := by
  unfold State.tryLimit
  split <;> omega

end search

/-! What the four commands answer: an equation per case (43_primality.md R156, R157, R159, R161). -/

section commands

variable {s : State} {rm ra rd : Reg} {b : Nat}

theorem exec_mrwit_of_range (h3 : 3 < s.reg rm) (hodd : s.reg rm % 2 = 1) (hlow : 2 ≤ s.reg ra)
    (hhigh : s.reg ra ≤ s.reg rm - 1) :
    exec (.mrwit ra rm) s = complete (s.setVerdict (roundPasses (s.reg rm) (s.reg ra))) :=
  (if_neg (by omega)).trans (if_neg (by omega))

/-- Either check that fails gives the one fault. -/
theorem exec_mrwit_of_not_range
    (h : s.reg rm ≤ 3 ∨ s.reg rm % 2 = 0 ∨ s.reg ra < 2 ∨ s.reg rm - 1 < s.reg ra) :
    exec (.mrwit ra rm) s = raise .param s := by
  by_cases hn : s.reg rm ≤ 3 ∨ s.reg rm % 2 = 0
  · exact if_pos hn
  · exact (if_neg hn).trans (if_pos (by omega))

theorem exec_mrtest_of_zero (h : s.rounds = 0#32) : exec (.mrtest rm) s = raise .param s :=
  if_pos (s.roundCount_eq_zero_iff.2 h)

theorem exec_mrtest_of_ne_zero {v : Verdict} (h : s.rounds ≠ 0#32)
    (hv : millerRabin s.rounds.toNat (s.reg rm) s.seed = v) :
    exec (.mrtest rm) s = complete (((s.setSeed v.seed).setVerdict v.prime).setAux v.draws) := by
  subst hv
  exact if_neg (mt s.roundCount_eq_zero_iff.1 h)

theorem exec_primecand_of_range (h2 : 2 ≤ b) (hk : b ≤ s.k) :
    exec (.primecand rd b) s =
      complete (((s.setSeed (lcgNext s.seed)).setReg rd (candidateOf b (lcgNext s.seed))).setResult
        (lcgNext s.seed).toNat) :=
  if_neg (by omega)

theorem exec_primecand_of_not_range (h : b < 2 ∨ s.k < b) : exec (.primecand rd b) s = raise .param s :=
  if_pos h

theorem exec_primegen_of_finds {c n : Nat} {sd : Seed} (h2 : 2 ≤ b) (hk : b ≤ s.k) (h : s.rounds ≠ 0#32)
    (hf : SearchFinds s.tryLimit b s.rounds.toNat s.seed c n sd) :
    exec (.primegen rd b) s = complete (((s.setSeed sd).setReg rd c).setResult n) := by
  refine (if_neg (by omega)).trans ((if_neg (mt s.roundCount_eq_zero_iff.1 h)).trans ?_)
  rw [State.roundCount, search_found_of hf]

theorem exec_primegen_of_fails {sd : Seed} (h2 : 2 ≤ b) (hk : b ≤ s.k) (h : s.rounds ≠ 0#32)
    (hf : SearchFails s.tryLimit b s.rounds.toNat s.seed sd) :
    exec (.primegen rd b) s = raise .primeSearch (s.setSeed sd) := by
  refine (if_neg (by omega)).trans ((if_neg (mt s.roundCount_eq_zero_iff.1 h)).trans ?_)
  rw [State.roundCount, search_exhausted_of hf]

/-- Either check that fails gives the one fault, before a draw. -/
theorem exec_primegen_of_not_range (h : b < 2 ∨ s.k < b ∨ s.rounds = 0#32) :
    exec (.primegen rd b) s = raise .param s := by
  by_cases hb : b < 2 ∨ s.k < b
  · exact if_pos hb
  · have h0 : s.rounds = 0#32 := (or_assoc.2 h).resolve_left hb
    exact (if_neg hb).trans (if_pos (s.roundCount_eq_zero_iff.2 h0))

end commands

/-! How a success ends, in the terms of the statements. -/

section endings

variable {s : State} {rm ra rd : Reg} {b : Nat}

theorem mrwit_completes {v : Bool} (h3 : 3 < s.reg rm) (hodd : s.reg rm % 2 = 1) (hlow : 2 ≤ s.reg ra)
    (hhigh : s.reg ra ≤ s.reg rm - 1) (hv : roundPasses (s.reg rm) (s.reg ra) = v) :
    ∃ t, exec (.mrwit ra rm) s = .next t ∧ s.Completed t ∧
      t.view = { s.view with t := v, result := BitVec.ofNat 32 (bit v) } := by
  subst hv
  exact completed_of_eq (exec_mrwit_of_range h3 hodd hlow hhigh) (by simp) (s.setVerdict_view _)

theorem mrtest_completes {v : Verdict} (h : s.rounds ≠ 0#32)
    (hv : millerRabin s.rounds.toNat (s.reg rm) s.seed = v) :
    ∃ t, exec (.mrtest rm) s = .next t ∧ s.Completed t ∧
      t.view = { s.view with
        seed := v.seed, t := v.prime, result := BitVec.ofNat 32 (bit v.prime), aux := BitVec.ofNat 32 v.draws } :=
  completed_of_eq (exec_mrtest_of_ne_zero h hv) (by simp) (by simp)

theorem primecand_completes (h2 : 2 ≤ b) (hk : b ≤ s.k) :
    ∃ t, exec (.primecand rd b) s = .next t ∧ s.Completed t ∧
      t.view = { s.view.put rd (candidateOf b (lcgNext s.seed)) with
        seed := lcgNext s.seed, result := BitVec.ofNat 32 (lcgNext s.seed).toNat } :=
  completed_of_eq (exec_primecand_of_range h2 hk) (by simp) (by simp [View.put])

theorem primegen_completes {c n : Nat} {sd : Seed} (h2 : 2 ≤ b) (hk : b ≤ s.k) (h : s.rounds ≠ 0#32)
    (hf : SearchFinds s.tryLimit b s.rounds.toNat s.seed c n sd) :
    ∃ t, exec (.primegen rd b) s = .next t ∧ s.Completed t ∧
      t.view = { s.view.put rd c with seed := sd, result := BitVec.ofNat 32 n } :=
  completed_of_eq (exec_primegen_of_finds h2 hk h hf) (by simp) (by simp [View.put])

/-- PRIMEGEN whose first candidate is a prime: one attempt. -/
theorem primegen_completes_of_first_prime {c : Nat} (h2 : 2 ≤ b) (hk : b ≤ s.k) (h : s.rounds ≠ 0#32)
    (hc : candidateOf b (lcgNext s.seed) = c) (hp : c.Prime) :
    ∃ t, exec (.primegen rd b) s = .next t ∧ s.Completed t ∧
      t.view = { s.view.put rd c with
        seed := (millerRabin s.rounds.toNat c (lcgNext s.seed)).seed, result := 1#32 } := by
  subst hc
  exact primegen_completes h2 hk h (searchFinds_of_first_prime s.one_le_tryLimit hp)

end endings

/-! The obligations. The last argument of `spells_of_opcode` is written out, as for O18. -/

/-- Settles O24: past the two checks the round passes exactly for a base as R154 describes it (`roundPasses_iff`). -/
theorem mrwitGivesTheRoundOrFaults : Obligations.MrwitGivesTheRoundOrFaults := by
  intro ra rm s
  refine ⟨spells_of_opcode trivial (opcodeField_wordR _ _ _ _ _) rfl, fun h3 hodd hlow hhigh => ?_,
    fun h => faulted_of_eq (exec_mrwit_of_not_range h)⟩
  rw [← roundPasses_iff _ _ h3 hodd]
  exact ⟨fun hpass => mrwit_completes h3 hodd hlow hhigh hpass,
    fun hfail => mrwit_completes h3 hodd hlow hhigh (Bool.eq_false_of_not_eq_true hfail)⟩

/-- Settles O25: the verdict of the test in each of its cases, written to `SEED`, `T`, `RESULT` and `AUX`. -/
theorem mrtestRunsTheRounds : Obligations.MrtestRunsTheRounds := by
  intro rm s
  refine ⟨spells_of_opcode trivial (opcodeField_wordR _ _ _ _ _) rfl,
    fun h0 => faulted_of_eq (exec_mrtest_of_zero h0),
    fun h => ⟨fun hn => mrtest_completes h (millerRabin_of_le_one_or_even hn),
      fun hn => mrtest_completes h (millerRabin_of_two_or_three hn),
      fun h3 hodd => ⟨fun hpass => ?_, fun j hj hpass hfail => ?_⟩⟩⟩
  · simpa [bit] using mrtest_completes h (millerRabin_of_rounds_pass h3 hodd hpass)
  · exact mrtest_completes h (millerRabin_of_first_failure h3 hodd hj hpass hfail)

/-- Settles O26: the test rejects no prime, by Fermat and since 1 has no square roots but 1 and -1 modulo a prime
(`millerRabin_prime`). -/
theorem mrtestNeverRejectsAPrime : Obligations.MrtestNeverRejectsAPrime := by
  intro rm s hp h
  obtain ⟨t, hnext, hcompleted, hview⟩ := mrtest_completes (s := s) (rm := rm) h rfl
  rw [millerRabin_prime _ _ _ hp] at hview
  exact ⟨t, hnext, hcompleted, congrArg View.t hview, congrArg View.result hview⟩

/-- Settles O27: the candidate's bounds and its two shapes are lemmas about `candidateOf`. -/
theorem primecandDrawsOneCandidate : Obligations.PrimecandDrawsOneCandidate := by
  intro rd b s
  refine ⟨fun himm => spells_of_opcode himm (opcodeField_wordI _ _ _) rfl, fun h2 hk => ?_,
    fun h => faulted_of_eq (exec_primecand_of_not_range h)⟩
  obtain ⟨hodd, hlow, hhigh⟩ := candidateOf_spec b (lcgNext s.seed) h2
  obtain ⟨t, hnext, hcompleted, hview⟩ := primecand_completes (rd := rd) h2 hk
  exact ⟨t, _, candidateOf b (lcgNext s.seed), rfl, rfl, hnext, hcompleted, hview, hlow, hhigh, hodd,
    fun hb => candidateOf_of_gt_31 hb _, fun hb => hb ▸ candidateOf_two _⟩

/-- Settles O28: PRIMEGEN answers what its search finds, or that it finds nothing. -/
theorem primegenFindsOrReportsExhaustion : Obligations.PrimegenFindsOrReportsExhaustion := by
  intro rd b s
  refine ⟨fun himm => spells_of_opcode himm (opcodeField_wordI _ _ _) rfl, fun h2 hk h => ⟨fun c n sd hf => ?_,
    fun sd hf => ?_⟩, fun h => faulted_of_eq (exec_primegen_of_not_range h)⟩
  · obtain ⟨hlow, hhigh, hodd⟩ := hf.candidate_spec h2
    exact ⟨hlow, hhigh, hodd, primegen_completes h2 hk h hf⟩
  · rw [exec_primegen_of_fails h2 hk h hf]
    exact raise_seed_spec .primeSearch s sd

/-- Settles O29: the one candidate of two bits and both of three bits are primes, so the first attempt ends the search;
3 takes no round, 5 and 7 take them all. -/
theorem primegenOfTwoOrThreeBits : Obligations.PrimegenOfTwoOrThreeBits := by
  intro rd s hk h
  constructor
  · have htwo := primegen_completes_of_first_prime (rd := rd) le_rfl (by omega) h (candidateOf_two _) Nat.prime_three
    rwa [millerRabin_of_two_or_three (.inr rfl)] at htwo
  · have hc := candidateOf_three (lcgNext s.seed)
    generalize hcand : candidateOf 3 (lcgNext s.seed) = c at hc
    have hp : c.Prime := by rcases hc with rfl | rfl <;> norm_num
    obtain ⟨t, hnext, hcompleted, hview⟩ := primegen_completes_of_first_prime (rd := rd) (by norm_num) hk h hcand hp
    rw [millerRabin_of_prime hp (by omega), ← drawAfter_succ] at hview
    exact ⟨t, c, hnext, hcompleted, hc, hview⟩

end Sys2Proof.Machine

/-! The statements of 44_rsa.md: key generation, encryption, decryption and the round trip. -/

namespace Sys2Proof.Machine

/-! KEYGEN: what it ends in is a function of the register width, `SEED`, `ROUNDS` and `MAXTRY`. -/

/-- How KEYGEN ends: a fault, or the key with the attempts of both searches; and the generator's state after the last
draw (44_rsa.md R171). -/
inductive KeyOutcome where
  | fault (c : Cause) (sd : Seed)
  | key (d p tp q tq : Nat) (sd : Seed)

/-- The key of two primes found, or the missing inverse (44_rsa.md R171). -/
def keyOfPrimes (p tp q tq : Nat) (sd : Seed) : KeyOutcome :=
  match invMod Config.eFixed ((p - 1) * (q - 1)) with
  | none => .fault .noInverse sd
  | some d => .key d p tp q tq sd

/-- The outcome of KEYGEN on registers of `width` bits, with at most `limit` attempts a search and `k` rounds a test
(44_rsa.md R171). -/
def keyOutcome (width limit k bits : Nat) (seed : Seed) : KeyOutcome :=
  if bits / 2 < 2 ∨ width / 2 < bits / 2 then .fault .param seed
  else if k = 0 then .fault .param seed
  else
    match search limit (bits / 2) k 0 seed with
    | .exhausted sd => .fault .primeSearch sd
    | .found p tp sp =>
      match search limit (bits / 2) k 0 sp with
      | .exhausted sd => .fault .primeSearch sd
      | .found q tq sq => keyOfPrimes p tp q tq sq

/-- What the engine answers to an outcome. -/
def KeyOutcome.answer (o : KeyOutcome) (s : State) : Result :=
  match o with
  | .fault c sd => raise c (s.setSeed sd)
  | .key d p tp q tq sd => complete ((s.setSeed sd).writeKey d p tp q tq)

/-- KEYGEN answers its outcome, which takes no more of the state than the rule names (44_rsa.md R171, R175). -/
theorem exec_keygen (bits : Nat) (s : State) :
    exec (.keygen bits) s = (keyOutcome s.k s.tryLimit s.roundCount bits s.seed).answer s := by
  rw [exec, execKeygen, keyOutcome]
  split
  · rfl
  split
  · rfl
  cases search s.tryLimit (bits / 2) s.roundCount 0 s.seed with
  | exhausted sd => rfl
  | found p tp sp =>
    simp only
    cases search s.tryLimit (bits / 2) s.roundCount 0 sp with
    | exhausted sd => rfl
    | found q tq sq =>
      simp only [keyOfPrimes]
      cases invMod Config.eFixed ((p - 1) * (q - 1)) <;> rfl

/-! The outcome: an equation per case (44_rsa.md R171). -/

section outcome

variable {width limit k bits p tp q tq : Nat} {seed sp sq sd : Seed}

/-- Either check that fails gives the one fault, before a draw. -/
theorem keyOutcome_of_not_range (h : bits / 2 < 2 ∨ width / 2 < bits / 2 ∨ k = 0) :
    keyOutcome width limit k bits seed = .fault .param seed := by
  by_cases hb : bits / 2 < 2 ∨ width / 2 < bits / 2
  · exact if_pos hb
  · exact (if_neg hb).trans (if_pos ((or_assoc.2 h).resolve_left hb))

/-- The inverse is missing exactly when 65537, a prime, divides `p - 1` or `q - 1`. -/
theorem invMod_eFixed_eq_none_iff (p q : Nat) :
    invMod Config.eFixed ((p - 1) * (q - 1)) = none ↔ 65537 ∣ p - 1 ∨ 65537 ∣ q - 1 := by
  have hprime : Nat.Prime 65537 := by norm_num
  rw [invMod_none_iff, ← hprime.dvd_mul, not_iff_comm]
  exact (hprime.coprime_iff_not_dvd).symm

theorem keyOfPrimes_of_dvd (h : 65537 ∣ p - 1 ∨ 65537 ∣ q - 1) :
    keyOfPrimes p tp q tq sd = .fault .noInverse sd := by
  rw [keyOfPrimes, (invMod_eFixed_eq_none_iff p q).2 h]

/-- With an inverse there is a key, and its `d` is that inverse (41_multiplier_reducer.md R125). -/
theorem exists_keyOfPrimes (hp : 2 ≤ p) (hq : 2 ≤ q) (hdvd : ¬ 65537 ∣ p - 1) (hdvd' : ¬ 65537 ∣ q - 1) :
    ∃ d, keyOfPrimes p tp q tq sd = .key d p tp q tq sd ∧ d < (p - 1) * (q - 1) ∧
      65537 * d % ((p - 1) * (q - 1)) = 1 % ((p - 1) * (q - 1)) := by
  have hne : invMod Config.eFixed ((p - 1) * (q - 1)) ≠ none :=
    mt (invMod_eFixed_eq_none_iff p q).1 (not_or.2 ⟨hdvd, hdvd'⟩)
  obtain ⟨d, hd⟩ := Option.ne_none_iff_exists'.1 hne
  have hphi : 0 < (p - 1) * (q - 1) := Nat.mul_pos (Nat.sub_pos_of_lt hp) (Nat.sub_pos_of_lt hq)
  exact ⟨d, by rw [keyOfPrimes, hd], invMod_some _ _ d hphi hd⟩

variable (h2 : 2 ≤ bits / 2) (hw : bits / 2 ≤ width / 2) (hk : k ≠ 0)
include h2 hw hk

theorem keyOutcome_of_first_fails (hf : SearchFails limit (bits / 2) k seed sd) :
    keyOutcome width limit k bits seed = .fault .primeSearch sd := by
  rw [keyOutcome, if_neg (by omega), if_neg hk, search_exhausted_of hf]

variable (hp : SearchFinds limit (bits / 2) k seed p tp sp)
include hp

theorem keyOutcome_of_second_fails (hf : SearchFails limit (bits / 2) k sp sd) :
    keyOutcome width limit k bits seed = .fault .primeSearch sd := by
  rw [keyOutcome, if_neg (by omega), if_neg hk, search_found_of hp]
  simp only
  rw [search_exhausted_of hf]

theorem keyOutcome_of_finds (hq : SearchFinds limit (bits / 2) k sp q tq sq) :
    keyOutcome width limit k bits seed = keyOfPrimes p tp q tq sq := by
  rw [keyOutcome, if_neg (by omega), if_neg hk, search_found_of hp]
  simp only
  rw [search_found_of hq]

end outcome

/-! The bit length of the modulus (44_rsa.md R171). -/

section modulus

variable {b p q : Nat}

theorem mul_lt_two_pow (hp : p < 2 ^ b) (hq : q < 2 ^ b) : p * q < 2 ^ (2 * b) := by
  rw [two_mul, pow_add]
  exact Nat.mul_lt_mul'' hp hq

/-- A product of two numbers of `b` bits has `2b - 1` or `2b` bits. -/
theorem bitlen_mul (hb : 1 ≤ b) (hp : 2 ^ (b - 1) ≤ p) (hq : 2 ^ (b - 1) ≤ q) (hp' : p < 2 ^ b) (hq' : q < 2 ^ b) :
    bitlen (p * q) = 2 * b - 1 ∨ bitlen (p * q) = 2 * b := by
  have hlow : 2 ^ (2 * b - 2) ≤ p * q :=
    calc 2 ^ (2 * b - 2) = 2 ^ (b - 1) * 2 ^ (b - 1) := by rw [← pow_add]; congr 1; omega
      _ ≤ p * q := Nat.mul_le_mul hp hq
  have hgt := (lt_bitlen_iff _ _).2 hlow
  have hle := (bitlen_le_iff _ _).2 (mul_lt_two_pow hp' hq')
  omega

/-- From 34 bits on a candidate is below 1.25 times its top bit: the bits between bit 31 and the top are 0
(43_primality.md R158). -/
theorem SearchFinds.candidate_lt {limit k t : Nat} {seed sd : Seed} (h : SearchFinds limit b k seed p t sd)
    (hb : 34 ≤ b) : p < 5 * 2 ^ (b - 3) := by
  obtain ⟨-, -, -, -, rfl, -⟩ := h
  rw [attemptCandidate, candidateOf_of_gt_31 (by omega)]
  have hdraw := Nat.or_lt_two_pow (lcgNext (seedAfterAttempts b k seed (t - 1))).isLt (y := 1) (by norm_num)
  have hpow : 2 ^ 31 ≤ 2 ^ (b - 3) := Nat.pow_le_pow_right (by norm_num) (by omega)
  have htop : 2 ^ (b - 1) = 4 * 2 ^ (b - 3) := by
    rw [show b - 1 = 2 + (b - 3) by omega, pow_add]; norm_num
  omega

/-- Two such candidates: the square of 1.25 is below 2. -/
theorem mul_lt_two_pow_pred (hb : 3 ≤ b) (hp : p < 5 * 2 ^ (b - 3)) (hq : q < 5 * 2 ^ (b - 3)) :
    p * q < 2 ^ (2 * b - 1) :=
  calc p * q < 5 * 2 ^ (b - 3) * (5 * 2 ^ (b - 3)) := Nat.mul_lt_mul'' hp hq
    _ = 25 * 2 ^ (2 * (b - 3)) := by rw [two_mul, pow_add]; ring
    _ ≤ 2 ^ 5 * 2 ^ (2 * (b - 3)) := Nat.mul_le_mul_right _ (by norm_num)
    _ = 2 ^ (2 * b - 1) := by rw [← pow_add]; congr 1; omega

end modulus

/-! What an outcome leaves of the state. -/

/-- The writes of KEYGEN, as the view sees them (44_rsa.md R171). -/
@[simp] theorem State.writeKey_view (s : State) (d p tp q tq : Nat) :
    (s.writeKey d p tp q tq).view =
      { (((((s.view.put .b0 65537).put .b1 d).put .b2 (p * q)).put .b3 p).put .b4 q).put .b5 ((p - 1) * (q - 1)) with
        result := BitVec.ofNat 32 tp, aux := BitVec.ofNat 32 tq } := by
  simp [State.writeKey, Config.eFixed]

/-- The registers a key fills hold nothing of what stood in them before. -/
theorem State.writeKey_reg_congr (s u : State) (d p tp q tq : Nat) {r : Reg} (h6 : r ≠ .b6) (h7 : r ≠ .b7) :
    (s.writeKey d p tp q tq).reg r = (u.writeKey d p tp q tq).reg r := by
  cases r with
  | b6 => exact absurd rfl h6
  | b7 => exact absurd rfl h7
  | b0 | b1 | b2 | b3 | b4 | b5 => rfl

/-- Two engines that meet one outcome end alike (44_rsa.md R175). -/
theorem KeyOutcome.answer_agrees (o : KeyOutcome) (s u : State) :
    ∃ t v, o.answer s = .next t ∧ o.answer u = .next v ∧ t.seed = v.seed ∧
      ((∃ code, s.Faulted code t ∧ u.Faulted code v ∧
          t.view = { s.view with seed := t.seed } ∧ v.view = { u.view with seed := t.seed }) ∨
        (s.Completed t ∧ u.Completed v ∧ t.result = v.result ∧ t.aux = v.aux ∧
          ∀ r, r ≠ .b6 → r ≠ .b7 → t.reg r = v.reg r)) := by
  cases o with
  | fault c sd =>
    obtain ⟨t, hs, hfs, hvs⟩ := raise_seed_spec c s sd
    obtain ⟨v, hu, hfu, hvu⟩ := raise_seed_spec c u sd
    have ht : t.seed = sd := congrArg View.seed hvs
    have hv : v.seed = sd := congrArg View.seed hvu
    exact ⟨t, v, hs, hu, ht.trans hv.symm, .inl ⟨c.info, hfs, hfu, by rw [hvs, ht], by rw [hvu, ht]⟩⟩
  | key d p tp q tq sd =>
    obtain ⟨t, hs, hcs, hvs⟩ := complete_spec s ((s.setSeed sd).writeKey d p tp q tq) (by simp)
    obtain ⟨v, hu, hcu, hvu⟩ := complete_spec u ((u.setSeed sd).writeKey d p tp q tq) (by simp)
    have hregs : ∀ r, r ≠ .b6 → r ≠ .b7 → t.reg r = v.reg r := fun r h6 h7 =>
      calc t.reg r = ((s.setSeed sd).writeKey d p tp q tq).reg r := congrArg (·.regs r) hvs
        _ = ((u.setSeed sd).writeKey d p tp q tq).reg r := State.writeKey_reg_congr _ _ d p tp q tq h6 h7
        _ = v.reg r := (congrArg (·.regs r) hvu).symm
    have hseed : t.seed = v.seed := (congrArg View.seed hvs).trans (congrArg View.seed hvu).symm
    have hresult : t.result = v.result := (congrArg View.result hvs).trans (congrArg View.result hvu).symm
    have haux : t.aux = v.aux := (congrArg View.aux hvs).trans (congrArg View.aux hvu).symm
    exact ⟨t, v, hs, hu, hseed, .inr ⟨hcs, hcu, hresult, haux, hregs⟩⟩

/-! How KEYGEN ends, from the equation that says what its outcome is. -/

section endings

variable {s : State} {bits : Nat}

theorem keygen_faults {c : Cause} {sd : Seed}
    (h : keyOutcome s.k s.tryLimit s.roundCount bits s.seed = .fault c sd) :
    ∃ t, exec (.keygen bits) s = .next t ∧ s.Faulted c.info t ∧ t.view = { s.view with seed := sd } := by
  rw [exec_keygen, h]
  exact raise_seed_spec c s sd

theorem keygen_completes {d p tp q tq : Nat} {sd : Seed}
    (h : keyOutcome s.k s.tryLimit s.roundCount bits s.seed = .key d p tp q tq sd) :
    ∃ t, exec (.keygen bits) s = .next t ∧ s.Completed t ∧
      t.view =
        { (((((s.view.put .b0 65537).put .b1 d).put .b2 (p * q)).put .b3 p).put .b4 q).put .b5
            ((p - 1) * (q - 1)) with
          seed := sd, result := BitVec.ofNat 32 tp, aux := BitVec.ofNat 32 tq } := by
  rw [exec_keygen, h]
  exact complete_view s _ _ (by simp) (by rw [State.writeKey_view, State.setSeed_view]; rfl)

end endings

/-- Settles O30: each path of R171 is one equation of `keyOutcome`. -/
theorem keygenDerivesTheKeyOrFaults : Obligations.KeygenDerivesTheKeyOrFaults := by
  intro bits s
  refine ⟨fun himm => spells_of_opcode himm (opcodeField_wordI _ _ _) rfl, fun h2 hw h => ?_, fun h => ?_⟩
  · have hk : s.roundCount ≠ 0 := mt s.roundCount_eq_zero_iff.1 h
    refine ⟨fun sd hf => keygen_faults (keyOutcome_of_first_fails h2 hw hk hf), fun p tp sp hp =>
      ⟨fun sd hf => keygen_faults (keyOutcome_of_second_fails h2 hw hk hp hf), fun q tq sq hq => ?_⟩⟩
    have hout := keyOutcome_of_finds h2 hw hk hp hq
    refine ⟨fun hdvd => keygen_faults (hout.trans (keyOfPrimes_of_dvd hdvd)), fun hdvd hdvd' => ?_⟩
    obtain ⟨hplow, hphigh, -⟩ := hp.candidate_spec h2
    obtain ⟨hqlow, hqhigh, -⟩ := hq.candidate_spec h2
    have htwo : 2 ≤ 2 ^ (bits / 2 - 1) := Nat.le_self_pow (by omega) 2
    obtain ⟨d, hkey, hd, hinv⟩ := exists_keyOfPrimes (htwo.trans hplow) (htwo.trans hqlow) hdvd hdvd'
    obtain ⟨t, hnext, hcompleted, hview⟩ := keygen_completes (hout.trans hkey)
    have hfits : p * q < 2 ^ s.k :=
      (mul_lt_two_pow hphigh hqhigh).trans_le (Nat.pow_le_pow_right (by norm_num) (by omega))
    have hlen := bitlen_mul (by omega) hplow hqlow hphigh hqhigh
    refine ⟨t, d, hnext, hcompleted, hd, hinv, hview, hfits, hlen, fun h34 => ?_⟩
    have hle := (bitlen_le_iff _ _).2 (mul_lt_two_pow_pred (by omega) (hp.candidate_lt h34) (hq.candidate_lt h34))
    omega
  · rw [← s.roundCount_eq_zero_iff] at h
    exact keygen_faults (keyOutcome_of_not_range h)

/-- Settles O31: both engines have one `keyOutcome`. -/
theorem keygenIsDeterminedByTheSeed : Obligations.KeygenIsDeterminedByTheSeed := by
  intro bits s u hw hseed hrounds hmax
  have hout : keyOutcome s.k s.tryLimit s.roundCount bits s.seed =
      keyOutcome u.k u.tryLimit u.roundCount bits u.seed := by
    simp only [State.k, State.tryLimit, State.roundCount, hw, hseed, hrounds, hmax]
  rw [exec_keygen, exec_keygen, hout]
  exact KeyOutcome.answer_agrees _ s u

/-! What RSAENC and RSADEC answer: an equation per case (44_rsa.md R172, R173). -/

section commands

variable {s : State} {ra rb rm : Reg} {plain : List Byte} (rd : Reg)

theorem exec_rsaenc_of_outside (h : s.inst.memSize < s.inAddr + s.inLen) :
    exec (.rsaenc rd rb rm) s = raise .addr s :=
  if_pos (not_le.2 h)

theorem exec_rsaenc_of_long (hin : s.InsideMem s.inAddr s.inLen) (h : bitlen (s.reg rm) ≤ bitlen (be s.inBytes)) :
    exec (.rsaenc rd rb rm) s = raise .msgTooLong s :=
  (if_neg (not_not.2 hin)).trans (if_pos (not_lt.2 h))

theorem exec_rsaenc_of_short (hin : s.InsideMem s.inAddr s.inLen) (h : bitlen (be s.inBytes) < bitlen (s.reg rm)) :
    exec (.rsaenc rd rb rm) s = complete (s.setReg rd (be s.inBytes ^ s.reg rb % s.reg rm)) := by
  rw [← powMod_eq]
  exact (if_neg (not_not.2 hin)).trans (if_neg (not_not.2 h))

theorem exec_rsadec_of_outside (h : s.inst.memSize < s.outAddr + s.outLen) :
    exec (.rsadec ra rb rm) s = raise .addr s :=
  if_pos (not_le.2 h)

variable (hin : s.InsideMem s.outAddr s.outLen)
include hin

theorem exec_rsadec_of_cipher_ge (h : s.reg rm ≤ s.reg ra) : exec (.rsadec ra rb rm) s = raise .cipherRange s :=
  (if_neg (not_not.2 hin)).trans (if_pos (not_lt.2 h))

/-- Past the checks of the window and the cipher, `plain` decides. -/
theorem exec_rsadec_of_cipher_lt (hc : s.reg ra < s.reg rm)
    (hplain : plain = minbytes (s.reg ra ^ s.reg rb % s.reg rm)) :
    exec (.rsadec ra rb rm) s =
      if s.outLen < plain.length then raise .outBuf s
      else if ¬ s.inst.text.accepts plain then raise .text s
      else complete ((s.writeBytes s.outAddr plain).setResult plain.length) := by
  subst hplain
  rw [← powMod_eq]
  exact (if_neg (not_not.2 hin)).trans (if_neg (not_not.2 hc))

end commands

section endings

variable {s : State} {ra rb rm : Reg} {plain : List Byte}

/-- RSADEC that succeeds: the plain bytes and their number (44_rsa.md R173). -/
theorem rsadec_completes (hin : s.InsideMem s.outAddr s.outLen) (hc : s.reg ra < s.reg rm)
    (hplain : plain = minbytes (s.reg ra ^ s.reg rb % s.reg rm)) (hfit : plain.length ≤ s.outLen)
    (htext : s.inst.text.accepts plain = true) :
    ∃ t, exec (.rsadec ra rb rm) s = .next t ∧ s.Completed t ∧
      t.view = { s.view.store s.outAddr plain with result := BitVec.ofNat 32 plain.length } :=
  have heq := (exec_rsadec_of_cipher_lt hin hc hplain).trans
    ((if_neg (not_lt.2 hfit)).trans (if_neg (not_not.2 htext)))
  completed_of_eq heq (by simp) (by simp)

end endings

/-- A residue modulo a number that fits a register has at most `W` bytes (44_rsa.md R173). -/
theorem minbytes_mod_length_le {s : State} {m : Nat} (x : Nat) (hpos : 0 < m) (hm : m < 2 ^ s.k) :
    (minbytes (x % m)).length ≤ s.inst.w := by
  rw [minbytes_length, minLen_le_iff, State.bytes_w_eq_two_pow_k]
  exact (Nat.mod_lt x hpos).trans hm

/-- Settles O32: two checks, then one register. -/
theorem rsaencEncryptsOrFaults : Obligations.RsaencEncryptsOrFaults := fun rd _ _ _ =>
  ⟨spells_of_opcode trivial (opcodeField_wordR _ _ _ _ _) rfl,
    fun h => faulted_of_eq (exec_rsaenc_of_outside rd h),
    fun hin h => faulted_of_eq (exec_rsaenc_of_long rd hin h),
    fun hin h => completed_of_eq_setReg (exec_rsaenc_of_short rd hin h)⟩

/-- Settles O33: four checks in turn, then the bytes and `RESULT`. -/
theorem rsadecDecryptsOrFaults : Obligations.RsadecDecryptsOrFaults := by
  intro ra rb rm s plain hplain
  refine ⟨spells_of_opcode trivial (opcodeField_wordR _ _ _ _ _) rfl,
    fun h => faulted_of_eq (exec_rsadec_of_outside h), fun hin =>
      ⟨fun h => faulted_of_eq (exec_rsadec_of_cipher_ge hin h), fun hc h => ?_, fun hc hfit htext => ?_,
        fun hc hfit htext => ?_⟩⟩
  · exact faulted_of_eq ((exec_rsadec_of_cipher_lt hin hc hplain).trans (if_pos h))
  · have hno : ¬ s.inst.text.accepts plain := Bool.eq_false_iff.1 htext
    exact faulted_of_eq ((exec_rsadec_of_cipher_lt hin hc hplain).trans ((if_neg (not_lt.2 hfit)).trans (if_pos hno)))
  · obtain ⟨t, hnext, hcompleted, hview⟩ := rsadec_completes hin hc hplain hfit htext
    exact ⟨t, hnext, hcompleted, hview,
      fun hm => hplain ▸ minbytes_mod_length_le _ ((Nat.zero_le _).trans_lt hc) hm⟩

/-! The round trip (44_rsa.md R174). -/

/-- A string whose first byte is not 0 is the minimal string of its value (00_scope.md R11): with `n` bytes after the first
its value is at least `256^n`. -/
theorem minbytes_be_of_head_ne_zero {l : List Byte} (h : l.getD 0 0 ≠ 0) : minbytes (be l) = l := by
  cases l with
  | nil => exact absurd rfl h
  | cons x rest =>
    have hx : 0 < x.toNat := Nat.pos_of_ne_zero fun h0 => h (BitVec.eq_of_toNat_eq h0)
    have hlow : ¬ be (x :: rest) < 256 ^ rest.length := by
      rw [be_cons]
      have := Nat.le_mul_of_pos_left (256 ^ rest.length) hx
      omega
    have hhigh := (minLen_le_iff _ _).2 (be_lt (x :: rest))
    rw [← minLen_le_iff] at hlow
    have hlen : minLen (be (x :: rest)) = (x :: rest).length := by
      rw [List.length_cons] at hhigh ⊢
      omega
    rw [minbytes, hlen, beBytes_be]

/-- The strings that are minimal: the empty one and those that do not begin with 0 (00_scope.md R11). -/
theorem minbytes_be_eq_self_iff (l : List Byte) : l = [] ∨ l.getD 0 0 ≠ 0 ↔ minbytes (be l) = l := by
  constructor
  · rintro (rfl | h)
    · rfl
    · exact minbytes_be_of_head_ne_zero h
  · intro h
    rcases Nat.eq_zero_or_pos (be l) with h0 | hpos
    · rw [h0, minbytes_zero] at h
      exact .inl h.symm
    · have hhead := minbytes_head_ne_zero hpos
      rw [h] at hhead
      exact .inr hhead

/-- What was stored is read back from a state whose view shows the store. -/
theorem State.readBytes_of_view_store {s u : State} {a : Nat} {l : List Byte}
    (h : u.view.mem = (s.view.store a l).mem) : u.readBytes a l.length = l := by
  rw [← s.writeBytes_view a l] at h
  rw [State.readBytes_congr (s.writeBytes a l) u a l.length fun i _ => congrFun h (a + i)]
  exact s.readBytes_writeBytes a l

/-- Settles O34: the cipher is below the modulus and its power is the message (`Nat.pow_mod`), so RSADEC stores the message's
minimal bytes. -/
theorem decryptAfterEncryptGivesTheMessage : Obligations.DecryptAfterEncryptGivesTheMessage := by
  intro rd re rx rm s hx hm hkey hin hlen hout hfit htext
  have hlt : be s.inBytes < s.reg rm := lt_of_bitlen_lt _ _ hlen
  have henc := exec_rsaenc_of_short (rb := re) rd hin hlen
  have hcipher : be s.inBytes ^ s.reg re % s.reg rm < s.reg rm := Nat.mod_lt _ ((Nat.zero_le _).trans_lt hlt)
  have hplain : be s.inBytes = (be s.inBytes ^ s.reg re % s.reg rm) ^ s.reg rx % s.reg rm := by
    rw [← Nat.pow_mod, ← pow_mul, hkey _ hlt]
  generalize be s.inBytes ^ s.reg re % s.reg rm = c at henc hcipher hplain
  obtain ⟨u, hnext, hcompleted, hview⟩ :=
    rsadec_completes (s := (s.setReg rd c).retire) (ra := rd) (rb := rx) (rm := rm) hout
      (by simpa [hm.symm] using hcipher) (by simpa [hx.symm, hm.symm] using congrArg minbytes hplain) hfit htext
  exact ⟨_, u, henc, hnext, hcompleted, congrArg View.result hview,
    State.readBytes_of_view_store (congrArg (·.mem) hview), minbytes_be_eq_self_iff s.inBytes⟩

end Sys2Proof.Machine

/-! The statements of 45_lsb_codec.md: EMBED, EXTRACT and the round trip. -/

namespace Sys2Proof.Machine

/-! The checks that EMBED and EXTRACT begin with (45_lsb_codec.md R192, R193). -/

section checks

variable {s : State} {a n : Nat} {r : Result}

/-- The checks of the frame and of the data window `(a, n)`, in their order; `r` is the answer past them. -/
def State.frameChecked (s : State) (a n : Nat) (r : Result) : Result :=
  if s.chan < 3 then raise .param s
  else if ¬ s.InsideMem s.frameAddr s.frameLen then raise .addr s
  else if ¬ s.InsideMem a n then raise .addr s
  else if Overlap a n s.frameAddr s.frameLen then raise .overlap s
  else r

theorem State.frameChecked_of_chan_lt (h : s.chan < 3) : s.frameChecked a n r = raise .param s :=
  if_pos h

theorem State.frameChecked_of_outside (hc : 3 ≤ s.chan)
    (h : s.inst.memSize < s.frameAddr + s.frameLen ∨ s.inst.memSize < a + n) :
    s.frameChecked a n r = raise .addr s := by
  refine (if_neg (not_lt.2 hc)).trans ?_
  by_cases hframe : s.InsideMem s.frameAddr s.frameLen
  · have hdata : ¬ s.InsideMem a n := not_le.2 (h.resolve_left (not_lt.2 hframe))
    exact (if_neg (not_not.2 hframe)).trans (if_pos hdata)
  · exact if_pos hframe

theorem State.frameChecked_of_inside (hc : 3 ≤ s.chan) (hframe : s.InsideMem s.frameAddr s.frameLen)
    (hdata : s.InsideMem a n) :
    s.frameChecked a n r = if Overlap a n s.frameAddr s.frameLen then raise .overlap s else r :=
  (if_neg (not_lt.2 hc)).trans ((if_neg (not_not.2 hframe)).trans (if_neg (not_not.2 hdata)))

theorem State.frameChecked_of_overlap (hc : 3 ≤ s.chan) (hframe : s.InsideMem s.frameAddr s.frameLen)
    (hdata : s.InsideMem a n) (h : Overlap a n s.frameAddr s.frameLen) : s.frameChecked a n r = raise .overlap s :=
  (frameChecked_of_inside hc hframe hdata).trans (if_pos h)

theorem State.frameChecked_of_ready (h : s.FrameReady a n) : s.frameChecked a n r = r := by
  obtain ⟨hc, hframe, hdata, hapart⟩ := h
  exact (frameChecked_of_inside hc hframe hdata).trans (if_neg hapart)

end checks

/-! What the two commands answer. -/

section commands

variable (s : State)

/-- The writes of EMBED past its checks (45_lsb_codec.md R192). -/
def State.embedded (s : State) : State := (s.embedStream (bitstream s.inBytes)).setResult (8 * s.inLen + 16)

theorem exec_embed : exec .embed s = s.frameChecked s.inAddr s.inLen
    (if s.cap < 8 * s.inLen + 16 then raise .frameTooSmall s else complete s.embedded) :=
  rfl

/-- What EXTRACT answers when the search for the terminator ended with `found` (45_lsb_codec.md R193). -/
def State.extractAnswer (s : State) (found : Option Nat) : Result :=
  found.elim (complete (((s.setT false).setResult 0).setAux 0)) fun nb =>
    if s.outLen < nb / 8 then raise .outBuf s
    else complete
      ((((s.writeBytes s.outAddr (bytesOf ((s.lsbFrom 0 s.cap).take nb))).setT true).setResult (nb / 8)).setAux (nb % 8))

theorem exec_extract : exec .extract s =
    s.frameChecked s.outAddr s.outLen (s.extractAnswer (findTerminator (s.lsbFrom 0 s.cap) 0)) := by
  rw [State.extractAnswer]
  simp only [exec, execExtract, State.frameChecked]
  cases findTerminator (s.lsbFrom 0 s.cap) 0 <;> rfl

end commands

/-! The terminator in the frame. -/

/-- Whether the terminator stands at `i` is a matter of sixteen bits (00_scope.md R12). -/
theorem terminatorAt_congr {u v : Nat → Bool} {i : Nat} (h : ∀ j, j < i + 16 → u j = v j) :
    TerminatorAt u i ↔ TerminatorAt v i := by
  have hones : ∀ j, j < 15 → u (i + j) = v (i + j) := fun j hj => h _ (by omega)
  unfold TerminatorAt
  rw [h (i + 15) (by omega)]
  exact and_congr_left fun _ => forall₂_congr fun j hj => by rw [hones j hj]

/-- EXTRACT's search is over the bits of the frame (45_lsb_codec.md R193). -/
theorem State.fitsAt_lsbFrom_iff (s : State) (i : Nat) :
    FitsAt (s.lsbFrom 0 s.cap) i ↔ i + 16 ≤ s.cap ∧ TerminatorAt s.frameBit i := by
  unfold FitsAt
  rw [s.lsbFrom_length]
  refine and_congr_right fun hi => terminatorAt_congr fun j hj => ?_
  rw [s.lsbFrom_getD 0 s.cap j (by omega), Nat.zero_add]

theorem State.findTerminator_lsbFrom_of_none {s : State} (h : ∀ i, i + 16 ≤ s.cap → ¬ TerminatorAt s.frameBit i) :
    findTerminator (s.lsbFrom 0 s.cap) 0 = none :=
  findTerminator_none_of _ fun i hi =>
    have ⟨hle, hat⟩ := (s.fitsAt_lsbFrom_iff i).1 hi
    h i hle hat

theorem State.findTerminator_lsbFrom_of_first {s : State} {i : Nat} (hi : i + 16 ≤ s.cap)
    (hat : TerminatorAt s.frameBit i) (hfirst : ∀ j, j < i → ¬ TerminatorAt s.frameBit j) :
    findTerminator (s.lsbFrom 0 s.cap) 0 = some i :=
  findTerminator_some_of _ i ((s.fitsAt_lsbFrom_iff i).2 ⟨hi, hat⟩) fun j hj hfits =>
    hfirst j hj ((s.fitsAt_lsbFrom_iff j).1 hfits).2

/-- The bits of the bytes EXTRACT writes are those of the frame, bit 7 first (45_lsb_codec.md R193). -/
theorem State.bytesOf_lsbFrom_bit (s : State) {i j : Nat} (hi : i ≤ s.cap) (hj : j < 8 * (i / 8)) :
    ((bytesOf ((s.lsbFrom 0 s.cap).take i)).getD (j / 8) 0).getLsbD (7 - j % 8) = s.frameBit j := by
  have hlen : ((s.lsbFrom 0 s.cap).take i).length = i := by simpa using hi
  rw [bytesOf_bit _ _ _ (by omega) (Nat.mod_lt j (by omega)), Nat.div_add_mod, List.getD_eq_getElem?_getD,
    List.getElem?_take_of_lt (by omega), ← List.getD_eq_getElem?_getD, s.lsbFrom_getD 0 s.cap j (by omega), Nat.zero_add]

/-! How EMBED ends. -/

theorem exec_embed_of_ready {s : State} (hready : s.FrameReady s.inAddr s.inLen) (hcap : 8 * s.inLen + 16 ≤ s.cap) :
    exec .embed s = complete s.embedded :=
  (exec_embed s).trans ((State.frameChecked_of_ready hready).trans (if_neg (not_lt.2 hcap)))

/-- The stream of EMBED has 16 bits more than its payload (00_scope.md R12). -/
theorem State.bitstream_inBytes_length (s : State) : (bitstream s.inBytes).length = 8 * s.inLen + 16 := by
  rw [bitstream_length, State.inBytes, State.readBytes_length]

/-- A slot of the stream after EMBED: bit 0 is the stream's (45_lsb_codec.md R192). -/
theorem State.readByte_embedded_slot {s : State} (hc : 3 ≤ s.chan) {i : Nat} (hi : i < 8 * s.inLen + 16) :
    s.embedded.readByte (s.slot i) = setLsb (s.readByte (s.slot i)) (streamBit s.readByte s.inAddr s.inLen i) := by
  rw [← s.bitstream_getD i hi]
  exact s.readByte_embedStream_slot hc _ _ (s.bitstream_inBytes_length ▸ hi)

/-- EMBED writes the slots of the stream only (45_lsb_codec.md R192). -/
theorem State.readByte_embedded_other {s : State} (hc : 3 ≤ s.chan) {a : Nat}
    (ha : ∀ i, i < 8 * s.inLen + 16 → s.slot i ≠ a) : s.embedded.readByte a = s.readByte a :=
  s.readByte_embedStream_other hc _ a fun i hi => (ha i (s.bitstream_inBytes_length ▸ hi)).symm

/-- After EMBED the frame's LSB sequence begins with the stream (45_lsb_codec.md R192). -/
theorem State.frameBit_retire_embedded {s : State} (hc : 3 ≤ s.chan) {i : Nat} (hi : i < 8 * s.inLen + 16) :
    s.embedded.retire.frameBit i = streamBit s.readByte s.inAddr s.inLen i :=
  (congrArg (·.getLsbD 0) (readByte_embedded_slot hc hi)).trans (setLsb_bit _ _ 0)

/-- Replacing bit 0 keeps bits 7 to 1 (45_lsb_codec.md R192). -/
theorem setLsb_and_high (x : Byte) (v : Bool) : setLsb x v &&& 0xFE#8 = x &&& 0xFE#8 :=
  BitVec.eq_of_getLsbD_eq fun k _ => by
    rw [BitVec.getLsbD_and, BitVec.getLsbD_and, setLsb_bit]
    cases k <;> simp

/-- Settles O35: the checks in turn, then the slots by `State.readByte_embedded_slot` and every other byte by
`State.readByte_embedded_other`. -/
theorem embedWritesTheStreamOrFaults : Obligations.EmbedWritesTheStreamOrFaults := by
  refine ⟨spells_of_opcode trivial rfl rfl, fun s =>
    ⟨fun h => faulted_of_eq ((exec_embed s).trans (State.frameChecked_of_chan_lt h)),
      fun hc => ⟨fun h => faulted_of_eq ((exec_embed s).trans (State.frameChecked_of_outside hc h)),
        fun hframe hdata h =>
          faulted_of_eq ((exec_embed s).trans (State.frameChecked_of_overlap hc hframe hdata h))⟩,
      fun hready => ⟨fun h => ?_, fun hcap => ?_⟩⟩⟩
  · exact faulted_of_eq ((exec_embed s).trans ((State.frameChecked_of_ready hready).trans (if_pos h)))
  · have hc : 3 ≤ s.chan := hready.1
    obtain ⟨t, hnext, hcompleted, hview⟩ :=
      completed_of_eq (s := s) (exec_embed_of_ready hready hcap) (by simp [State.embedded]) rfl
    have hmem : t.readByte = s.embedded.readByte := congrArg View.mem hview
    refine ⟨t, hnext, hcompleted, by rw [hview, hmem]; rfl, fun i hi => ?_, fun a ha => ?_⟩
    · rw [hmem, State.readByte_embedded_slot hc hi]
      exact ⟨setLsb_bit _ _ 0, setLsb_and_high _ _⟩
    · rw [hmem, State.readByte_embedded_other hc ha]

/-! How EXTRACT ends. -/

/-- Past its checks EXTRACT answers by the place of the terminator. -/
theorem exec_extract_of_ready {s : State} {found : Option Nat} (hready : s.FrameReady s.outAddr s.outLen)
    (hfound : findTerminator (s.lsbFrom 0 s.cap) 0 = found) : exec .extract s = s.extractAnswer found :=
  hfound ▸ (exec_extract s).trans (State.frameChecked_of_ready hready)

/-- EXTRACT that finds the terminator and has room for the bytes before it (45_lsb_codec.md R193). -/
theorem extract_completes {s : State} {i : Nat} (hready : s.FrameReady s.outAddr s.outLen) (hi : i + 16 ≤ s.cap)
    (hat : TerminatorAt s.frameBit i) (hfirst : ∀ j, j < i → ¬ TerminatorAt s.frameBit j) (hroom : i / 8 ≤ s.outLen) :
    ∃ t bytes, exec .extract s = .next t ∧ s.Completed t ∧ bytes.length = i / 8 ∧
      (∀ j, j < 8 * (i / 8) → (bytes.getD (j / 8) 0).getLsbD (7 - j % 8) = s.frameBit j) ∧
      t.view = { s.view.store s.outAddr bytes with
        t := true, result := BitVec.ofNat 32 (i / 8), aux := BitVec.ofNat 32 (i % 8) } := by
  have hle : i ≤ s.cap := by omega
  have heq := (exec_extract_of_ready hready (State.findTerminator_lsbFrom_of_first hi hat hfirst)).trans
    (if_neg (not_lt.2 hroom))
  obtain ⟨t, hnext, hcompleted, hview⟩ := completed_of_eq (s := s) heq (by simp) rfl
  exact ⟨t, _, hnext, hcompleted, by simp [hle], fun j hj => s.bytesOf_lsbFrom_bit hle hj,
    hview.trans (by simp)⟩

/-- Settles O36: the checks in turn, then the search's answer by `State.fitsAt_lsbFrom_iff`. -/
theorem extractReadsUpToTheTerminator : Obligations.ExtractReadsUpToTheTerminator := by
  refine ⟨spells_of_opcode trivial rfl rfl, fun s =>
    ⟨fun h => faulted_of_eq ((exec_extract s).trans (State.frameChecked_of_chan_lt h)),
      fun hc => ⟨fun h => faulted_of_eq ((exec_extract s).trans (State.frameChecked_of_outside hc h)),
        fun hframe hdata h =>
          faulted_of_eq ((exec_extract s).trans (State.frameChecked_of_overlap hc hframe hdata h))⟩,
      fun hready => ⟨fun hnone => ?_, fun i hi hat hfirst =>
        ⟨fun hshort => ?_, extract_completes hready hi hat hfirst⟩⟩⟩⟩
  · exact completed_of_eq (exec_extract_of_ready hready (State.findTerminator_lsbFrom_of_none hnone)) (by simp) (by simp)
  · exact faulted_of_eq ((exec_extract_of_ready hready (State.findTerminator_lsbFrom_of_first hi hat hfirst)).trans
      (if_pos hshort))

/-! The round trip (45_lsb_codec.md R194). -/

section stream

variable {mem : Nat → Byte} {a n i : Nat}

/-- The appended terminator. -/
theorem streamBit_terminatorAt_end : TerminatorAt (streamBit mem a n) (8 * n) := by
  unfold TerminatorAt streamBit
  exact ⟨fun j hj => by simp [hj], by simp⟩

/-- A terminator that begins before the appended one ends before it: its zero is no one of the appended fifteen. -/
theorem terminatorAt_streamBit_within_payload (hat : TerminatorAt (streamBit mem a n) i) (hi : i < 8 * n) :
    i + 16 ≤ 8 * n := by
  by_contra hout
  have hone : streamBit mem a n (i + 15) = true := by
    rw [streamBit, if_neg (by omega), decide_eq_true (by omega)]
  exact absurd hat.2 (by simp [hone])

/-- The first terminator is the appended one or lies wholly in the payload. -/
theorem first_terminatorAt_streamBit (hat : TerminatorAt (streamBit mem a n) i)
    (hfirst : ∀ j, j < i → ¬ TerminatorAt (streamBit mem a n) j) : i = 8 * n ∨ i + 16 ≤ 8 * n := by
  have hle : i ≤ 8 * n := not_lt.1 fun h => hfirst _ h streamBit_terminatorAt_end
  exact hle.eq_or_lt.imp_right (terminatorAt_streamBit_within_payload hat)

end stream

/-- Byte strings are equal when their bits are (00_scope.md R12). -/
theorem byteString_ext_bits {p q : List Byte} (hlen : p.length = q.length)
    (h : ∀ j, j < 8 * p.length →
      (p.getD (j / 8) 0).getLsbD (7 - j % 8) = (q.getD (j / 8) 0).getLsbD (7 - j % 8)) : p = q := by
  have hbits : bitsOf p = bitsOf q := List.ext_getElem (by simp [hlen]) fun j hp hq => by
    have hj : j < 8 * p.length := by simpa using hp
    rw [← List.getD_eq_getElem _ false hp, ← List.getD_eq_getElem _ false hq, bitsOf_getD p j hj,
      bitsOf_getD q j (hlen ▸ hj), h j hj]
  rw [← bytesOf_bitsOf p, hbits, bytesOf_bitsOf]

/-- A bit of the first `k` bytes of the payload is the stream's (00_scope.md R12). -/
theorem State.take_inBytes_bit (s : State) {k j : Nat} (hk : k ≤ s.inLen) (hj : j < 8 * k) :
    ((s.inBytes.take k).getD (j / 8) 0).getLsbD (7 - j % 8) = streamBit s.readByte s.inAddr s.inLen j := by
  have hlen : j / 8 < s.inBytes.length := by rw [State.inBytes, State.readBytes_length]; omega
  have hbyte : (s.inBytes.take k).getD (j / 8) 0 = s.readByte (s.inAddr + j / 8) := by
    rw [List.getD_eq_getElem?_getD, List.getElem?_take_of_lt (by omega), List.getElem?_eq_getElem hlen]
    exact s.readBytes_getElem s.inAddr s.inLen (j / 8) hlen
  rw [hbyte, streamBit, if_pos (by omega)]

/-- EMBED keeps the registers of the frame and the size of `MEM` (45_lsb_codec.md R190, R192). -/
theorem State.frameReady_retire_embedded (s : State) (a n : Nat) :
    s.embedded.retire.FrameReady a n ↔ s.FrameReady a n := by
  simp [State.FrameReady, State.embedded, State.chan, State.frameAddr, State.frameLen, State.pixels]

/-- Settles O37: the frame holds the stream (`State.frameBit_retire_embedded`), so EXTRACT finds the terminator where the
stream has it first, and the bytes before it are the payload's bit by bit. -/
theorem extractAfterEmbedReturnsThePayload : Obligations.ExtractAfterEmbedReturnsThePayload := by
  intro s i hin hcap hout hroom
  refine ⟨streamBit_terminatorAt_end, fun hat hfirst => ?_⟩
  have hplace := first_terminatorAt_streamBit hat hfirst
  refine ⟨hplace, ?_⟩
  have hbit : ∀ j, j < 8 * s.inLen + 16 →
      s.embedded.retire.frameBit j = streamBit s.readByte s.inAddr s.inLen j :=
    fun j hj => State.frameBit_retire_embedded hin.1 hj
  have hsame : ∀ j, j ≤ i →
      (TerminatorAt s.embedded.retire.frameBit j ↔ TerminatorAt (streamBit s.readByte s.inAddr s.inLen) j) :=
    fun j hj => terminatorAt_congr fun k hk => hbit k (by omega)
  obtain ⟨u, bytes, hnext, hcompleted, hlen, hbytes, hview⟩ :=
    extract_completes (i := i) ((s.frameReady_retire_embedded _ _).2 hout) (show i + 16 ≤ s.cap by omega)
      ((hsame i le_rfl).2 hat) (fun j hj => mt (hsame j hj.le).1 (hfirst j hj)) (show i / 8 ≤ s.outLen by omega)
  have hpayload : bytes = s.inBytes.take (i / 8) :=
    byteString_ext_bits (by rw [hlen, List.length_take, State.inBytes, State.readBytes_length]; omega) fun j hj => by
      rw [hlen] at hj
      rw [s.take_inBytes_bit (by omega) hj, hbytes j hj, hbit j (by omega)]
  refine ⟨_, u, exec_embed_of_ready hin hcap, hnext, hcompleted, congrArg View.t hview, congrArg View.result hview,
    congrArg View.aux hview, ?_⟩
  rw [← hpayload, ← hlen]
  exact State.readBytes_of_view_store (congrArg (·.mem) hview)

end Sys2Proof.Machine

/-! The statements of 46_key_serializer.md: the loads, the stores and the two round trips. -/

namespace Sys2Proof.Machine

/-! The three stores are one operation, each on its own string. -/

/-- The writes of a store (46_key_serializer.md R212, R213, R216): the string at the start of the output window, its length in
`RESULT`. -/
def State.stored (s : State) (l : List Byte) : State := (s.writeBytes s.outAddr l).setResult l.length

/-- A store: the checks of the output window in their order, then the writes (46_key_serializer.md R212, R213, R216). -/
def State.storeOut (s : State) (l : List Byte) : Result :=
  if ¬ s.InsideMem s.outAddr s.outLen then raise .addr s
  else if s.outLen < l.length then raise .outBuf s
  else complete (s.stored l)

section stores

variable (s : State) (ra rb : Reg)

theorem exec_stf : exec (.stf ra) s = s.storeOut (beBytes s.inst.w (s.reg ra)) := by
  rw [State.storeOut, State.stored, beBytes_length]
  rfl

/-- Two fields have `2*W` bytes (46_key_serializer.md R213). -/
theorem State.fields_length (x y : Nat) : (beBytes s.inst.w x ++ beBytes s.inst.w y).length = 2 * s.inst.w := by
  rw [List.length_append, beBytes_length, beBytes_length, two_mul]

theorem exec_pack :
    exec (.pack ra rb) s = s.storeOut (beBytes s.inst.w (s.reg ra) ++ beBytes s.inst.w (s.reg rb)) := by
  rw [State.storeOut, State.stored, State.fields_length]
  rfl

theorem exec_stm : exec (.stm ra) s = s.storeOut (minbytes (s.reg ra)) := rfl

end stores

/-! How a store ends. -/

section endings

variable {s : State} {l : List Byte} {r : Result}

theorem State.storeOut_of_fits (hin : s.InsideMem s.outAddr s.outLen) (hfit : l.length ≤ s.outLen) :
    s.storeOut l = complete (s.stored l) :=
  (if_neg (not_not.2 hin)).trans (if_neg (not_lt.2 hfit))

variable (h : r = s.storeOut l)
include h

theorem store_faults_of_outside (hout : s.inst.memSize < s.outAddr + s.outLen) :
    ∃ t, r = .next t ∧ s.Faulted Cause.addr.info t ∧ t.view = s.view :=
  faulted_of_eq (h.trans (if_pos (not_le.2 hout)))

variable (hin : s.InsideMem s.outAddr s.outLen)
include hin

theorem store_faults_of_short (hshort : s.outLen < l.length) :
    ∃ t, r = .next t ∧ s.Faulted Cause.outBuf.info t ∧ t.view = s.view :=
  faulted_of_eq (h.trans ((if_neg (not_not.2 hin)).trans (if_pos hshort)))

theorem store_completes (hfit : l.length ≤ s.outLen) :
    ∃ t, r = .next t ∧ s.Completed t ∧
      t.view = { s.view.store s.outAddr l with result := BitVec.ofNat 32 l.length } :=
  completed_of_eq (h.trans (State.storeOut_of_fits hin hfit)) (by simp [State.stored]) (by simp [State.stored])

end endings

/-- The minimal string of a number that fits a register has at most `W` bytes (00_scope.md R11). -/
theorem State.minbytes_length_le_w {s : State} {v : Nat} (h : v < 2 ^ s.k) : (minbytes v).length ≤ s.inst.w := by
  rwa [minbytes_length, minLen_le_iff, s.bytes_w_eq_two_pow_k]

/-- Settles O39: three times one store, on the strings of one field, of two fields and of the minimal bytes. -/
theorem stfPackStmStoreOrFault : Obligations.StfPackStmStoreOrFault := by
  intro ra rb s
  have hstf := exec_stf s ra
  have hpack := exec_pack s ra rb
  have hstm := exec_stm s ra
  have hfield : (beBytes s.inst.w (s.reg ra)).length = s.inst.w := beBytes_length _ _
  have hfields := s.fields_length (s.reg ra) (s.reg rb)
  refine ⟨spells_of_opcode trivial (opcodeField_wordR _ _ _ _ _) rfl,
    spells_of_opcode trivial (opcodeField_wordR _ _ _ _ _) rfl,
    spells_of_opcode trivial (opcodeField_wordR _ _ _ _ _) rfl,
    fun hout => ⟨store_faults_of_outside hstf hout, store_faults_of_outside hpack hout,
      store_faults_of_outside hstm hout⟩,
    fun hin => ⟨fun hshort => store_faults_of_short hstf hin (hfield.symm ▸ hshort), fun hfit => ?_,
      fun hshort => store_faults_of_short hpack hin (hfields.symm ▸ hshort), fun hfit => ?_,
      store_faults_of_short hstm hin, fun hfit => ?_⟩⟩
  · have hends := store_completes hstf hin (hfield.symm ▸ hfit)
    rwa [hfield] at hends
  · have hends := store_completes hpack hin (hfields.symm ▸ hfit)
    rwa [hfields] at hends
  · obtain ⟨t, hnext, hcompleted, hview⟩ := store_completes hstm hin hfit
    exact ⟨t, hnext, hcompleted, hview, State.minbytes_length_le_w⟩

/-! LDF and UNPACK check the input window for a number of bytes. -/

section fields

/-- The checks of LDF and UNPACK on the input window, in their order (46_key_serializer.md R211, R214); `r` is the answer past
them. -/
def State.fieldsChecked (s : State) (n : Nat) (r : Result) : Result :=
  if ¬ s.InsideMem s.inAddr s.inLen then raise .addr s
  else if s.inLen ≠ n then raise .keyBufLen s
  else r

variable {s : State} {n : Nat} {r : Result}

theorem State.fieldsChecked_of_outside (h : s.inst.memSize < s.inAddr + s.inLen) :
    s.fieldsChecked n r = raise .addr s :=
  if_pos (not_le.2 h)

theorem State.fieldsChecked_of_length_ne (hin : s.InsideMem s.inAddr s.inLen) (h : s.inLen ≠ n) :
    s.fieldsChecked n r = raise .keyBufLen s :=
  (if_neg (not_not.2 hin)).trans (if_pos h)

theorem State.fieldsChecked_of_length_eq (hin : s.InsideMem s.inAddr s.inLen) (h : s.inLen = n) :
    s.fieldsChecked n r = r :=
  (if_neg (not_not.2 hin)).trans (if_neg (not_not.2 h))

end fields

/-! What the loads answer. -/

section loads

variable {s : State} (rd : Reg)

theorem exec_ldf : exec (.ldf rd) s =
    s.fieldsChecked s.inst.w (complete (s.setReg rd (be (s.readBytes s.inAddr s.inst.w)))) :=
  rfl

theorem exec_unpack_of_eq : exec (.unpack rd rd) s = raise .param s := if_pos rfl

theorem exec_unpack_of_ne {rb : Reg} (h : rd ≠ rb) : exec (.unpack rd rb) s =
    s.fieldsChecked (2 * s.inst.w)
      (complete ((s.setReg rd (be (s.readBytes s.inAddr s.inst.w))).setReg rb
        (be (s.readBytes (s.inAddr + s.inst.w) s.inst.w)))) :=
  if_neg h

theorem exec_ldm_of_outside (h : s.inst.memSize < s.inAddr + s.inLen) : exec (.ldm rd) s = raise .addr s :=
  if_pos (not_le.2 h)

theorem exec_ldm_of_le (hin : s.InsideMem s.inAddr s.inLen) (h : 2 ^ s.k ≤ be s.inBytes) :
    exec (.ldm rd) s = raise .overflow s :=
  (if_neg (not_not.2 hin)).trans (if_pos h)

theorem exec_ldm_of_lt (hin : s.InsideMem s.inAddr s.inLen) (h : be s.inBytes < 2 ^ s.k) :
    exec (.ldm rd) s = complete (s.setReg rd (be s.inBytes)) :=
  (if_neg (not_not.2 hin)).trans (if_neg (not_le.2 h))

end loads

/-- Settles O38: the checks of each load in turn, then the write of one register. -/
theorem ldfAndLdmLoadOrFault : Obligations.LdfAndLdmLoadOrFault := fun rd _ =>
  ⟨spells_of_opcode trivial (opcodeField_wordR _ _ _ _ _) rfl,
    spells_of_opcode trivial (opcodeField_wordR _ _ _ _ _) rfl,
    fun hout => ⟨faulted_of_eq ((exec_ldf rd).trans (State.fieldsChecked_of_outside hout)),
      faulted_of_eq (exec_ldm_of_outside rd hout)⟩,
    fun hin => ⟨fun hne => faulted_of_eq ((exec_ldf rd).trans (State.fieldsChecked_of_length_ne hin hne)),
      fun hlen => completed_of_eq_setReg ((exec_ldf rd).trans (State.fieldsChecked_of_length_eq hin hlen)),
      fun hle => faulted_of_eq (exec_ldm_of_le rd hin hle),
      fun hlt => completed_of_eq_setReg (exec_ldm_of_lt rd hin hlt)⟩⟩

/-- Settles O40: the check of the destinations, those of the window, then two registers. -/
theorem unpackLoadsTwoFieldsOrFaults : Obligations.UnpackLoadsTwoFieldsOrFaults := by
  intro rd rb s
  refine ⟨spells_of_opcode trivial (opcodeField_wordR _ _ _ _ _) rfl, ?_,
    fun hne hout => faulted_of_eq ((exec_unpack_of_ne rd hne).trans (State.fieldsChecked_of_outside hout)),
    fun hne hin =>
      ⟨fun hlen => faulted_of_eq ((exec_unpack_of_ne rd hne).trans (State.fieldsChecked_of_length_ne hin hlen)),
        fun hlen => ?_⟩⟩
  · rintro rfl
    exact faulted_of_eq (exec_unpack_of_eq rd)
  · exact completed_of_eq ((exec_unpack_of_ne rd hne).trans (State.fieldsChecked_of_length_eq hin hlen))
      (by simp) (by simp)

/-! The round trips (46_key_serializer.md R214, R216): a load from the input window the host sets on the string just stored. -/

/-- After the store of a string has retired, with the input window set to the string's place and length. -/
def State.storedThenWindowed (s : State) (l : List Byte) : State :=
  { (s.stored l).retire with addr0 := s.addr1, len0 := BitVec.ofNat 32 l.length }

namespace State

@[simp] theorem storedThenWindowed_inst (s : State) (l : List Byte) : (s.storedThenWindowed l).inst = s.inst := rfl

@[simp] theorem storedThenWindowed_inAddr (s : State) (l : List Byte) :
    (s.storedThenWindowed l).inAddr = s.outAddr := rfl

/-- The window holds the string. -/
theorem readBytes_storedThenWindowed (s : State) (l : List Byte) :
    (s.storedThenWindowed l).readBytes s.outAddr l.length = l :=
  have hmem : (s.storedThenWindowed l).view.mem = (s.writeBytes s.outAddr l).view.mem := rfl
  readBytes_of_view_store (hmem.trans (congrArg View.mem (s.writeBytes_view s.outAddr l)))

/-- A window of two parts is read part by part (20_memory.md R61). -/
theorem readBytes_add (s : State) (a m n : Nat) : s.readBytes a (m + n) = s.readBytes a m ++ s.readBytes (a + m) n := by
  induction m generalizing a with
  | zero => simp [readBytes]
  | succ k ih => rw [Nat.succ_add, readBytes, ih, readBytes, List.cons_append, Nat.add_assoc, Nat.add_comm 1 k]

/-- A string of two parts is read back part by part. -/
theorem readBytes_storedThenWindowed_append (s : State) (l l' : List Byte) :
    (s.storedThenWindowed (l ++ l')).readBytes s.outAddr l.length = l ∧
      (s.storedThenWindowed (l ++ l')).readBytes (s.outAddr + l.length) l'.length = l' := by
  have hread := s.readBytes_storedThenWindowed (l ++ l')
  rw [List.length_append, readBytes_add] at hread
  exact List.append_inj hread (readBytes_length _ _ _)

variable {s : State} {l : List Byte} (hfit : l.length ≤ s.outLen)
include hfit

/-- A string that fits the output window has a length of 32 bits, which the window keeps whole (10_state.md R39, R40). -/
theorem storedThenWindowed_inLen : (s.storedThenWindowed l).inLen = l.length :=
  (BitVec.toNat_ofNat _ _).trans (Nat.mod_eq_of_lt (hfit.trans_lt s.len1.isLt))

theorem storedThenWindowed_insideMem (hin : s.InsideMem s.outAddr s.outLen) :
    (s.storedThenWindowed l).InsideMem (s.storedThenWindowed l).inAddr (s.storedThenWindowed l).inLen := by
  rw [storedThenWindowed_inLen hfit]
  exact (Nat.add_le_add_left hfit _).trans hin

theorem storedThenWindowed_inBytes : (s.storedThenWindowed l).inBytes = l := by
  rw [inBytes, storedThenWindowed_inLen hfit]
  exact s.readBytes_storedThenWindowed l

end State

/-- The field of a register holds its number (00_scope.md R10). -/
theorem State.Inv.be_field {s : State} (h : s.Inv) (r : Reg) : be (beBytes s.inst.w (s.reg r)) = s.reg r :=
  be_beBytes_of_lt _ _ (s.bytes_w_eq_two_pow_k ▸ h.reg_lt r)

/-- Settles O41: the window holds the two fields one after the other, and each is read back as its register's number. -/
theorem unpackAfterPackRestoresBoth : Obligations.UnpackAfterPackRestoresBoth := by
  intro ra rb rd rx s hinv hne hin hroom
  have hlen := s.fields_length (s.reg ra) (s.reg rb)
  have hfit := hlen.trans_le hroom
  have hstore := (exec_pack s ra rb).trans (State.storeOut_of_fits hin hfit)
  have hload := (exec_unpack_of_ne rd hne).trans
    (State.fieldsChecked_of_length_eq (State.storedThenWindowed_insideMem hfit hin)
      ((State.storedThenWindowed_inLen hfit).trans hlen))
  obtain ⟨hfirst, hsecond⟩ := s.readBytes_storedThenWindowed_append
    (beBytes s.inst.w (s.reg ra)) (beBytes s.inst.w (s.reg rb))
  simp only [beBytes_length] at hfirst hsecond
  rw [← hlen]
  refine ⟨_, _, hstore, hload, ?_, ?_⟩
  · simp [hne, hfirst, hinv.be_field]
  · simp [hsecond, hinv.be_field]

/-- Settles O42: the window holds the minimal bytes, whose number fits the register. -/
theorem ldmAfterStmRestoresTheValue : Obligations.LdmAfterStmRestoresTheValue := by
  intro ra rd s hinv hin hfit
  have hstore := (exec_stm s ra).trans (State.storeOut_of_fits hin hfit)
  have hvalue : be (s.storedThenWindowed (minbytes (s.reg ra))).inBytes = s.reg ra := by
    rw [State.storedThenWindowed_inBytes hfit, be_minbytes]
  have hload := exec_ldm_of_lt rd (State.storedThenWindowed_insideMem hfit hin)
    (hvalue.trans_lt (hinv.reg_lt ra))
  exact ⟨_, _, hstore, hload, by simp [hvalue]⟩

end Sys2Proof.Machine

/-! The statements of 60_exceptions.md and 70_reset_and_hazards.md: a recorded fault, the interrupt output, and the reset turn. -/

namespace Sys2Proof.Machine

/-! A recorded fault. -/

/-- The table of 60_exceptions.md R232: each fault with its code as printed. -/
def Cause.table : List (Cause × Word) :=
  [(.illegalOpcode, 0x00000101#32), (.reservedField, 0x00000201#32), (.param, 0x00000301#32),
    (.addr, 0x00000401#32), (.overlap, 0x00000501#32), (.modulusZero, 0x00000601#32), (.overflow, 0x00000701#32),
    (.underflow, 0x00000801#32), (.cipherRange, 0x00000901#32), (.outBuf, 0x00000A01#32),
    (.msgTooLong, 0x00000102#32), (.frameTooSmall, 0x00000202#32), (.noInverse, 0x00000103#32),
    (.keyBufLen, 0x00000104#32), (.text, 0x00000204#32), (.primeSearch, 0x00000105#32)]

/-- The code the model computes from class and sub-cause is the one printed (60_exceptions.md R232). -/
theorem Cause.info_eq_of_mem_table {c : Cause} {code : Word} (h : (c, code) ∈ Cause.table) : c.info = code :=
  have hrows : ∀ p ∈ Cause.table, p.1.info = p.2 := by decide
  hrows _ h

namespace State

variable {s : State} (c : Cause)

/-- The first fault is recorded (60_exceptions.md R233). -/
theorem record_of_no_err (h : s.status.err = false) :
    s.record c = { s with errInfo := c.info, errCmd := s.cmd, status := { s.status with err := true } } :=
  if_neg (Bool.eq_false_iff.1 h)

/-- A later fault keeps the record of the first (60_exceptions.md R233). -/
theorem record_of_err (h : s.status.err = true) :
    s.record c = { s with status := { s.status with errOvf := true } } :=
  if_pos h

end State

/-- Settles O43: the state answered is the record, retired, and `ERR` decides what the record writes. -/
theorem aFaultRecordsItsCodeAndRetires : Obligations.AFaultRecordsItsCodeAndRetires := by
  intro c code s hrow
  have hcode : c.info = code := Cause.info_eq_of_mem_table hrow
  refine ⟨_, raise_next c s, by simp, fun hfirst => ?_, fun hlater => ?_⟩
  · rw [State.record_of_no_err c hfirst, hcode]
    rfl
  · rw [State.record_of_err c hlater]
    rfl

/-! The interrupt output. -/

/-- Settles O52: the bits of the two words are the flags `irq` is made of. -/
theorem irqFollowsStatusAndEnables : Obligations.IrqFollowsStatusAndEnables := by
  intro s
  obtain ⟨-, hdone, herr, -⟩ := s.status.word_bits
  obtain ⟨hieDone, hieErr, -⟩ := s.ie.word_bits
  simp only [State.csrValue, hdone, herr, hieDone, hieErr, State.irq]

/-! The reset turn. -/

/-- The reset turn leaves the table's values (70_reset_and_hazards.md R260): it differs from the state after reset
in the parameters, which `CFG` and `MEMSIZE` show (10_state.md R50), and in the model's own fields. -/
theorem State.hardReset_atReset (s : State) : s.hardReset.AtReset :=
  { resetStateHasTheValuesOfTheTable with
    cfg := rfl
    memSize := rfl }

/-- Settles O9: the turn is `State.hardReset`, whatever the state. -/
theorem resetIsOneStepFromAnyState : Obligations.ResetIsOneStepFromAnyState := fun s =>
  ⟨s.hardReset, rfl, s.hardReset_atReset, rfl⟩

end Sys2Proof.Machine
